-- ==== Sys2Proof/Word.lean ====
section
/-! DEFINITION. The register word and the memory byte (R21: every register is 32 bits; R7: a byte is 8 bits). -/

namespace Sys2Proof

/-- A register or command word: 32 bits (R6 `XLEN`, R21, R90). -/
abbrev Word := BitVec 32

/-- A byte of `MEM`: 8 bits (R7, R39). -/
abbrev Byte := BitVec 8

end Sys2Proof
end

