-- ==== Sys2Proof/Config.lean ====
section
/-! DEFINITION. What an implementation fixes (R6: `MEM_SIZE` and the three codec grammars) and the values the spec leaves open.
An `opaque` constant here has no body: nothing in Lean can evaluate it, so a claim proved about the model holds for every value. -/

namespace Sys2Proof

/-- `LZW_VARIANT` (R6, R146, U5): the default variant of R146 to R149, or a replacement, one of the uninterpreted ones below
(log 4). -/
inductive LzwVariant where
  | standard
  | replaced (id : Nat)
  deriving DecidableEq, Repr

/-- `SCN_GRAMMAR` (R6, R174, U6): the default record grammar of R174, or a replacement (log 4). -/
inductive ScnGrammar where
  | standard
  | replaced (id : Nat)
  deriving DecidableEq, Repr

/-- `BMK_GRAMMAR` (R6, R181, U7): the default layout of R181, or a replacement (log 4). -/
inductive BmkGrammar where
  | standard
  | replaced (id : Nat)
  deriving DecidableEq, Repr

/-- The parameters of one EFC4, fixed for its life (R6, R41). -/
structure Config where
  /-- `MEM_SIZE`, the number of bytes of `MEM` (R6, R39). -/
  memSize : Nat
  lzw : LzwVariant
  scn : ScnGrammar
  bmk : BmkGrammar
  deriving DecidableEq, Repr

/-- The values R6 gives as defaults: 16 MiB of `MEM` and the three default grammars (log 3, log 4). -/
def Config.standard : Config :=
  { memSize := 2 ^ 24, lzw := .standard, scn := .standard, bmk := .standard }

/-- `1 <= MEM_SIZE <= 2^31` (R6). -/
def Config.wf (c : Config) : Bool :=
  decide (1 ≤ c.memSize) && decide (c.memSize ≤ 2 ^ 31)

/-- How an LZW decode ends (R148; U5 gives the same outcomes to a replaced variant). Offsets count from the first encoded byte. -/
inductive LzwEnd where
  /-- The declared length was produced from the first `consumed` encoded bytes. -/
  | ok (consumed : Nat)
  /-- The source ended after `produced` bytes of output (`E_LEN_MISMATCH`). -/
  | exhausted (produced : Nat)
  /-- An undecodable code (`E_LZW_CODE`). -/
  | badCode (offset limit code : Nat)
  deriving DecidableEq, Repr, Inhabited

/-- How an SCN frame decode ends (R174; U6 for a replaced grammar). Offsets count from the first byte of the frame. -/
inductive ScnEnd where
  /-- Decoded: some control byte exceeds `0x0F` (R175), a trailing line-wrap marker is present (R176). -/
  | ok (deep wrap : Bool)
  /-- `E_SCN_STREAM` (R245). -/
  | bad (offset subcode detail : Nat)
  deriving DecidableEq, Repr, Inhabited

/-- How a bitmask decode ends (R182; U7 for a replaced layout). -/
inductive BmkEnd where
  /-- All output bytes were produced from the first `consumed` source bytes. -/
  | ok (consumed : Nat)
  /-- The source is too short to begin: `needed` bytes are needed (`E_TRUNCATED`, a pre-check fault). -/
  | truncated (needed : Nat)
  /-- The literals ran out at source offset `offset`, output position `produced` (`E_LEN_MISMATCH`). -/
  | exhausted (offset produced : Nat)
  deriving DecidableEq, Repr, Inhabited

/-- FREE VALUE (log 1): the byte at an address of `MEM` that nothing has written since the reset number `epoch` (R45, U3). -/
opaque Config.resetByte (epoch : Nat) (addr : Nat) : Byte

/-- FREE VALUE (log 2): the byte that mid-stream fault number `draw` leaves at offset `i` of `DST` (R263, U4). -/
opaque Config.midStreamByte (draw : Nat) (i : Nat) : Byte

/-- OPEN PARAMETER (log 4): how replaced LZW variant `id` decodes these encoded bytes to `n` bytes (U5). DESIGN CHOICE (log 21): the
numbers in a fault's outcome (bytes produced; offset, limit and code) are free too. -/
opaque Config.lzwReplaced (id : Nat) (encoded : List Byte) (n : Nat) : LzwEnd

/-- OPEN PARAMETER (log 4): output byte `i` of replaced LZW variant `id` (U5). -/
opaque Config.lzwReplacedByte (id : Nat) (encoded : List Byte) (n i : Nat) : Byte

/-- OPEN PARAMETER (log 4): how replaced SCN grammar `id` decodes a frame of `w * h` pixels (U6). DESIGN CHOICE (log 21): the numbers
in a fault's outcome (offset, subcode, detail) are free too. -/
opaque Config.scnReplaced (id : Nat) (frame : List Byte) (w h : Nat) : ScnEnd

/-- OPEN PARAMETER (log 4): output pixel `i` of replaced SCN grammar `id` (U6). -/
opaque Config.scnReplacedByte (id : Nat) (frame : List Byte) (w h i : Nat) : Byte

/-- OPEN PARAMETER (log 4): how replaced bitmask layout `id` decodes this source to `n` bytes (U7). DESIGN CHOICE (log 21): the
numbers in a fault's outcome (bytes needed; literal offset and bytes produced) are free too. -/
opaque Config.bmkReplaced (id : Nat) (source : List Byte) (n : Nat) : BmkEnd

/-- OPEN PARAMETER (log 4): output byte `i` of replaced bitmask layout `id` (U7). -/
opaque Config.bmkReplacedByte (id : Nat) (source : List Byte) (n i : Nat) : Byte

end Sys2Proof
end

