-- ==== Sys2Proof/Machine/State.lean ====
section
/-! DEFINITION. The state of EFC4 as plain data (10_state.md), the reasons a step stops, and the state after reset (R45). -/

namespace Sys2Proof.Machine

/-- `STATUS.STATE`, bits 1:0 (R28, R29). -/
inductive Phase where
  | idle
  | busy
  | done
  | fault
  deriving DecidableEq, Repr

/-- The fault names of R241. `hashCheck` is reserved and never raised (R215, U16). -/
inductive ErrCode where
  | chunkCorrupt
  | truncated
  | offset
  | chunkId
  | compLzss
  | compUnknown
  | blankFrame
  | lenMismatch
  | lzwCode
  | scnStream
  | tileIndex
  | mtxSmall
  | pixRange
  | hashCheck
  | tileSize
  | tileCount
  | lenRange
  | badCmd
  | region
  | param
  deriving DecidableEq, Repr

/-- The three region register pairs (R56). -/
inductive Region where
  | src
  | dst
  | aux
  deriving DecidableEq, Repr

/-- `MEM` (R39, R50): the listed bytes, by address. An address that is not listed holds no chosen value: nothing has written it
since reset, and reading it gives a free byte (log 1). -/
abbrev Memory := List Host.Cell

/-- What the host, the reset input or the engine does next (R20, R100, R280; log 5). -/
inductive Event where
  /-- `WR` or `CMD`: the host writes `value` to the register at `offset` (R36, R100). -/
  | writeReg (offset : Nat) (value : Word)
  /-- `RD`: the host reads the register at `offset` (R36, R100). -/
  | readReg (offset : Nat)
  /-- `WAIT`: the host reads `STATUS` until `STATE` is not `BUSY` (R100). -/
  | wait
  /-- `POKE`: the host writes bytes to `MEM` (R39, R100). -/
  | poke (addr : Nat) (bytes : List Byte)
  /-- `PEEK`: the host reads `count` bytes of `MEM` (R39, R100). -/
  | peek (addr count : Nat)
  /-- The engine gets the step: it completes the accepted command if there is one (R233). -/
  | engine
  /-- The reset input (R280). -/
  | reset
  deriving DecidableEq, Repr

/-- What the host's last read returned (log 6). -/
inductive Observation where
  | nothing
  | reg (offset : Nat) (value : Word)
  | mem (addr : Nat) (bytes : List Byte)
  deriving DecidableEq, Repr

/-- The state of the machine. `cfg` is its configuration (R6, R41); `memEpoch`, `draws`, `agenda` and `seen` are the model's own
fields (log 1, log 2, log 5, log 6); every other field is a register or the memory of 10_state.md. -/
structure State where
  /-- `MEM_SIZE` and the codec grammars, fixed for the life of the hardware (R6, R41). -/
  cfg : Config
  /-- The operand registers `x[0..11]` (R21). -/
  opr : Vector Word 12
  /-- The result registers `x[12..15]`, `RES0` to `RES3` (R21, R24). -/
  res : Vector Word 4
  /-- `CMD`: the last accepted command word (R27). -/
  cmd : Word
  /-- `STATUS.STATE` (R28, R29). -/
  phase : Phase
  /-- `STATUS.SHORT` (R28, R30). -/
  short : Bool
  /-- `STATUS.OVR` (R28, R31). -/
  ovr : Bool
  /-- `STATUS.FSTICKY` (R28, R32). -/
  fsticky : Bool
  /-- `FCODE` (R33). -/
  fcode : Word
  /-- `FINFO0` (R34). -/
  finfo0 : Word
  /-- `FINFO1` (R34). -/
  finfo1 : Word
  /-- `FINFO2` (R34). -/
  finfo2 : Word
  /-- `MEM` (R39): the bytes written since reset. -/
  mem : Memory
  /-- Which free contents the bytes of `MEM` nothing has written have: one more after each reset (log 1). -/
  memEpoch : Nat
  /-- How many times a mid-stream fault has left free bytes (log 2). -/
  draws : Nat
  /-- What happens next, in order (log 5). -/
  agenda : List Event
  /-- What the host's last read returned (log 6). -/
  seen : Observation
  deriving DecidableEq, Repr

/-- Why the machine stops with a fault: for no reason. The faults of R241 are not here, since a command that faults takes a next state
(R262) and the host waits for it there; and the accesses the spec treats by `refuse` are refusals (93_implementation_defined.md). -/
inductive Fault where
  deriving DecidableEq, Repr

/-- Why the model gives a step no meaning: the treatment `refuse` of 93_implementation_defined.md. -/
inductive Refusal where
  /-- Raised by `exec` for an instruction that has no meaning yet. Safe. -/
  | notModelled (mnemonic : String)
  /-- Raised by the host's `POKE` or `PEEK` (never by an instruction) while `STATE = BUSY` (R286, U1: refuse). Safe: the model
  stops where the spec gives the access no meaning (log 7). -/
  | hostMemWhileBusy
  /-- Raised by the host's `POKE` or `PEEK` (never by an instruction) of an address that does not exist, `>= MEM_SIZE` (R50, U2:
  refuse). Safe: the model stops where the spec gives the access no meaning (log 8). -/
  | noSuchAddress
  deriving DecidableEq, Repr

/-- What one step or one instruction answers. -/
abbrev Outcome := Host.Outcome State Fault Refusal

/-- The machine right after reset (R45, R280): registers 0, `STATE = IDLE`, flags 0, no byte of `MEM` specified. The
configuration is the default of R6; `memEpoch`, `draws`, `agenda` and `seen` are the model's own (DESIGN CHOICE: log 1, 2, 3, 4, 5, 6). -/
def State.reset : State where
  cfg := Config.standard
  opr := Vector.replicate 12 0
  res := Vector.replicate 4 0
  cmd := 0
  phase := .idle
  short := false
  ovr := false
  fsticky := false
  fcode := 0
  finfo0 := 0
  finfo1 := 0
  finfo2 := 0
  mem := []
  memEpoch := 0
  draws := 0
  agenda := []
  seen := .nothing

end Sys2Proof.Machine
end

