-- ==== Sys2Proof/Machine/Memory.lean ====
section
/-! DEFINITION. The named operations over `MEM` (R39, R50, R54): every access is one byte; wider ones are built here, once. -/

namespace Sys2Proof.Machine

/-- The byte listed at an address, if one is. -/
def Memory.lookup : Memory → Nat → Option Byte
  | [], _ => none
  | (a, b) :: m, k => if a = k then some b else Memory.lookup m k

/-- List a byte at an address, in place of what was listed there, keeping the addresses rising. -/
def Memory.insert : Memory → Nat → Byte → Memory
  | [], k, v => [(k, v)]
  | (a, b) :: m, k, v =>
    if k < a then (k, v) :: (a, b) :: m
    else if k = a then (k, v) :: m
    else (a, b) :: Memory.insert m k v

/-- The canonical form: addresses strictly rising. An unlisted address has no chosen value (log 1), so no entry can equal what an
unlisted address reads as. -/
abbrev Memory.wf (m : Memory) : Prop :=
  m.Pairwise (fun c d => c.1 < d.1)

/-- `MemWrite(a, n, v)` (R9): the bytes at `a`, `a + 1`, ..., lowest address first. -/
def Memory.writeList : Memory → Nat → List Byte → Memory
  | m, _, [] => m
  | m, a, b :: bs => Memory.writeList (Memory.insert m a b) (a + 1) bs

/-- The byte of `MEM` at an address: what was last written there since reset, or a free byte (R45, U3; log 1). -/
def State.byteAt (s : State) (a : Nat) : Byte :=
  match Memory.lookup s.mem a with
  | some b => b
  | none => Config.resetByte s.memEpoch a

/-- `MemRead(a, n)` (R9). -/
def State.bytesAt (s : State) (a n : Nat) : List Byte :=
  (List.range n).map fun j => s.byteAt (a + j)

/-- Store bytes to `MEM` from an address upward (R9). -/
def State.storeBytes (s : State) (a : Nat) (bytes : List Byte) : State :=
  { s with mem := Memory.writeList s.mem a bytes }

end Sys2Proof.Machine
end

