-- ==== Sys2Proof/Machine/Operands.lean ====
section
/-! DEFINITION. Every operand form: the named operand registers (R21), the three regions (R56), the region-relative readers of
R10, and the narrowings of R8 and R235. -/

namespace Sys2Proof.Machine

/-- Register `x[i]` as one of the sixteen of R21. -/
def State.x (s : State) (i : Fin 16) : Word :=
  if h : i.val < 12 then s.opr[i.val] else s.res[i.val - 12]

/-- `SRC_BASE = x[0]` (R21). -/
def State.srcBase (s : State) : Nat := s.opr[0].toNat
/-- `SRC_LEN = x[1]` (R21). -/
def State.srcLen (s : State) : Nat := s.opr[1].toNat
/-- `DST_BASE = x[2]` (R21). -/
def State.dstBase (s : State) : Nat := s.opr[2].toNat
/-- `DST_LEN = x[3]` (R21). -/
def State.dstLen (s : State) : Nat := s.opr[3].toNat
/-- `AUX_BASE = x[4]` (R21). -/
def State.auxBase (s : State) : Nat := s.opr[4].toNat
/-- `AUX_LEN = x[5]` (R21). -/
def State.auxLen (s : State) : Nat := s.opr[5].toNat
/-- `WIDTH = x[6]` (R21). -/
def State.width (s : State) : Nat := s.opr[6].toNat
/-- `HEIGHT = x[7]` (R21). -/
def State.height (s : State) : Nat := s.opr[7].toNat
/-- `STRIDE = x[8]` (R21). -/
def State.stride (s : State) : Nat := s.opr[8].toNat
/-- `ARG = x[9]` (R21). -/
def State.arg (s : State) : Nat := s.opr[9].toNat
/-- `BLKW = x[10]` (R21). -/
def State.blkw (s : State) : Nat := s.opr[10].toNat
/-- `BLKH = x[11]` (R21). -/
def State.blkh (s : State) : Nat := s.opr[11].toNat

/-- The number of a region in fault information (R56). -/
def Region.num : Region → Nat
  | .src => 0
  | .dst => 1
  | .aux => 2

/-- The base address of a region (R56). -/
def State.base (s : State) : Region → Nat
  | .src => s.srcBase
  | .dst => s.dstBase
  | .aux => s.auxBase

/-- The length of a region (R56). -/
def State.len (s : State) : Region → Nat
  | .src => s.srcLen
  | .dst => s.dstLen
  | .aux => s.auxLen

/-- `SRC[j]` (R10). -/
def State.src (s : State) (j : Nat) : Byte := s.byteAt (s.srcBase + j)

/-- `AUX[j]` (R10). -/
def State.aux (s : State) (j : Nat) : Byte := s.byteAt (s.auxBase + j)

/-- `R[a .. a+n)` of a region given by its byte reader (R10). -/
def sliceOf (r : Nat → Byte) (a n : Nat) : List Byte :=
  (List.range n).map fun j => r (a + j)

/-- `LE16(R, j)` (R10, R51). -/
def le16At (r : Nat → Byte) (j : Nat) : Nat :=
  (r j).toNat + 256 * (r (j + 1)).toNat

/-- `LE32(R, j)` (R10, R51). -/
def le32At (r : Nat → Byte) (j : Nat) : Nat :=
  (r j).toNat + 2 ^ 8 * (r (j + 1)).toNat + 2 ^ 16 * (r (j + 2)).toNat + 2 ^ 24 * (r (j + 3)).toNat

/-- `sLE16(R, j)` (R10). -/
def sle16At (r : Nat → Byte) (j : Nat) : Int :=
  if le16At r j ≥ 2 ^ 15 then (le16At r j : Int) - 2 ^ 16 else le16At r j

/-- `sLE32(R, j)` (R10). -/
def sle32At (r : Nat → Byte) (j : Nat) : Int :=
  if le32At r j ≥ 2 ^ 31 then (le32At r j : Int) - 2 ^ 32 else le32At r j

/-- The bytes that `le16(v)` stores (R10). -/
def le16Bytes (v : Nat) : List Byte :=
  [BitVec.ofNat 8 (v % 256), BitVec.ofNat 8 (v / 256 % 256)]

/-- The bytes that `le32(v)` stores (R10). -/
def le32Bytes (v : Nat) : List Byte :=
  [BitVec.ofNat 8 (v % 256), BitVec.ofNat 8 (v / 256 % 256), BitVec.ofNat 8 (v / 65536 % 256),
    BitVec.ofNat 8 (v / 16777216 % 256)]

/-- `ceil(a / b)` for `b > 0` (R8). -/
def ceilDiv (a b : Nat) : Nat := (a + b - 1) / b

/-- `sat32(v) = min(v, 0xFFFFFFFF)` (R8). -/
def sat32 (v : Nat) : Nat := min v 0xFFFFFFFF

/-- The 32 bits a `FINFO` register gets for a value: saturated above, two's complement below 0 (R34, R235 c). -/
def finfoWord (v : Int) : Word :=
  if v < 0 then BitVec.ofInt 32 v else BitVec.ofNat 32 (sat32 v.toNat)

end Sys2Proof.Machine
end

