-- ==== Sys2Proof/Machine/Flags.lean ====
section
/-! DEFINITION. Every flag of R37 and the `STATUS` word that shows them (R28). -/

namespace Sys2Proof.Machine

/-- The two bits of `STATUS.STATE` (R28). -/
def Phase.bits : Phase → BitVec 2
  | .idle => 0
  | .busy => 1
  | .done => 2
  | .fault => 3

/-- `STATUS` (R28): `STATE` in bits 1:0, `SHORT` bit 2, `OVR` bit 3, `FSTICKY` bit 4, zeros above. -/
def State.statusWord (s : State) : Word :=
  0#27 ++ BitVec.ofBool s.fsticky ++ BitVec.ofBool s.ovr ++ BitVec.ofBool s.short ++ s.phase.bits

/-- `SHORT` as `RLE.DEC` leaves it (R30, R142): set iff fewer than `DST_LEN` bytes were produced. -/
def shortFlag (produced declared : Nat) : Bool := decide (produced < declared)

/-- A host write was discarded because of `STATE` (R31): `OVR` is set and nothing else happens. -/
def State.overrun (s : State) : State := { s with ovr := true }

end Sys2Proof.Machine
end

