-- ==== Sys2Proof/Machine/Ops.lean ====
section
/-! DEFINITION. The shared operations of the engine: the region check (R58), completing a command (R22, R24), taking a fault
(R262, R263) and returning from one (R232, R265), accepting a command (R230), reset (R280). -/

namespace Sys2Proof.Machine

/-! ### Fault codes -/

/-- The code of a fault (R241). -/
def ErrCode.code : ErrCode → BitVec 8
  | .chunkCorrupt => 0x10
  | .truncated => 0x11
  | .offset => 0x12
  | .chunkId => 0x13
  | .compLzss => 0x20
  | .compUnknown => 0x21
  | .blankFrame => 0x22
  | .lenMismatch => 0x30
  | .lzwCode => 0x31
  | .scnStream => 0x32
  | .tileIndex => 0x33
  | .mtxSmall => 0x34
  | .pixRange => 0x35
  | .hashCheck => 0x36
  | .tileSize => 0x37
  | .tileCount => 0x40
  | .lenRange => 0x41
  | .badCmd => 0x50
  | .region => 0x51
  | .param => 0x52

/-- The class of a fault, `FCODE[7:4]` (R242). -/
def ErrCode.cls (e : ErrCode) : BitVec 4 := e.code.extractLsb' 4 4

/-- What `FCODE` holds for a fault: the code in bits 7:0, zeros above (R33). -/
def ErrCode.word (e : ErrCode) : Word := e.code.setWidth 32

/-! ### Regions -/

/-- The roles a command gives the regions (R57): the ones it may read and the ones it may write. -/
structure Roles where
  inn : List Region
  out : List Region
  deriving DecidableEq, Repr

/-- A region is used by the command (R57). -/
def Roles.uses (ro : Roles) (r : Region) : Bool :=
  decide (r ∈ ro.inn) || decide (r ∈ ro.out)

/-- A used region does not lie wholly inside `MEM` (R58, the first loop). -/
def outOfMem (ro : Roles) (s : State) (r : Region) : Option (Nat × Nat × Nat) :=
  if ro.uses r && decide (s.base r + s.len r > s.cfg.memSize) then
    some ((r.num <<< 4) ||| r.num, s.base r, s.len r)
  else none

/-- Two used regions, one of them `OUT`, share a byte (R58, the second loop). -/
def overlap (ro : Roles) (s : State) (a b : Region) : Option (Nat × Nat × Nat) :=
  if ro.uses a && ro.uses b && (decide (a ∈ ro.out) || decide (b ∈ ro.out)) && decide (s.len a > 0) && decide (s.len b > 0)
      && decide (s.base a < s.base b + s.len b) && decide (s.base b < s.base a + s.len a) then
    some (0x100 ||| (a.num <<< 4) ||| b.num, s.base b, s.len b)
  else none

/-- The region check (R58): the information of the `E_REGION` it raises, or none. First failure wins. -/
def regionFault (ro : Roles) (s : State) : Option (Nat × Nat × Nat) :=
  (outOfMem ro s .src).or <| (outOfMem ro s .dst).or <| (outOfMem ro s .aux).or <|
    (overlap ro s .src .dst).or <| (overlap ro s .src .aux).or <| overlap ro s .dst .aux

/-! ### How a command ends -/

/-- What a command's own rule answers. `out` and `outAux` are the bytes written from offset 0 of `DST` and of `AUX`. -/
inductive Verdict where
  /-- The command succeeds with these four results (R22). `short` is what becomes of `SHORT`: `none` leaves it (R30). -/
  | done (r0 r1 r2 r3 : Nat) (short : Option Bool) (out outAux : List Byte)
  /-- A fault raised before any write (R263). -/
  | preFault (e : ErrCode) (i0 i1 i2 : Int)
  /-- A fault raised by a streaming decoder that was producing `n` bytes of output (R263). -/
  | midFault (e : ErrCode) (i0 i1 i2 : Int) (n : Nat)
  deriving DecidableEq, Repr

/-- TAKING A FAULT (R262): the fault record is latched, the results are cleared, `FSTICKY` is set, `STATE` becomes `FAULT`.
Nothing else changes; control goes nowhere. -/
def takeFault (e : ErrCode) (i0 i1 i2 : Int) (s : State) : State :=
  { s with
    fcode := e.word
    finfo0 := finfoWord i0
    finfo1 := finfoWord i1
    finfo2 := finfoWord i2
    res := #v[0, 0, 0, 0]
    fsticky := true
    phase := .fault }

/-- What a mid-stream fault leaves in `MEM` (R263, U4): the bytes `DST[0 .. n)` each hold a free value (log 2). -/
def scrambleDst (n : Nat) (s : State) : State :=
  { s.storeBytes s.dstBase ((List.range n).map (Config.midStreamByte s.draws)) with draws := s.draws + 1 }

/-- RETURNING FROM A FAULT (R232, R265): what an `ACK` does when `STATE` is not `BUSY`. -/
def acknowledge (s : State) : State :=
  { s with
    cmd := 0x00000001
    phase := .idle
    fcode := 0
    finfo0 := 0
    finfo1 := 0
    finfo2 := 0
    ovr := false }

/-- A command ends without fault (R22, R24, R233): its output is in `MEM`, its results in `x[12..15]`, `STATE` is `DONE`. -/
def finish (r0 r1 r2 r3 : Nat) (short : Option Bool) (out outAux : List Byte) (s : State) : State :=
  { (s.storeBytes s.dstBase out).storeBytes s.auxBase outAux with
    res := #v[BitVec.ofNat 32 r0, BitVec.ofNat 32 r1, BitVec.ofNat 32 r2, BitVec.ofNat 32 r3]
    short := short.getD s.short
    phase := .done }

/-- The state a verdict leaves. -/
def conclude (v : Verdict) (s : State) : State :=
  match v with
  | .done r0 r1 r2 r3 short out outAux => finish r0 r1 r2 r3 short out outAux s
  | .preFault e i0 i1 i2 => takeFault e i0 i1 i2 s
  | .midFault e i0 i1 i2 n => takeFault e i0 i1 i2 (scrambleDst n s)

/-- The engine's complete step for a legal word (R233, R250): the region check, then the command's own rule. -/
def complete (ro : Roles) (rule : State → Verdict) (s : State) : State :=
  match regionFault ro s with
  | some (i0, i1, i2) => takeFault .region i0 i1 i2 s
  | none => conclude (rule s) s

/-- An illegal command word faults before anything else (R97). -/
def badCommand (w : Word) (s : State) : State := takeFault .badCmd 0 0 w.toNat s

/-! ### Acceptance and reset -/

/-- A command word is accepted (R230, last branch): results and `SHORT` are cleared, `STATE` becomes `BUSY`. -/
def accept (w : Word) (s : State) : State :=
  { s with cmd := w, res := #v[0, 0, 0, 0], short := false, phase := .busy }

/-- The reset input (R280, R281), from any state: the state of R45, with `MEM` unspecified anew (log 1). The configuration, what
is still to happen, what the host has read and the count of free draws are not the hardware's registers and stay (log 14). -/
def hardReset (s : State) : State :=
  { State.reset with
    cfg := s.cfg, memEpoch := s.memEpoch + 1, draws := s.draws, agenda := s.agenda, seen := s.seen }

end Sys2Proof.Machine
end

