-- ==== Sys2Proof/Machine/Bmk.lean ====
section
/-! DEFINITION. The bitmask decoder and `BMK.DEC` (42_codec_scn_bmk.md, R180 to R182). -/

namespace Sys2Proof.Machine

/-- Mask bit `i` (R181): most significant bit of a mask byte first. -/
def bmkMaskBit (src : Nat → Byte) (i : Nat) : Bool :=
  (src (i / 8)).getLsbD (7 - i % 8)

/-- The loop of `BMK.DEC` (R182) with `left` output bytes to go, at output position `i`, next literal `lp`, previous byte `prev`. -/
def bmkBits (src : Nat → Byte) (srcLen : Nat) : (left i lp : Nat) → (prev : Byte) → List Byte × BmkEnd
  | 0, _, lp, _ => ([], .ok lp)
  | left + 1, i, lp, prev =>
    if bmkMaskBit src i then
      if lp ≥ srcLen then ([], .exhausted lp i)
      else
        let rest := bmkBits src srcLen left (i + 1) (lp + 1) (src lp)
        (src lp :: rest.1, rest.2)
    else
      let rest := bmkBits src srcLen left (i + 1) lp prev
      (prev :: rest.1, rest.2)

/-- The bitmask decode of the default layout (R181, R182). -/
def bmkStandard (src : Nat → Byte) (srcLen n : Nat) : List Byte × BmkEnd :=
  let m := ceilDiv n 8
  if srcLen < m then ([], .truncated m) else bmkBits src srcLen n 0 m 0

/-- The bitmask decode under the configured layout (R181, U7). A replaced layout produces its `n` bytes and consumes at most the
source bytes there are (log 4). DESIGN CHOICE (log 4, safe): for `n = 0` too a replaced layout's outcome is its own; the corner case
of R182 (nothing read, results 0) is kept for the default layout, not forced on another. DESIGN CHOICE (log 21, safe):
so are the values of its faults; the needed count, the literal offset and the produced count may be any numbers. -/
def bmkDecode (g : BmkGrammar) (src : Nat → Byte) (srcLen n : Nat) : List Byte × BmkEnd :=
  match g with
  | .standard => bmkStandard src srcLen n
  | .replaced id =>
    let source := sliceOf src 0 srcLen
    match Config.bmkReplaced id source n with
    | .ok consumed => ((List.range n).map (Config.bmkReplacedByte id source n), .ok (min consumed srcLen))
    | e => ([], e)

/-- The rule of `BMK.DEC` (R182). -/
def bmkDecRule (s : State) : Verdict :=
  match bmkDecode s.cfg.bmk s.src s.srcLen s.dstLen with
  | (out, .ok consumed) => .done s.dstLen consumed 0 0 none out []
  | (_, .truncated needed) => .preFault .truncated 0 needed s.srcLen
  | (_, .exhausted lp i) => .midFault .lenMismatch lp s.dstLen i s.dstLen

/-- `BMK.DEC` (R182): SRC in, DST out. -/
def execBmkDec (s : State) : Outcome :=
  .next (complete ⟨[.src], [.dst]⟩ bmkDecRule s)

end Sys2Proof.Machine
end

