-- ==== Sys2Proof/Machine/Lzw.lean ====
section
/-! DEFINITION. The LZW decoder (default variant R146 to R149, or a replaced one) and `LZW.DEC` (41_codec_rle_lzw_cblk.md). -/

namespace Sys2Proof.Machine

/-- Bit `p` of the code stream (R146): least significant bit of a byte first. -/
def lzwBit (src : Nat → Byte) (p0 p : Nat) : Nat :=
  ((src (p0 + p / 8)).getLsbD (p % 8)).toNat

/-- The code of width `w` at bit position `q` (R146). -/
def lzwCodeAt (src : Nat → Byte) (p0 q w : Nat) : Nat :=
  ((List.range w).map fun j => lzwBit src p0 (q + j) * 2 ^ j).sum

/-- The string of a code (R146): a literal, or entry `code - 257` of the table. `table` holds the strings of codes 257 upward, so the
next free code is `257 + table.length`. -/
def lzwString (table : List (List Byte)) (code : Nat) : List Byte :=
  if code < 256 then [BitVec.ofNat 8 code] else table.getD (code - 257) []

/-- What a code other than the clear code means (R148): its string, and the table and the code width after it; or the value that it
exceeds. The first code after a clear is a literal; every later one may be the code that is just being defined (`code = next`), and
adds an entry while the table has room. -/
def lzwMeaning (width : Nat) (table : List (List Byte)) (prev : Option Nat) (code : Nat) :
    Except Nat (List Byte × List (List Byte) × Nat) :=
  match prev with
  | none => if code > 255 then .error 255 else .ok (lzwString table code, table, width)
  | some p =>
    let next := 257 + table.length
    let before := lzwString table p
    if code < next ∨ (code = next ∧ next < 4096) then
      let entry := if code < next then lzwString table code else before ++ before.take 1
      .ok (entry, if next < 4096 then table ++ [before ++ entry.take 1] else table,
        if next < 4096 ∧ next + 1 = 2 ^ width ∧ width < 12 then width + 1 else width)
    else .error next

/-- The loop of `lzw_decode` (R148) with `room` of the `n` output bytes still to be produced: the bytes it emits and how it ends.
Each round uses up at least nine source bits, so `plen + 1` rounds are enough (log 20). -/
def lzwCodes (src : Nat → Byte) (p0 plen n : Nat) :
    (fuel width : Nat) → (table : List (List Byte)) → (prev : Option Nat) → (bitpos room : Nat) → List Byte × LzwEnd
  | 0, _, _, _, _, room => ([], .exhausted (n - room))
  | fuel + 1, width, table, prev, bitpos, room =>
    if room = 0 then ([], .ok (ceilDiv bitpos 8))
    else if 8 * plen < bitpos + width then ([], .exhausted (n - room))
    else
      let code := lzwCodeAt src p0 bitpos width
      if code = 256 then lzwCodes src p0 plen n fuel 9 [] none (bitpos + width) room
      else
        match lzwMeaning width table prev code with
        | .error limit => ([], .badCode (bitpos / 8) limit code)
        | .ok (entry, table', width') =>
          let rest := lzwCodes src p0 plen n fuel width' table' (some code) (bitpos + width) (room - min entry.length room)
          (entry.take room ++ rest.1, rest.2)

/-- `lzw_decode(p0, plen, n)` of the default variant (R148). -/
def lzwStandard (src : Nat → Byte) (p0 plen n : Nat) : List Byte × LzwEnd :=
  lzwCodes src p0 plen n (plen + 1) 9 [] none 0 n

/-- `lzw_decode(p0, plen, n)` under the configured variant (R146, U5). A replaced variant produces its `n` bytes and consumes at most
the encoded bytes there are (log 4). DESIGN CHOICE (log 4, safe): for `n = 0` too a replaced variant's outcome is its own; the corner
cases of R147 (results 0) and R150 (a type 2 block of length 0 succeeds) are kept for the default variant, not forced on another.
DESIGN CHOICE (log 21, safe): so are the values of its faults; the produced count may reach `n` and the offset may lie past `SRC`. -/
def lzwDecode (v : LzwVariant) (src : Nat → Byte) (p0 plen n : Nat) : List Byte × LzwEnd :=
  match v with
  | .standard => lzwStandard src p0 plen n
  | .replaced id =>
    let encoded := sliceOf src p0 plen
    match Config.lzwReplaced id encoded n with
    | .ok consumed => ((List.range n).map (Config.lzwReplacedByte id encoded n), .ok (min consumed plen))
    | e => ([], e)

/-- How a command that decodes LZW from `SRC[p0 .. p0+plen)` to `n` bytes ends: the faults of R148, or a success with result `t` in
`RES2` and `p0` counted as consumed (R147, R150). -/
def lzwVerdict (v : LzwVariant) (src : Nat → Byte) (p0 plen n t : Nat) : Verdict :=
  match lzwDecode v src p0 plen n with
  | (out, .ok consumed) => .done n (p0 + consumed) t 0 none out []
  | (_, .exhausted produced) => .midFault .lenMismatch (p0 + plen) n produced n
  | (_, .badCode off limit code) => .midFault .lzwCode (p0 + off) limit code n

/-- The rule of `LZW.DEC` (R147). -/
def lzwDecRule (s : State) : Verdict :=
  lzwVerdict s.cfg.lzw s.src 0 s.srcLen s.dstLen 0

/-- `LZW.DEC` (R147): SRC in, DST out. -/
def execLzwDec (s : State) : Outcome :=
  .next (complete ⟨[.src], [.dst]⟩ lzwDecRule s)

end Sys2Proof.Machine
end

