-- ==== Sys2Proof/Machine/Rle.lean ====
section
/-! DEFINITION. The run-length decoder and `RLE.DEC` (41_codec_rle_lzw_cblk.md). -/

namespace Sys2Proof.Machine

/-- The loop of `rle_decode` (R141) from source offset `s` with room for `room` more output bytes: the bytes it emits and the final
source offset. Each round uses up a source byte, so `plen` rounds are enough (log 20). -/
def rleGroups (src : Nat → Byte) (p0 plen : Nat) : (fuel s room : Nat) → List Byte × Nat
  | 0, s, _ => ([], s)
  | fuel + 1, s, room =>
    if room = 0 ∨ plen ≤ s then ([], s)
    else
      let c := src (p0 + s)
      let r := (c.extractLsb' 0 7).toNat
      if c.getLsbD 7 then
        if s + 1 = plen then ([], s + 1)
        else
          let k := min r room
          let rest := rleGroups src p0 plen fuel (s + 2) (room - k)
          (List.replicate k (src (p0 + s + 1)) ++ rest.1, rest.2)
      else
        let k := min r (min (plen - (s + 1)) room)
        let rest := rleGroups src p0 plen fuel (s + 1 + k) (room - k)
        (sliceOf src (p0 + s + 1) k ++ rest.1, rest.2)

/-- `rle_decode(p0, plen, n)` (R141): the bytes written to `DST[0 .. d)`, whose number is `d`, and the source bytes consumed. -/
def rleDecode (src : Nat → Byte) (p0 plen n : Nat) : List Byte × Nat :=
  rleGroups src p0 plen plen 0 n

/-- The rule of `RLE.DEC` (R142). -/
def rleDecRule (s : State) : Verdict :=
  let (out, consumed) := rleDecode s.src 0 s.srcLen s.dstLen
  .done out.length consumed 0 0 (some (shortFlag out.length s.dstLen)) out []

/-- `RLE.DEC` (R142): SRC in, DST out. -/
def execRleDec (s : State) : Outcome :=
  .next (complete ⟨[.src], [.dst]⟩ rleDecRule s)

end Sys2Proof.Machine
end

