-- ==== Sys2Proof/Machine/Cblk.lean ====
section
/-! DEFINITION. `CBLK.DEC`, the compressed block (41_codec_rle_lzw_cblk.md, R64, R150 to R155). -/

namespace Sys2Proof.Machine

/-- Type 0, raw (R150, R151): `L` of the `P` encoded bytes are copied. -/
def cblkRaw (s : State) (l p : Nat) : Verdict :=
  if p < l then .preFault .lenMismatch s.srcLen l p
  else .done l (5 + l) 0 0 none (sliceOf s.src 5 l) []

/-- Type 1, RLE with the strict length (R150, R153). -/
def cblkRle (s : State) (l p : Nat) : Verdict :=
  let (out, consumed) := rleDecode s.src 5 p l
  if out.length ≠ l then .midFault .lenMismatch (5 + consumed) l out.length l
  else .done l (5 + consumed) 1 0 none out []

/-- Type 2, LZW (R150). -/
def cblkLzw (s : State) (l p : Nat) : Verdict :=
  lzwVerdict s.cfg.lzw s.src 5 p l 2

/-- The rule of `CBLK.DEC` (R150, R152). -/
def cblkDecRule (s : State) : Verdict :=
  if s.srcLen < 5 then .preFault .truncated 0 5 s.srcLen
  else
    let t := (s.src 0).toNat
    let l := le32At s.src 1
    if t = 3 then .preFault .compLzss 0 3 3
    else if t ≥ 4 then .preFault .compUnknown 0 3 t
    else if l > s.dstLen then .preFault .lenRange 1 s.dstLen l
    else
      let p := s.srcLen - 5
      if t = 0 then cblkRaw s l p
      else if t = 1 then cblkRle s l p
      else cblkLzw s l p

/-- `CBLK.DEC` (R150): SRC in, DST out. -/
def execCblkDec (s : State) : Outcome :=
  .next (complete ⟨[.src], [.dst]⟩ cblkDecRule s)

end Sys2Proof.Machine
end

