-- ==== Sys2Proof/Machine/Chunk.lean ====
section
/-! DEFINITION. The chunk container and table commands (40_chunk.md): `CHK.FIND`, `CHK.LEN`, `CHK.WRAP`, `INF.GET`. -/

namespace Sys2Proof.Machine

/-- `check_idw` (R120): the separator is `0x3A` and the three identifier bytes are below `0x80`. -/
def idwOk (idw : Word) : Bool :=
  idw.extractLsb' 24 8 == 0x3A && !idw.getLsbD 7 && !idw.getLsbD 15 && !idw.getLsbD 23

/-- The payload length of a length field (R62, R121): bit 31 masked off. -/
def chunkLen (raw : Nat) : Nat := raw % 2 ^ 31

/-- The flag bit of a length field (R62). -/
def chunkFlag (raw : Nat) : Nat := raw / 2 ^ 31

/-- `read_length(o)` (R121), then `k` with the payload length and the flag. -/
def withLength (s : State) (o : Nat) (k : Nat → Nat → Verdict) : Verdict :=
  let raw := le32At s.src (o + 4)
  let l := chunkLen raw
  if o + 8 + l > s.srcLen then .preFault .chunkCorrupt o (o + 8 + l : Nat) s.srcLen
  else k l (chunkFlag raw)

/-- The scan of `CHK.FIND` (R122) from offset `o`. A round moves on by at least 8 bytes, so `SRC_LEN / 8 + 1` rounds are enough (log 20). -/
def chkScan (s : State) : (fuel o : Nat) → Verdict
  | 0, o => .done 0 o 0 0 none [] []
  | fuel + 1, o =>
    if o + 8 > s.srcLen then .done 0 o 0 0 none [] []
    else withLength s o fun l flag =>
      if le32At s.src o = s.arg then .done 1 o l flag none [] []
      else chkScan s fuel (o + 8 + l)

/-- The rule of `CHK.FIND` (R122). -/
def chkFindRule (s : State) : Verdict :=
  if !idwOk s.opr[9] then .preFault .param 9 0 s.arg
  else chkScan s (s.srcLen / 8 + 1) 0

/-- `CHK.FIND` (R122): SRC in. -/
def execChkFind (s : State) : Outcome :=
  .next (complete ⟨[.src], []⟩ chkFindRule s)

/-- The rule of `CHK.LEN` (R124). -/
def chkLenRule (s : State) : Verdict :=
  let o := s.arg
  if o + 8 > s.srcLen then .preFault .truncated o 8 (s.srcLen - min o s.srcLen : Nat)
  else if (s.src o).toNat ≥ 0x80 ∨ (s.src (o + 1)).toNat ≥ 0x80 ∨ (s.src (o + 2)).toNat ≥ 0x80 ∨ s.src (o + 3) ≠ 0x3A then
    .preFault .chunkId o 0 (le32At s.src o)
  else withLength s o fun l flag => .done 1 o l flag none [] []

/-- `CHK.LEN` (R124): SRC in. -/
def execChkLen (s : State) : Outcome :=
  .next (complete ⟨[.src], []⟩ chkLenRule s)

/-- The bytes of a chunk (R62, R126): identifier and separator, the length with its top bit 0, the payload. -/
def chunkBytes (idw : Word) (payload : List Byte) : List Byte :=
  [idw.extractLsb' 0 8, idw.extractLsb' 8 8, idw.extractLsb' 16 8, 0x3A] ++ le32Bytes payload.length ++ payload

/-- The rule of `CHK.WRAP` (R126). -/
def chkWrapRule (s : State) : Verdict :=
  if !idwOk s.opr[9] then .preFault .param 9 0 s.arg
  else
    let n := s.srcLen
    if n > 0x7FFFFFFF then .preFault .lenRange 3 0x7FFFFFFF n
    else if 8 + n > s.dstLen then .preFault .lenRange 1 s.dstLen (8 + n : Nat)
    else .done (8 + n) 0 0 0 none (chunkBytes s.opr[9] (sliceOf s.src 0 n)) []

/-- `CHK.WRAP` (R126): SRC in, DST out. -/
def execChkWrap (s : State) : Outcome :=
  .next (complete ⟨[.src], [.dst]⟩ chkWrapRule s)

/-- The rule of `INF.GET` (R65, R130). -/
def infGetRule (s : State) : Verdict :=
  if s.srcLen < 2 then .preFault .truncated 0 2 s.srcLen
  else
    let n := le16At s.src 0
    let k := s.arg
    if s.srcLen < 2 + 4 * n then .preFault .truncated 2 (4 * n : Nat) (s.srcLen - 2 : Nat)
    else if k ≥ n then .preFault .param 9 0 k
    else .done n (le16At s.src (2 + 2 * k)) (le16At s.src (2 + 2 * n + 2 * k)) 0 none [] []

/-- `INF.GET` (R130): SRC in. -/
def execInfGet (s : State) : Outcome :=
  .next (complete ⟨[.src], []⟩ infGetRule s)

end Sys2Proof.Machine
end

