-- ==== Sys2Proof/Syntax.lean ====
section
/-! DEFINITION. The commands of EFC4: one constructor per row of spec/opcode_table.json (R92). -/

namespace Sys2Proof

/-- A command (R92). Only the two format-P commands carry fields: `bpp`, the four bits 11:8 of the word, and `be`, bit 12
(R90, R91). Every other operand is a fixed operand register (R91). -/
inductive Instr where
  /-- `NOP` (R231). -/
  | nop
  /-- `ACK` (R232). -/
  | ack
  /-- `RLE.DEC` (R142). -/
  | rleDec
  /-- `LZW.DEC` (R147). -/
  | lzwDec
  /-- `SCN.DEC` (R172). -/
  | scnDec
  /-- `BMK.DEC` (R182). -/
  | bmkDec
  /-- `CBLK.DEC` (R150). -/
  | cblkDec
  /-- `CHK.FIND` (R122). -/
  | chkFind
  /-- `CHK.LEN` (R124). -/
  | chkLen
  /-- `CHK.WRAP` (R126). -/
  | chkWrap
  /-- `INF.GET` (R130). -/
  | infGet
  /-- `PIX.UNPACK` (R192). -/
  | pixUnpack (bpp : BitVec 4) (be : Bool)
  /-- `PIX.PACK` (R195). -/
  | pixPack (bpp : BitVec 4) (be : Bool)
  /-- `PIX.MERGE` (R199). -/
  | pixMerge
  /-- `PIX.SPLIT` (R201). -/
  | pixSplit
  /-- `TILE.DEDUP` (R212). -/
  | tileDedup
  /-- `TILE.EXPAND` (R218). -/
  | tileExpand
  deriving DecidableEq, Repr

end Sys2Proof
end

