-- ==== Sys2Proof/WellFormed.lean ====
section
/-! DEFINITION. The static check on a command: a format-P command's `BPP` is 1, 2, 4 or 8 (R94). -/

namespace Sys2Proof

/-- The legal values of the `BPP` field of a format-P word (R94; 90_conflicts.md C2 admits 2). -/
def legalBpp (bpp : BitVec 4) : Bool :=
  bpp == 1 || bpp == 2 || bpp == 4 || bpp == 8

/-- A command is well formed when its fields are values its encoding admits (R92, R94). -/
def Instr.wf : Instr → Bool
  | .nop => true
  | .ack => true
  | .rleDec => true
  | .lzwDec => true
  | .scnDec => true
  | .bmkDec => true
  | .cblkDec => true
  | .chkFind => true
  | .chkLen => true
  | .chkWrap => true
  | .infGet => true
  | .pixUnpack bpp _ => legalBpp bpp
  | .pixPack bpp _ => legalBpp bpp
  | .pixMerge => true
  | .pixSplit => true
  | .tileDedup => true
  | .tileExpand => true

end Sys2Proof
end

