-- ==== Sys2Proof/Decode.lean ====
section
/-! DEFINITION. Decoding and encoding the 32-bit command word (R90 to R98). -/

namespace Sys2Proof

/-- Why a word is not a command (R96, R97). -/
inductive Reject where
  /-- `OP` is not allocated (R92, R96). -/
  | unallocatedOp
  /-- One of bits 31:13 is set (R90, R96). -/
  | reservedBits
  /-- A format-C word with `BPP` or `BE` bits set (R96). -/
  | strayField
  /-- A format-P word whose `BPP` is not 1, 2, 4 or 8 (R94, R96). -/
  | illegalBpp
  deriving DecidableEq, Repr

/-- `OP`, bits 7:0 of the word (R90). -/
def opField (w : Word) : BitVec 8 := w.extractLsb' 0 8

/-- `BPP`, bits 11:8 (R90). -/
def bppField (w : Word) : BitVec 4 := w.extractLsb' 8 4

/-- `BE`, bit 12 (R90). -/
def beField (w : Word) : Bool := w.getLsbD 12

/-- Bits 31:13, zero in every legal word (R90). -/
def zeroField (w : Word) : BitVec 19 := w.extractLsb' 13 19

/-- The format-C command of an `OP` value (R92). -/
def formatC (op : BitVec 8) : Option Instr :=
  if op = 0x00 then some .nop
  else if op = 0x01 then some .ack
  else if op = 0x10 then some .rleDec
  else if op = 0x11 then some .lzwDec
  else if op = 0x12 then some .scnDec
  else if op = 0x13 then some .bmkDec
  else if op = 0x14 then some .cblkDec
  else if op = 0x20 then some .chkFind
  else if op = 0x21 then some .chkLen
  else if op = 0x22 then some .chkWrap
  else if op = 0x23 then some .infGet
  else if op = 0x32 then some .pixMerge
  else if op = 0x33 then some .pixSplit
  else if op = 0x40 then some .tileDedup
  else if op = 0x41 then some .tileExpand
  else none

/-- The command of a word, or the reason it is none (R92, R96, R97). Total on every 32-bit word. -/
def decode (w : Word) : Except Reject Instr :=
  if zeroField w ≠ 0 then .error .reservedBits
  else if opField w = 0x30 then
    if legalBpp (bppField w) then .ok (.pixUnpack (bppField w) (beField w)) else .error .illegalBpp
  else if opField w = 0x31 then
    if legalBpp (bppField w) then .ok (.pixPack (bppField w) (beField w)) else .error .illegalBpp
  else
    match formatC (opField w) with
    | none => .error .unallocatedOp
    | some i => if bppField w = 0 ∧ beField w = false then .ok i else .error .strayField

/-- A format-P word: `OP`, `BPP` in bits 11:8, `BE` in bit 12, zeros above (R90). -/
def formatP (op : BitVec 8) (bpp : BitVec 4) (be : Bool) : Word :=
  0#19 ++ BitVec.ofBool be ++ bpp ++ op

/-- The command word of a command (R92). -/
def encode : Instr → Word
  | .nop => 0x00000000
  | .ack => 0x00000001
  | .rleDec => 0x00000010
  | .lzwDec => 0x00000011
  | .scnDec => 0x00000012
  | .bmkDec => 0x00000013
  | .cblkDec => 0x00000014
  | .chkFind => 0x00000020
  | .chkLen => 0x00000021
  | .chkWrap => 0x00000022
  | .infGet => 0x00000023
  | .pixUnpack bpp be => formatP 0x30 bpp be
  | .pixPack bpp be => formatP 0x31 bpp be
  | .pixMerge => 0x00000032
  | .pixSplit => 0x00000033
  | .tileDedup => 0x00000040
  | .tileExpand => 0x00000041

/-- The instruction read from a table row's bits: the word with every bit at or above `nbits` zero. A command is one register
word and has no byte order (R36, R90). -/
def decodeTableWord (nbits w : Nat) : Option Instr :=
  match decode (BitVec.ofNat 32 (w % 2 ^ nbits)) with
  | .ok i => some i
  | .error _ => none

end Sys2Proof
end

