-- ==== Sys2Proof/Machine/Pix.lean ====
section
/-! DEFINITION. The bit-width repacker (43_bitpacker.md): `PIX.UNPACK`, `PIX.PACK`, `PIX.MERGE`, `PIX.SPLIT`. -/

namespace Sys2Proof.Machine

/-- `ms(w, bpp)`, the minimal stride (R190). -/
def minStride (w bpp : Nat) : Nat := ceilDiv (w * bpp) 8

/-- `shift(x, bpp, be)` (R190): where pixel column `x` has its least significant bit inside its byte. -/
def pixShift (x bpp : Nat) (be : Bool) : Nat :=
  if be then 8 - bpp - x * bpp % 8 else x * bpp % 8

/-- `mask(bpp)` (R190). -/
def pixMask (bpp : Nat) : Nat := 2 ^ bpp - 1

/-- Pixel column `x` of the packed row that starts at offset `row` (R68, R192). -/
def packedPixel (src : Nat → Byte) (row x bpp : Nat) (be : Bool) : Byte :=
  (src (row + x * bpp / 8) >>> pixShift x bpp be) &&& BitVec.ofNat 8 (pixMask bpp)

/-- The flat image that `PIX.UNPACK` writes (R61, R192): `h` rows of `w` pixels. -/
def unpackedImage (src : Nat → Byte) (w h st bpp : Nat) (be : Bool) : List Byte :=
  (List.range h).flatMap fun y => (List.range w).map fun x => packedPixel src (y * st) x bpp be

/-- The source bytes that `h` rows of pitch `st` and last-row length `m` span (R192, R212). -/
def rowsNeed (w h st m : Nat) : Nat :=
  if w > 0 ∧ h > 0 then (h - 1) * st + m else 0

/-- The rule of `PIX.UNPACK` (R192). -/
def pixUnpackRule (bpp : Nat) (be : Bool) (s : State) : Verdict :=
  let w := s.width
  let h := s.height
  let st := s.stride
  let m := minStride w bpp
  let need := rowsNeed w h st m
  if st < m then .preFault .param 8 0 st
  else if s.srcLen < need then .preFault .truncated 0 need s.srcLen
  else if w * h > s.dstLen then .preFault .lenRange 1 s.dstLen (w * h : Nat)
  else .done (w * h) need m 0 none (unpackedImage s.src w h st bpp be) []

/-- `PIX.UNPACK` (R192): SRC in, DST out. A `BPP` other than 1, 2, 4, 8 is an illegal word (R94, R97; log 11). -/
def execPixUnpack (bpp : BitVec 4) (be : Bool) (s : State) : Outcome :=
  .next (if legalBpp bpp then complete ⟨[.src], [.dst]⟩ (pixUnpackRule bpp.toNat be) s
    else badCommand (encode (.pixUnpack bpp be)) s)

/-- OR a pixel into its byte of a row (R195, the inner loop). -/
def orInto (row : List Byte) (i : Nat) (v : Byte) : List Byte :=
  row.modify i (· ||| v)

/-- One packed row of `m` bytes from the `w` pixels that start at offset `at` (R195). -/
def packedRow (src : Nat → Byte) (pos w m bpp : Nat) (be : Bool) : List Byte :=
  (List.range w).foldl (fun row x => orInto row (x * bpp / 8) (src (pos + x) <<< pixShift x bpp be)) (List.replicate m 0)

/-- The packed rows that `PIX.PACK` writes (R195). -/
def packedImage (src : Nat → Byte) (w h m bpp : Nat) (be : Bool) : List Byte :=
  (List.range h).flatMap fun y => packedRow src (y * w) w m bpp be

/-- The first of `n` bytes that exceeds a limit (the range pre-scan of R195). -/
def firstAbove (r : Nat → Byte) (limit n : Nat) : Option Nat :=
  (List.range n).find? fun i => decide ((r i).toNat > limit)

/-- The rule of `PIX.PACK` (R195, R196, R198). `STRIDE` is not read. -/
def pixPackRule (bpp : Nat) (be : Bool) (s : State) : Verdict :=
  let w := s.width
  let h := s.height
  let m := minStride w bpp
  if s.srcLen < w * h then .preFault .truncated 0 (w * h : Nat) s.srcLen
  else if m * h > s.dstLen then .preFault .lenRange 1 s.dstLen (m * h : Nat)
  else
    match firstAbove s.src (pixMask bpp) (w * h) with
    | some i => .preFault .pixRange i (pixMask bpp) (s.src i).toNat
    | none => .done (m * h) (w * h) m 0 none (packedImage s.src w h m bpp be) []

/-- `PIX.PACK` (R195): SRC in, DST out. A `BPP` other than 1, 2, 4, 8 is an illegal word (R94, R97; log 11). -/
def execPixPack (bpp : BitVec 4) (be : Bool) (s : State) : Outcome :=
  .next (if legalBpp bpp then complete ⟨[.src], [.dst]⟩ (pixPackRule bpp.toNat be) s
    else badCommand (encode (.pixPack bpp be)) s)

/-- The first position where a nibble plane byte exceeds 15, with that byte: the low plane is tested before the high plane at the
same position (R199). -/
def nibbleFault (low high : Nat → Byte) (n : Nat) : Option (Nat × Byte) :=
  (List.range n).findSome? fun i =>
    if (low i).toNat > 0x0F then some (i, low i)
    else if (high i).toNat > 0x0F then some (i, high i)
    else none

/-- `high << 4 | low` (R69, R199). -/
def mergeNibbles (low high : Byte) : Byte := (high <<< 4) ||| low

/-- The rule of `PIX.MERGE` (R199): SRC is the low plane, AUX the high plane. -/
def pixMergeRule (s : State) : Verdict :=
  let n := s.srcLen
  if s.auxLen ≠ n then .preFault .lenMismatch 0 n s.auxLen
  else if n > s.dstLen then .preFault .lenRange 1 s.dstLen n
  else
    match nibbleFault s.src s.aux n with
    | some (i, b) => .preFault .pixRange i 0x0F b.toNat
    | none => .done n 0 0 0 none ((List.range n).map fun i => mergeNibbles (s.src i) (s.aux i)) []

/-- `PIX.MERGE` (R199): SRC and AUX in, DST out. -/
def execPixMerge (s : State) : Outcome :=
  .next (complete ⟨[.src, .aux], [.dst]⟩ pixMergeRule s)

/-- The low nibble of a pixel (R69, R201). -/
def lowNibble (p : Byte) : Byte := p &&& 0x0F

/-- The high nibble of a pixel (R69, R201). -/
def highNibble (p : Byte) : Byte := p >>> 4

/-- The rule of `PIX.SPLIT` (R201): DST is the low plane, AUX the high plane. -/
def pixSplitRule (s : State) : Verdict :=
  let n := s.srcLen
  if n > s.dstLen then .preFault .lenRange 1 s.dstLen n
  else if n > s.auxLen then .preFault .lenRange 2 s.auxLen n
  else .done n 0 0 0 none ((List.range n).map fun i => lowNibble (s.src i)) ((List.range n).map fun i => highNibble (s.src i))

/-- `PIX.SPLIT` (R201): SRC in, DST and AUX out. -/
def execPixSplit (s : State) : Outcome :=
  .next (complete ⟨[.src], [.dst, .aux]⟩ pixSplitRule s)

end Sys2Proof.Machine
end

