-- ==== Sys2Proof/Machine/Scn.lean ====
section
/-! DEFINITION. The SCN frame decoder and `SCN.DEC` (42_codec_scn_bmk.md, R170 to R176). -/

namespace Sys2Proof.Machine

/-- Write `n` copies of a byte into an image from position `at` (the run of R174). -/
def paintRun (img : List Byte) (pos n : Nat) (c : Byte) : List Byte :=
  img.take pos ++ List.replicate n c ++ img.drop (pos + n)

/-- The loop of `scn_decode` (R174) over the records that are left, at offset `p` of the frame, column `x`, row `y`. -/
def scnRecords (w h : Nat) : (records : List Byte) → (p x y : Nat) → (deep : Bool) → (img : List Byte) → List Byte × ScnEnd
  | [], p, _, y, deep, img =>
    if y + 1 < h then (img, .bad p 5 y) else (img, .ok deep (decide (y = h)))
  | [b], p, _, _, _, img => (img, .bad p 1 b.toNat)
  | c :: n :: rest, p, x, y, deep, img =>
    if n = 0 then
      if c ≠ 0 then (img, .bad p 2 c.toNat)
      else if y ≥ h then (img, .bad p 3 y)
      else scnRecords w h rest (p + 2) 0 (y + 1) deep img
    else if y ≥ h then (img, .bad p 3 y)
    else if x + n.toNat > w then (img, .bad p 4 (x + n.toNat))
    else
      scnRecords w h rest (p + 2) (x + n.toNat) y (deep || decide (c.toNat > 0x0F))
        (if c ≠ 0 then paintRun img (y * w + x) n.toNat c else img)

/-- `scn_decode` of the default grammar (R174): the background is 0. -/
def scnStandard (frame : List Byte) (w h : Nat) : List Byte × ScnEnd :=
  scnRecords w h frame 0 0 0 false (List.replicate (w * h) 0)

/-- `scn_decode` under the configured grammar (R174, U6). A replaced grammar produces `w * h` bytes (log 4). DESIGN
CHOICE (log 21, safe): the `E_SCN_STREAM` values of a replaced grammar are its own; the subcodes 1 to 5 of R245 and an offset inside
the frame are kept for the default grammar, not forced on another. -/
def scnDecode (g : ScnGrammar) (frame : List Byte) (w h : Nat) : List Byte × ScnEnd :=
  match g with
  | .standard => scnStandard frame w h
  | .replaced id => ((List.range (w * h)).map (Config.scnReplacedByte id frame w h), Config.scnReplaced id frame w h)

/-- The end of frame `k` of `nf` (R171). -/
def scnFrameEnd (s : State) (k nf : Nat) : Int :=
  if k + 1 < nf then sle32At s.aux (4 * k + 4) else s.srcLen

/-- The rule of `SCN.DEC` from its frame's byte range on (R172, last three lines). -/
def scnFrame (s : State) (w h start stop : Nat) : Verdict :=
  match scnDecode s.cfg.scn (sliceOf s.src start (stop - start)) w h with
  | (img, .ok deep wrap) => .done (w * h) (stop - start) (if deep then 8 else 4) (if wrap then 1 else 0) none img []
  | (_, .bad off sub detail) => .midFault .scnStream (start + off) sub detail (w * h)

/-- The rule of `SCN.DEC` (R171, R172, R173). -/
def scnDecRule (s : State) : Verdict :=
  let w := s.width
  let h := s.height
  let k := s.arg
  if w = 0 then .preFault .param 6 0 0
  else if h = 0 then .preFault .param 7 0 0
  else if s.auxLen % 4 ≠ 0 then .preFault .truncated (s.auxLen - s.auxLen % 4 : Nat) 4 (s.auxLen % 4 : Nat)
  else
    let nf := s.auxLen / 4
    if k ≥ nf then .preFault .param 9 0 k
    else if w * h > s.dstLen then .preFault .lenRange 1 s.dstLen (w * h : Nat)
    else
      let start := sle32At s.aux (4 * k)
      let stop := scnFrameEnd s k nf
      if start < 0 ∨ stop < start ∨ stop > s.srcLen then .preFault .offset k start stop
      else if start = stop then .preFault .blankFrame k start 0
      else scnFrame s w h start.toNat stop.toNat

/-- `SCN.DEC` (R172): SRC and AUX in, DST out. -/
def execScnDec (s : State) : Outcome :=
  .next (complete ⟨[.src, .aux], [.dst]⟩ scnDecRule s)

end Sys2Proof.Machine
end

