-- ==== Sys2Proof/Machine/System.lean ====
section
/-! DEFINITION. The system commands `NOP` and `ACK` (45_system.md). -/

namespace Sys2Proof.Machine

/-- `NOP` (R231): no operand, no region, no result; `STATE` becomes `DONE`. -/
def execNop (s : State) : Outcome :=
  .next (finish 0 0 0 0 none [] [] s)

/-- `ACK` (R230, R232): recognised at the `CMD` write, not by the engine. While `BUSY` it is discarded and sets `OVR`. -/
def execAck (s : State) : Outcome :=
  .next (if s.phase = .busy then s.overrun else acknowledge s)

end Sys2Proof.Machine
end

