-- ==== Sys2Proof/Machine/Tile.lean ====
section
/-! DEFINITION. The tile atlas commands (44_tileatlas.md): `TILE.DEDUP`, `TILE.EXPAND`. -/

namespace Sys2Proof.Machine

/-- The bytes of the tile at image cell (`col`, `row`), row-major inside the tile (R70, R210, R214). -/
def tileAt (img : Nat → Byte) (bw bh pitch col row : Nat) : List Byte :=
  (List.range bh).flatMap fun r => sliceOf img ((row * bh + r) * pitch + col * bw) bw

/-- One step of `dedup_analyse` (R214): a tile seen before gets its index, a new one the next index. Equality is of all bytes (R215). -/
def dedupTile (acc : List (List Byte) × List Nat) (t : List Byte) : List (List Byte) × List Nat :=
  if t ∈ acc.1 then (acc.1, acc.2 ++ [acc.1.idxOf t])
  else (acc.1 ++ [t], acc.2 ++ [acc.1.length])

/-- `dedup_analyse` (R214): the unique tiles and the index of every cell, in the column-major list order of R211. -/
def dedupAnalyse (img : Nat → Byte) (mw mh bw bh pitch : Nat) : List (List Byte) × List Nat :=
  (List.range (mw * mh)).foldl (fun acc i => dedupTile acc (tileAt img bw bh pitch (i / mh) (i % mh))) ([], [])

/-- The MTX payload of a matrix (R66, R212). -/
def mtxBytes (mw mh : Nat) (idx : List Nat) : List Byte :=
  le16Bytes mw ++ le16Bytes mh ++ idx.flatMap le16Bytes

/-- The rule of `TILE.DEDUP` from the analysis on (R212, R216). -/
def tileStore (s : State) (mw mh bw bh : Nat) (uniq : List (List Byte)) (idx : List Nat) : Verdict :=
  let u := uniq.length
  if u = 0 ∨ u > 32767 then .preFault .tileCount 0 32767 u
  else if 4 + 2 * mw * mh > s.auxLen then .preFault .lenRange 2 s.auxLen (4 + 2 * mw * mh : Nat)
  else if u * bw * bh > s.dstLen then .preFault .lenRange 1 s.dstLen (u * bw * bh : Nat)
  else .done u (u * bw * bh) (4 + 2 * mw * mh) (mw * mh) none uniq.flatten (mtxBytes mw mh idx)

/-- The rule of `TILE.DEDUP` (R212). -/
def tileDedupRule (s : State) : Verdict :=
  let w := s.width
  let h := s.height
  let pitch := s.stride
  let bw := s.blkw
  let bh := s.blkh
  if bw = 0 then .preFault .param 10 0 0
  else if bh = 0 then .preFault .param 11 0 0
  else if pitch < w then .preFault .param 8 0 pitch
  else if w % bw ≠ 0 then .preFault .param 6 0 w
  else if h % bh ≠ 0 then .preFault .param 7 0 h
  else
    let mw := w / bw
    let mh := h / bh
    let need := rowsNeed w h pitch w
    if mw > 65535 then .preFault .lenRange 3 65535 mw
    else if mh > 65535 then .preFault .lenRange 3 65535 mh
    else if s.srcLen < need then .preFault .truncated 0 need s.srcLen
    else
      let found := dedupAnalyse s.src mw mh bw bh pitch
      tileStore s mw mh bw bh found.1 found.2

/-- `TILE.DEDUP` (R212): SRC in, DST and AUX out. -/
def execTileDedup (s : State) : Outcome :=
  .next (complete ⟨[.src], [.dst, .aux]⟩ tileDedupRule s)

/-- Matrix index `i` of an MTX payload (R66). -/
def mtxIndex (mtx : Nat → Byte) (i : Nat) : Int := sle16At mtx (4 + 2 * i)

/-- The first of `cells` matrix indices that is no tile of `n` (the index pre-scan of R218). -/
def badTileIndex (mtx : Nat → Byte) (n cells : Nat) : Option Nat :=
  (List.range cells).find? fun i => decide (mtxIndex mtx i < 0 ∨ mtxIndex mtx i ≥ n)

/-- Pixel (`x`, `y`) of the composite (R210, R211, R218): pixel (`x mod bw`, `y mod bh`) of the tile of the cell at column
`x div bw`, row `y div bh`, whose list position is column-major. -/
def compositePixel (store mtx : Nat → Byte) (mh bw bh x y : Nat) : Byte :=
  let i := x / bw * mh + y / bh
  store ((mtxIndex mtx i).toNat * bw * bh + y % bh * bw + x % bw)

/-- The composite image that `TILE.EXPAND` writes (R61, R218), row-major with pitch `mw * bw`. -/
def composite (store mtx : Nat → Byte) (mw mh bw bh : Nat) : List Byte :=
  (List.range (mh * bh)).flatMap fun y => (List.range (mw * bw)).map fun x => compositePixel store mtx mh bw bh x y

/-- The rule of `TILE.EXPAND` once the matrix dimensions are read (R218, R219). -/
def tileCompose (s : State) (n bw bh mw mh : Nat) : Verdict :=
  let cells := mw * mh
  if s.auxLen < 4 + 2 * cells then .preFault .truncated 4 (2 * cells : Nat) (s.auxLen - 4 : Nat)
  else if cells < n then .preFault .mtxSmall 0 n cells
  else if s.srcLen ≠ n * bw * bh then .preFault .tileSize 0 (n * bw * bh : Nat) s.srcLen
  else if cells * bw * bh > s.dstLen then .preFault .lenRange 1 s.dstLen (cells * bw * bh : Nat)
  else
    match badTileIndex s.aux n cells with
    | some i => .preFault .tileIndex i n (mtxIndex s.aux i)
    | none => .done (mw * bw * (mh * bh)) (sat32 (mw * bw)) (sat32 (mh * bh)) cells none (composite s.src s.aux mw mh bw bh) []

/-- The rule of `TILE.EXPAND` (R218). -/
def tileExpandRule (s : State) : Verdict :=
  let bw := s.blkw
  let bh := s.blkh
  if bw = 0 then .preFault .param 10 0 0
  else if bh = 0 then .preFault .param 11 0 0
  else if s.auxLen < 4 then .preFault .truncated 0 4 s.auxLen
  else tileCompose s s.arg bw bh (le16At s.aux 0) (le16At s.aux 2)

/-- `TILE.EXPAND` (R218): SRC and AUX in, DST out. -/
def execTileExpand (s : State) : Outcome :=
  .next (complete ⟨[.src, .aux], [.dst]⟩ tileExpandRule s)

end Sys2Proof.Machine
end

