-- ==== Sys2Proof/Machine/Dispatch.lean ====
section
/-! DEFINITION. The meaning of every command: one arm per constructor. For every command but `ACK` the meaning is the engine's
complete step (R233), which `Sys2Proof.Machine.step` takes only while `STATE` is `BUSY`; `ACK` takes effect at the `CMD` write (R232). -/

namespace Sys2Proof.Machine

def exec (i : Instr) (s : State) : Host.Outcome State Fault Refusal :=
  match i with
  | .nop => Sys2Proof.Machine.execNop s
  | .ack => Sys2Proof.Machine.execAck s
  | .rleDec => Sys2Proof.Machine.execRleDec s
  | .lzwDec => Sys2Proof.Machine.execLzwDec s
  | .scnDec => Sys2Proof.Machine.execScnDec s
  | .bmkDec => Sys2Proof.Machine.execBmkDec s
  | .cblkDec => Sys2Proof.Machine.execCblkDec s
  | .chkFind => Sys2Proof.Machine.execChkFind s
  | .chkLen => Sys2Proof.Machine.execChkLen s
  | .chkWrap => Sys2Proof.Machine.execChkWrap s
  | .infGet => Sys2Proof.Machine.execInfGet s
  | .pixUnpack bpp be => Sys2Proof.Machine.execPixUnpack bpp be s
  | .pixPack bpp be => Sys2Proof.Machine.execPixPack bpp be s
  | .pixMerge => Sys2Proof.Machine.execPixMerge s
  | .pixSplit => Sys2Proof.Machine.execPixSplit s
  | .tileDedup => Sys2Proof.Machine.execTileDedup s
  | .tileExpand => Sys2Proof.Machine.execTileExpand s

end Sys2Proof.Machine
end

