-- ==== Sys2Proof/Machine/HostPort.lean ====
section
/-! DEFINITION. What the host can do (10_state.md R23, R27, R28, R33 to R36, R42; 45_system.md R230) and the reset input. -/

namespace Sys2Proof.Machine

/-- The `ID` register (R1, R35). -/
def idWord : Word := 0x45460407

/-- A host read of the register at an offset (R36, R42): allowed in every `STATE`, without a side effect. Unmapped offsets read 0. -/
def readReg (s : State) (offset : Nat) : Word :=
  if offset % 4 ≠ 0 then 0
  else if h : offset / 4 < 16 then s.x ⟨offset / 4, h⟩
  else if offset = 0x40 then s.cmd
  else if offset = 0x44 then s.statusWord
  else if offset = 0x48 then s.fcode
  else if offset = 0x4C then s.finfo0
  else if offset = 0x50 then s.finfo1
  else if offset = 0x54 then s.finfo2
  else if offset = 0x58 then idWord
  else if offset = 0x5C then BitVec.ofNat 32 s.cfg.memSize
  else 0

/-- The command word of `ACK` (R92, R232): the exact word, no other with `OP = 0x01` (R96). -/
def ackWord : Word := 0x00000001

/-- A host write of word `w` to `CMD` (R230). `ACK` takes effect here, through its own meaning (R232); any other word is accepted
unless `STATE` is `BUSY` or `FAULT`, where it is discarded and sets `OVR` (R31). -/
def writeCmd (w : Word) (s : State) : Outcome :=
  if w = ackWord then execAck s
  else if s.phase = .busy ∨ s.phase = .fault then .next s.overrun
  else .next (accept w s)

/-- A host write to operand register `x[i]` (R23): discarded while `BUSY`, with `OVR` set. -/
def writeOperand (i : Fin 12) (v : Word) (s : State) : State :=
  if s.phase = .busy then s.overrun else { s with opr := s.opr.set i v }

/-- A host write to the register at an offset (R36, R42). Every other register and every unmapped offset discards it, with no flag. -/
def writeReg (offset : Nat) (v : Word) (s : State) : Outcome :=
  if offset = 0x40 then writeCmd v s
  else if offset % 4 ≠ 0 then .next s
  else if h : offset / 4 < 12 then .next (writeOperand ⟨offset / 4, h⟩ v s)
  else .next s

/-- `RD` (R100): the host reads a register; nothing else changes. -/
def hostRead (offset : Nat) (s : State) : State :=
  { s with seen := .reg offset (readReg s offset) }

/-- A host access to `count` bytes of `MEM` at an address (R39, R42): refused while `BUSY` (R286, U1), and beyond the end of `MEM` no
such byte exists (R50, U2). -/
def hostMem (addr count : Nat) (s : State) (access : State → State) : Outcome :=
  if s.phase = .busy then .refused .hostMemWhileBusy
  else if addr + count > s.cfg.memSize then .refused .noSuchAddress
  else .next (access s)

/-- `POKE` (R100). -/
def hostPoke (addr : Nat) (bytes : List Byte) (s : State) : Outcome :=
  hostMem addr bytes.length s fun s => s.storeBytes addr bytes

/-- `PEEK` (R100). -/
def hostPeek (addr count : Nat) (s : State) : Outcome :=
  hostMem addr count s fun s => { s with seen := .mem addr (s.bytesAt addr count) }

end Sys2Proof.Machine
end

