-- ==== Sys2Proof/Machine/Agents.lean ====
section
/-! DEFINITION. Who moves and how (R20, R72, R233): the engine's complete step, the host's and the reset input's events, and the turn
that the agenda gives (log 5). -/

namespace Sys2Proof.Machine

/-- The engine's complete step (R233), for a machine that is `BUSY`: the accepted word is decoded (R97) and its command runs. An
illegal word faults `E_BAD_CMD`, and so does `OP = 0x01`, which R97 does not list (log 10). -/
def engineStep (s : State) : Outcome :=
  match decode s.cmd with
  | .error _ => .next (badCommand s.cmd s)
  | .ok i => if i = .ack then .next (badCommand s.cmd s) else exec i s

/-- The engine's turn: its step is enabled only while `STATE` is `BUSY` (R20, R233). Otherwise nothing happens. -/
def engineTurn (s : State) : Outcome :=
  if s.phase = .busy then engineStep s else .next s

/-- One event happens. `s` has the events after it on its agenda. A `WAIT` while `BUSY` lets the engine complete and stays on the
agenda; its read that returns another `STATE` ends it (R72, R100). -/
def happen (e : Event) (s : State) : Outcome :=
  match e with
  | .writeReg offset v => writeReg offset v s
  | .readReg offset => .next (hostRead offset s)
  | .wait => if s.phase = .busy then engineStep { s with agenda := .wait :: s.agenda } else .next (hostRead 0x44 s)
  | .poke addr bytes => hostPoke addr bytes s
  | .peek addr count => hostPeek addr count s
  | .engine => engineTurn s
  | .reset => .next (hardReset s)

/-- Whose turn it is: while the agenda lists events, the first of them happens; when it is empty the engine completes the accepted
command, if there is one (R233: the step is always eventually taken), and otherwise the machine rests. -/
def turn (s : State) : Outcome :=
  match s.agenda with
  | [] => engineTurn s
  | e :: rest => happen e { s with agenda := rest }

/-- `s` with a command word placed so that the next turn runs it. A command runs in the engine's complete step after its word was
accepted, so the word is accepted here (R230); `ACK` runs at the `CMD` write, so that write comes next (R232). Log 9. -/
def placeCommand (w : Word) (s : State) : State :=
  if w = ackWord then
    { s with agenda := [.writeReg 0x40 w], phase := if s.phase = .busy then .idle else s.phase }
  else { accept w s with agenda := [] }

end Sys2Proof.Machine
end

