-- ==== Sys2Proof/Machine/Step.lean ====
section
/-! DEFINITION. One step of the machine, and placing a command where the next step runs it. -/

namespace Sys2Proof.Machine

/-- One step of the machine: one event of the agenda, or the engine's complete step (R20, R72, R233). -/
def step (s : State) : Host.Outcome State Fault Refusal :=
  turn s

/-- `s` with the command of word `w` (of a table row of `nbits` bits) placed so that the very next step runs it (log 9). -/
def State.withFetchWord (s : State) (nbits w : Nat) : State :=
  placeCommand (BitVec.ofNat 32 (w % 2 ^ nbits)) s

end Sys2Proof.Machine
end

