-- ==== Sys2Proof/Safety.lean ====
section
/-! DEFINITION. The words claims are made in: which regions and operand registers a command may use (the tables of R57 and R22),
what it means that a command completed or faulted, which bytes changed, and the invariant of the machine. -/

namespace Sys2Proof.Machine

/-- The region roles of a command, as the table of R57 lists them. -/
def rolesOf : Instr → Roles
  | .nop => ⟨[], []⟩
  | .ack => ⟨[], []⟩
  | .rleDec => ⟨[.src], [.dst]⟩
  | .lzwDec => ⟨[.src], [.dst]⟩
  | .scnDec => ⟨[.src, .aux], [.dst]⟩
  | .bmkDec => ⟨[.src], [.dst]⟩
  | .cblkDec => ⟨[.src], [.dst]⟩
  | .chkFind => ⟨[.src], []⟩
  | .chkLen => ⟨[.src], []⟩
  | .chkWrap => ⟨[.src], [.dst]⟩
  | .infGet => ⟨[.src], []⟩
  | .pixUnpack _ _ => ⟨[.src], [.dst]⟩
  | .pixPack _ _ => ⟨[.src], [.dst]⟩
  | .pixMerge => ⟨[.src, .aux], [.dst]⟩
  | .pixSplit => ⟨[.src], [.dst, .aux]⟩
  | .tileDedup => ⟨[.src], [.dst, .aux]⟩
  | .tileExpand => ⟨[.src, .aux], [.dst]⟩

/-- The operand registers a command reads, as the table of R22 lists them. -/
def operandsOf : Instr → List (Fin 12)
  | .nop => []
  | .ack => []
  | .rleDec => [0, 1, 2, 3]
  | .lzwDec => [0, 1, 2, 3]
  | .scnDec => [0, 1, 2, 3, 4, 5, 6, 7, 9]
  | .bmkDec => [0, 1, 2, 3]
  | .cblkDec => [0, 1, 2, 3]
  | .chkFind => [0, 1, 9]
  | .chkLen => [0, 1, 9]
  | .chkWrap => [0, 1, 2, 3, 9]
  | .infGet => [0, 1, 9]
  | .pixUnpack _ _ => [0, 1, 2, 3, 6, 7, 8]
  | .pixPack _ _ => [0, 1, 2, 3, 6, 7]
  | .pixMerge => [0, 1, 2, 3, 4, 5]
  | .pixSplit => [0, 1, 2, 3, 4, 5]
  | .tileDedup => [0, 1, 2, 3, 4, 5, 6, 7, 8, 10, 11]
  | .tileExpand => [0, 1, 2, 3, 4, 5, 9, 10, 11]

/-- The faults that some command raises: every fault of R241 but the reserved `E_HASH_CHECK` (R215, U16). -/
def raisedCodes : List ErrCode :=
  [.chunkCorrupt, .truncated, .offset, .chunkId, .compLzss, .compUnknown, .blankFrame, .lenMismatch, .lzwCode, .scnStream,
    .tileIndex, .mtxSmall, .pixRange, .tileSize, .tileCount, .lenRange, .badCmd, .region, .param]

/-- The machine's invariant: the configuration is legal (R6); `MEM` is in canonical form and lists no address that does not exist
(R39, R50); while `BUSY` the results and `SHORT` are clear and the accepted word is not `ACK` (R24, R42, R230); outside `FAULT` the
fault record is empty (R33, R34); in `FAULT` it holds a code that some command raises, the results and `SHORT` are clear and
`FSTICKY` is set (R241, R262). -/
abbrev Inv (s : State) : Prop :=
  s.cfg.wf = true ∧
  Memory.wf s.mem ∧
  (∀ c ∈ s.mem, c.1 < s.cfg.memSize) ∧
  (s.phase = .busy → s.res = #v[0, 0, 0, 0] ∧ s.short = false ∧ s.cmd ≠ ackWord) ∧
  (s.phase ≠ .fault → s.fcode = 0 ∧ s.finfo0 = 0 ∧ s.finfo1 = 0 ∧ s.finfo2 = 0) ∧
  (s.phase = .fault →
    s.fcode ∈ raisedCodes.map ErrCode.word ∧ s.res = #v[0, 0, 0, 0] ∧ s.short = false ∧ s.fsticky = true)

/-- What no engine step changes (R23, R27, R31, R59, R262): the configuration, the operand registers, `CMD`, `OVR`, and the model's
own fields that belong to the host. -/
abbrev EngineFrame (s t : State) : Prop :=
  t.cfg = s.cfg ∧ t.opr = s.opr ∧ t.cmd = s.cmd ∧ t.ovr = s.ovr ∧ t.memEpoch = s.memEpoch ∧ t.agenda = s.agenda ∧ t.seen = s.seen

/-- A command ended without fault (R22, R24, R29): `STATE` is `DONE`, the four results are these numbers, and the fault record and
`FSTICKY` are as they were. -/
abbrev Completed (s t : State) (r0 r1 r2 r3 : Nat) : Prop :=
  EngineFrame s t ∧ t.phase = .done ∧
  (t.res[0].toNat = r0 ∧ t.res[1].toNat = r1 ∧ t.res[2].toNat = r2 ∧ t.res[3].toNat = r3) ∧
  t.fsticky = s.fsticky ∧ t.fcode = s.fcode ∧ t.finfo0 = s.finfo0 ∧ t.finfo1 = s.finfo1 ∧ t.finfo2 = s.finfo2 ∧ t.draws = s.draws

/-- A fault was taken (R262): the record holds this code and these three values, the results are clear, `FSTICKY` is set, `STATE` is
`FAULT`, and `SHORT` and everything of `EngineFrame` are as they were. -/
abbrev Faulted (s t : State) (e : ErrCode) (i0 i1 i2 : Int) : Prop :=
  EngineFrame s t ∧ t.phase = .fault ∧ t.fcode = e.word ∧
  t.finfo0 = finfoWord i0 ∧ t.finfo1 = finfoWord i1 ∧ t.finfo2 = finfoWord i2 ∧
  t.res = #v[0, 0, 0, 0] ∧ t.fsticky = true ∧ t.short = s.short

/-- A pre-check fault was taken (R263): no byte of `MEM` changed. -/
abbrev PreFaulted (s t : State) (e : ErrCode) (i0 i1 i2 : Int) : Prop :=
  Faulted s t e i0 i1 i2 ∧ t.mem = s.mem ∧ t.draws = s.draws

/-- Every byte of `MEM` outside these ranges (base, length) reads as before. -/
abbrev UnchangedOutside (s t : State) (ranges : List (Nat × Nat)) : Prop :=
  ∀ a : Nat, (∀ p ∈ ranges, a < p.1 ∨ p.1 + p.2 ≤ a) → t.byteAt a = s.byteAt a

/-- A mid-stream fault was taken by a decoder that was producing `n` bytes (R263): only bytes of `DST[0 .. n)` may have changed. -/
abbrev MidFaulted (s t : State) (e : ErrCode) (i0 i1 i2 : Int) (n : Nat) : Prop :=
  Faulted s t e i0 i1 i2 ∧ UnchangedOutside s t [(s.dstBase, n)]

/-- The bytes of `MEM` from `base` upward are these `n`. -/
abbrev Holds (t : State) (base n : Nat) (f : Nat → Byte) : Prop :=
  ∀ j : Nat, j < n → t.byteAt (base + j) = f j

/-- Two states that a command cannot tell apart: the same configuration, the same values in the operand registers it reads, and the
same bytes in its `IN` regions (R22, R57, U19). -/
abbrev SameInputs (i : Instr) (s u : State) : Prop :=
  s.cfg = u.cfg ∧ (∀ k ∈ operandsOf i, s.opr[k] = u.opr[k]) ∧
  (∀ r ∈ (rolesOf i).inn, ∀ j : Nat, j < s.len r → s.byteAt (s.base r + j) = u.byteAt (u.base r + j))

/-! ### Words of particular claims -/

/-- The 31 legal command words, as R92 lists them. -/
def legalWords : List Word :=
  [0x00000000, 0x00000001, 0x00000010, 0x00000011, 0x00000012, 0x00000013, 0x00000014, 0x00000020, 0x00000021, 0x00000022,
    0x00000023, 0x00000032, 0x00000033, 0x00000040, 0x00000041] ++
  [0x0130, 0x0230, 0x0430, 0x0830, 0x1130, 0x1230, 0x1430, 0x1830] ++
  [0x0131, 0x0231, 0x0431, 0x0831, 0x1131, 0x1231, 0x1431, 0x1831]

/-- The command word legality check, as R97 writes it: this word raises `E_BAD_CMD` in the engine's step. -/
abbrev r97Illegal (w : Word) : Prop :=
  let op : BitVec 8 := w.extractLsb' 0 8
  let bpp : BitVec 4 := w.extractLsb' 8 4
  let be : Bool := w.getLsbD 12
  (w.extractLsb' 13 19 ≠ 0 ∨
    op ∉ [0x00, 0x10, 0x11, 0x12, 0x13, 0x14, 0x20, 0x21, 0x22, 0x23, 0x30, 0x31, 0x32, 0x33, 0x40, 0x41]) ∨
  (if op = 0x30 ∨ op = 0x31 then bpp ∉ [1, 2, 4, 8] else bpp ≠ 0 ∨ be = true)

/-- The identifier word check, as R120 writes it. -/
abbrev r120Ok (w : Word) : Prop :=
  w.extractLsb' 24 8 = 0x3A ∧ w.getLsbD 7 = false ∧ w.getLsbD 15 = false ∧ w.getLsbD 23 = false

/-- The engine gets the next step: nothing else is on the agenda, or it is the engine's turn, or the host waits (R20, R100, R233). -/
abbrev EngineMoves (s : State) : Prop :=
  s.agenda = [] ∨ s.agenda.head? = some .engine ∨ s.agenda.head? = some .wait

/-- The next event is a host write of this word to `CMD`. -/
abbrev NextCmd (s : State) (w : Word) : Prop :=
  s.agenda.head? = some (.writeReg 0x40 w)

/-- The next event is a host write to operand register `x[k]`, at its offset `4 * k` (R36). -/
abbrev NextOperand (s : State) (k : Fin 12) (v : Word) : Prop :=
  s.agenda.head? = some (.writeReg (4 * k.val) v)

/-- The next event is a reset. -/
abbrev NextReset (s : State) : Prop :=
  s.agenda.head? = some .reset

/-- `s` once its next event is taken off the agenda. -/
abbrev State.popped (s : State) : State :=
  { s with agenda := s.agenda.tail }

/-- A group of an RLE stream (R141): a repeat group, or a literal group with its bytes. -/
inductive RleGroup where
  | repeated (count : Fin 128) (value : Byte)
  | literal (bytes : List Byte)
  deriving DecidableEq, Repr

/-- A literal group's count fits the seven bits of the control byte (R141). -/
def RleGroup.ok : RleGroup → Bool
  | .repeated _ _ => true
  | .literal bytes => decide (bytes.length < 128)

/-- The number of output bytes of a group (R141). -/
def RleGroup.count : RleGroup → Nat
  | .repeated count _ => count.val
  | .literal bytes => bytes.length

/-- The stream bytes of a group (R141): the control byte, then the value byte or the literals. -/
def RleGroup.stream : RleGroup → List Byte
  | .repeated count value => [BitVec.ofNat 8 (0x80 + count.val), value]
  | .literal bytes => BitVec.ofNat 8 bytes.length :: bytes

/-- The output bytes of a group (R141). -/
def RleGroup.output : RleGroup → List Byte
  | .repeated count value => List.replicate count.val value
  | .literal bytes => bytes

/-- The payload length that the header at offset `o` of `SRC` declares (R62). -/
def State.chunkLenAt (s : State) (o : Nat) : Nat := le32At s.src (o + 4) % 2 ^ 31

/-- The offsets of `SRC` that a scan of chunk headers visits (R122, R123): 0, and the end of every visited chunk that fits. -/
inductive Visited (s : State) : Nat → Prop where
  | start : Visited s 0
  | next (o : Nat) : Visited s o → o + 8 ≤ s.srcLen → o + 8 + s.chunkLenAt o ≤ s.srcLen → Visited s (o + 8 + s.chunkLenAt o)

/-- Row and column where a frame stands after some of its records (R174): a marker starts the next row, any other record moves on in
its row. -/
def scnCursor : List Byte → (y x : Nat) → Nat × Nat
  | [], y, x => (y, x)
  | [_], y, x => (y, x)
  | _ :: n :: rest, y, x => if n = 0 then scnCursor rest (y + 1) 0 else scnCursor rest y (x + n.toNat)

/-- The number of 1 bits among the first `i` mask bits (R181). -/
def bmkOnes (src : Nat → Byte) (i : Nat) : Nat :=
  ((List.range i).filter fun k => (src (k / 8)).getLsbD (7 - k % 8)).length

/-- The output length a streaming decoder was producing when it faulted (R263): the bytes that may have changed. -/
def midLength (i : Instr) (s : State) : Nat :=
  match i with
  | .lzwDec => s.dstLen
  | .bmkDec => s.dstLen
  | .cblkDec => le32At s.src 1
  | .scnDec => s.width * s.height
  | _ => 0

end Sys2Proof.Machine
end

