-- ==== Sys2Proof/Certificates/Slice0/Obligations.lean ====
section
/-! DEFINITION. The statements for the provers. Each names the rule of spec/ it formalises; "log <n>" is notes/assumptions/<n>.md. -/

open Sys2Proof Sys2Proof.Machine

/-! ### Encoding (30_encoding.md) -/

/-- R92, R96, R98: a word decodes to a command exactly when the command is well formed and the word is its encoding. -/
def Obligations.DecodeIffEncode : Prop :=
  ∀ (w : Word) (i : Instr), decode w = .ok i ↔ i.wf = true ∧ encode i = w

/-- R96: the words that decode are the 31 words R92 lists, and no other. -/
def Obligations.LegalWordsAreExactlyTheListed : Prop :=
  ∀ w : Word, (∃ i, decode w = .ok i) ↔ w ∈ legalWords

/-- R92: words written out from the encoding tables, one for each family, decode to their commands. -/
def Obligations.SampleWordsDecode : Prop :=
  decode 0x00000000 = .ok .nop ∧ decode 0x00000001 = .ok .ack ∧ decode 0x00000010 = .ok .rleDec ∧
  decode 0x00000014 = .ok .cblkDec ∧ decode 0x00000022 = .ok .chkWrap ∧ decode 0x00001430 = .ok (.pixUnpack 4 true) ∧
  decode 0x00000831 = .ok (.pixPack 8 false) ∧ decode 0x00000041 = .ok .tileExpand ∧
  decode 0x00000101 = .error .strayField ∧ decode 0x00001331 = .error .illegalBpp

/-- R97: at the engine's step an illegal word raises `E_BAD_CMD(0, 0, w)` and touches nothing else, and every other word is a command
that runs. -/
def Obligations.IllegalWordFaultsBadCmd : Prop :=
  ∀ s : State, s.phase = .busy → s.agenda = [] →
    (r97Illegal s.cmd → ∃ t, step s = .next t ∧ PreFaulted s t .badCmd 0 0 s.cmd.toNat ∧ t.finfo2 = s.cmd) ∧
    (¬ r97Illegal s.cmd → ∃ i, decode s.cmd = .ok i ∧ i.wf = true ∧ i ≠ .ack ∧ step s = exec i s)

/-- R97: the meaning of a format-P command whose `BPP` is not 1, 2, 4 or 8 is the fault of its illegal word (log 11). -/
def Obligations.IllFormedBppFaultsBadCmd : Prop :=
  ∀ (bpp : BitVec 4) (be : Bool) (s : State), legalBpp bpp = false →
    (∃ t, exec (.pixUnpack bpp be) s = .next t ∧ PreFaulted s t .badCmd 0 0 (encode (.pixUnpack bpp be)).toNat) ∧
    (∃ t, exec (.pixPack bpp be) s = .next t ∧ PreFaulted s t .badCmd 0 0 (encode (.pixPack bpp be)).toNat)

/-! ### Acceptance, the engine's step, the system commands (45_system.md) -/

/-- The step runs the decoded command (R230, R232, R233): the engine's step of an accepted command is `exec` of it, whichever way the
engine gets its turn, and the host's write of the `ACK` word is `exec` of `ACK` (log 5, log 9). -/
def Obligations.StepRunsDecodedCommand : Prop :=
  (∀ (s : State) (i : Instr), s.phase = .busy → decode s.cmd = .ok i → i ≠ .ack →
    (s.agenda = [] → step s = exec i s) ∧
    (s.agenda.head? = some .engine → step s = exec i s.popped) ∧
    (s.agenda.head? = some .wait → step s = exec i s)) ∧
  (∀ s : State, NextCmd s 0x00000001 → step s = exec .ack s.popped)

/-- R230: what a host write of word `w` to `CMD` does, in every `STATE`. -/
def Obligations.CmdWriteHandling : Prop :=
  ∀ (s : State) (w : Word), NextCmd s w →
    step s = .next
      (if s.phase = .busy then { s.popped with ovr := true }
       else if w = 0x00000001 then
        { s.popped with cmd := 0x00000001, phase := .idle, fcode := 0, finfo0 := 0, finfo1 := 0, finfo2 := 0, ovr := false }
       else if s.phase = .fault then { s.popped with ovr := true }
       else { s.popped with cmd := w, res := #v[0, 0, 0, 0], short := false, phase := .busy })

/-- R232: `ACK` returns to `IDLE` and clears the fault record and `OVR`; everything else is unchanged. While `BUSY` it is discarded. -/
def Obligations.AckReturnsToIdle : Prop :=
  ∀ s : State,
    (s.phase ≠ .busy → exec .ack s = .next
      { s with cmd := 0x00000001, phase := .idle, fcode := 0, finfo0 := 0, finfo1 := 0, finfo2 := 0, ovr := false }) ∧
    (s.phase = .busy → exec .ack s = .next { s with ovr := true })

/-- R231: `NOP` clears the results and `SHORT` by its acceptance and ends `DONE`; in `FAULT` it is discarded and sets `OVR`. -/
def Obligations.NopRuns : Prop :=
  (∀ s : State, exec .nop s = .next { s with res := #v[0, 0, 0, 0], phase := .done }) ∧
  (∀ s : State, (s.phase = .idle ∨ s.phase = .done) → s.agenda = [.writeReg 0x40 0x00000000] →
    ∃ t, step s = .next t ∧ t.phase = .busy ∧
      step t = .next { s with agenda := [], cmd := 0, res := #v[0, 0, 0, 0], short := false, phase := .done }) ∧
  (∀ s : State, s.phase = .fault → NextCmd s 0x00000000 → step s = .next { s.popped with ovr := true })

/-! ### State, flags, registers (10_state.md) -/

/-- R45, R280: what the reset state and a reset from any state leave. That a byte of `MEM` then reads as the free byte
`Config.resetByte` of a new epoch is the model's form of "unspecified" (log 1). -/
def Obligations.ResetLeaves : Prop :=
  (∀ k : Fin 16, State.reset.x k = 0) ∧ State.reset.cmd = 0 ∧ State.reset.statusWord = 0 ∧ State.reset.fcode = 0 ∧
  State.reset.finfo0 = 0 ∧ State.reset.finfo1 = 0 ∧ State.reset.finfo2 = 0 ∧ readReg State.reset 0x58 = 0x45460407 ∧
  (∀ s : State, NextReset s → ∃ t, step s = .next t ∧ (∀ k : Fin 16, t.x k = 0) ∧ t.cmd = 0 ∧ t.statusWord = 0 ∧ t.fcode = 0 ∧
    t.finfo0 = 0 ∧ t.finfo1 = 0 ∧ t.finfo2 = 0 ∧ readReg t 0x58 = 0x45460407 ∧
    readReg t 0x5C = BitVec.ofNat 32 s.cfg.memSize ∧ t.cfg = s.cfg ∧
    ∀ a : Nat, t.byteAt a = Config.resetByte (s.memEpoch + 1) a)

/-- R29: the complete list of `STATE` transitions, over every step. -/
def Obligations.PhaseTransitionsComplete : Prop :=
  ∀ s t : State, step s = .next t →
    (∀ w, NextCmd s w → w ≠ ackWord → (s.phase = .idle ∨ s.phase = .done) → t.phase = .busy) ∧
    (s.phase = .busy → EngineMoves s → t.phase = .done ∨ t.phase = .fault) ∧
    (NextCmd s ackWord → s.phase ≠ .busy → t.phase = .idle) ∧
    (NextReset s → t.phase = .idle) ∧
    (¬ (∃ w, NextCmd s w ∧ w ≠ ackWord ∧ (s.phase = .idle ∨ s.phase = .done)) → ¬ (s.phase = .busy ∧ EngineMoves s) →
      ¬ (NextCmd s ackWord ∧ s.phase ≠ .busy) → ¬ NextReset s → t.phase = s.phase)

/-- R30: `SHORT` is cleared when a command other than `ACK` is accepted, set by `RLE.DEC` alone, at completion, iff
`RES0 < DST_LEN`, and changed by nothing else but reset. -/
def Obligations.ShortFlagRule : Prop :=
  ∀ s t : State, step s = .next t →
    (∀ w, NextCmd s w → w ≠ ackWord → (s.phase = .idle ∨ s.phase = .done) → t.short = false) ∧
    (s.phase = .busy → EngineMoves s → decode s.cmd = .ok .rleDec → t.phase = .done →
      (t.short = true ↔ t.res[0].toNat < s.dstLen)) ∧
    (s.phase = .busy → EngineMoves s → ¬ (decode s.cmd = .ok .rleDec ∧ t.phase = .done) → t.short = s.short) ∧
    (NextReset s → t.short = false) ∧
    (¬ (∃ w, NextCmd s w ∧ w ≠ ackWord ∧ (s.phase = .idle ∨ s.phase = .done)) → ¬ (s.phase = .busy ∧ EngineMoves s) →
      ¬ NextReset s → t.short = s.short)

/-- R31: `OVR` is set by exactly the two kinds of discarded write, which do nothing else, and cleared by an accepted `ACK` and by
reset only. -/
def Obligations.OvrFlagRule : Prop :=
  ∀ s t : State, step s = .next t →
    ((s.phase = .busy ∧ ((∃ w, NextCmd s w) ∨ ∃ k v, NextOperand s k v)) ∨
      (s.phase = .fault ∧ ∃ w, NextCmd s w ∧ w ≠ ackWord) → t = { s.popped with ovr := true }) ∧
    ((s.phase ≠ .busy ∧ NextCmd s ackWord) ∨ NextReset s → t.ovr = false) ∧
    (¬ (s.phase = .busy ∧ ((∃ w, NextCmd s w) ∨ ∃ k v, NextOperand s k v)) → ¬ (s.phase = .fault ∧ ∃ w, NextCmd s w ∧ w ≠ ackWord) →
      ¬ (s.phase ≠ .busy ∧ NextCmd s ackWord) → ¬ NextReset s → t.ovr = s.ovr)

/-- R32: `FSTICKY` is set whenever the engine enters `FAULT`, and cleared by reset only. -/
def Obligations.FstickyRule : Prop :=
  ∀ s t : State, step s = .next t →
    (NextReset s → t.fsticky = false) ∧
    (¬ NextReset s → (t.fsticky = true ↔ s.fsticky = true ∨ (s.phase ≠ .fault ∧ t.phase = .fault)))

/-- R23: host access to the general registers, and that nothing but the host and reset changes an operand register. -/
def Obligations.OperandRegistersChangeOnlyByHost : Prop :=
  (∀ (s : State) (k : Fin 16), readReg s (4 * k.val) = s.x k) ∧
  (∀ (s : State) (k : Fin 12) (v : Word), NextOperand s k v →
    step s = .next (if s.phase = .busy then { s.popped with ovr := true } else { s.popped with opr := s.opr.set k v })) ∧
  (∀ (s : State) (k : Nat) (v : Word), 12 ≤ k → k < 16 → s.agenda.head? = some (.writeReg (4 * k) v) → step s = .next s.popped) ∧
  (∀ s t : State, step s = .next t → ¬ (∃ k v, NextOperand s k v) → ¬ NextReset s → t.opr = s.opr)

/-- R28, R35, R36: the `REG` address map, what is unmapped, the fields of `STATUS` with its reserved bits, and that the host cannot
write a read-only register or an unmapped offset. -/
def Obligations.RegisterMap : Prop :=
  ∀ s : State,
    (∀ k : Fin 16, readReg s (4 * k.val) = s.x k) ∧
    readReg s 0x40 = s.cmd ∧ readReg s 0x44 = s.statusWord ∧ readReg s 0x48 = s.fcode ∧ readReg s 0x4C = s.finfo0 ∧
    readReg s 0x50 = s.finfo1 ∧ readReg s 0x54 = s.finfo2 ∧ readReg s 0x58 = 0x45460407 ∧
    readReg s 0x5C = BitVec.ofNat 32 s.cfg.memSize ∧
    s.statusWord.extractLsb' 0 2 = s.phase.bits ∧ s.statusWord.getLsbD 2 = s.short ∧ s.statusWord.getLsbD 3 = s.ovr ∧
    s.statusWord.getLsbD 4 = s.fsticky ∧ s.statusWord.extractLsb' 5 27 = 0 ∧
    (∀ off : Nat, off % 4 ≠ 0 ∨ 0x60 ≤ off → readReg s off = 0 ∧ ∀ v, writeReg off v s = .next s) ∧
    (∀ v, ∀ off ∈ [0x44, 0x48, 0x4C, 0x50, 0x54, 0x58, 0x5C], writeReg off v s = .next s)

/-- R39, R42, R100: the host's `POKE` and `PEEK` outside `BUSY` and inside `MEM`; refused while `BUSY` (U1, log 7), and so beyond
`MEM_SIZE` (U2, log 8). -/
def Obligations.HostMemoryAccess : Prop :=
  ∀ (s : State) (a : Nat) (bytes : List Byte) (n : Nat),
    (s.agenda.head? = some (.poke a bytes) → s.phase ≠ .busy → a + bytes.length ≤ s.cfg.memSize →
      ∃ t, step s = .next t ∧ Holds t a bytes.length (fun j => bytes.getD j 0) ∧ UnchangedOutside s t [(a, bytes.length)] ∧
        t = { s.popped with mem := t.mem }) ∧
    (s.agenda.head? = some (.peek a n) → s.phase ≠ .busy → a + n ≤ s.cfg.memSize →
      step s = .next { s.popped with seen := .mem a ((List.range n).map fun j => s.byteAt (a + j)) }) ∧
    (s.agenda.head? = some (.poke a bytes) ∨ s.agenda.head? = some (.peek a n) → s.phase = .busy →
      step s = .refused .hostMemWhileBusy) ∧
    (s.agenda.head? = some (.poke a bytes) → s.phase ≠ .busy → a + bytes.length > s.cfg.memSize → step s = .refused .noSuchAddress) ∧
    (s.agenda.head? = some (.peek a n) → s.phase ≠ .busy → a + n > s.cfg.memSize → step s = .refused .noSuchAddress)

/-! ### The whole machine -/

/-- The invariant holds after reset (R45; the configuration and the empty memory are the model's reset values, log 1, log 3). -/
def Obligations.InvAtReset : Prop :=
  Inv State.reset

/-- Every step of the machine, from any state, keeps the invariant (R6, R24, R33, R34, R42, R58, R59, R241, R262). -/
def Obligations.InvKeptByEveryStep : Prop :=
  ∀ s t : State, Inv s → step s = .next t → Inv t

/-- R233, R59: every command completes its step, ends in `DONE` or `FAULT`, and changes nothing but its `OUT` regions (the table of
R57), the results, the flags and the fault record. -/
def Obligations.EngineStepFrame : Prop :=
  ∀ (i : Instr) (s : State), i ≠ .ack →
    ∃ t, exec i s = .next t ∧ (t.phase = .done ∨ t.phase = .fault) ∧ EngineFrame s t ∧
      UnchangedOutside s t ((rolesOf i).out.map fun r => (s.base r, s.len r))

/-- R263: which faults leave `MEM` as it was, and which bytes the others may change (their values are free, log 2). -/
def Obligations.FaultPrecision : Prop :=
  ∀ (i : Instr) (s t : State), exec i s = .next t → t.phase = .fault →
    (t.fcode ∉ [ErrCode.lenMismatch.word, ErrCode.lzwCode.word, ErrCode.scnStream.word] → t.mem = s.mem) ∧
    (i = .pixMerge → t.mem = s.mem) ∧
    (i = .cblkDec → s.src 0 = 0 → t.mem = s.mem) ∧
    UnchangedOutside s t [(s.dstBase, midLength i s)]

/-- R262: entering `FAULT` latches a code some command raises, clears the results and sets `FSTICKY`, and leaves the operand
registers, `CMD`, `SHORT` and `OVR` as they were. -/
def Obligations.FaultEntry : Prop :=
  ∀ s t : State, step s = .next t → s.phase ≠ .fault → t.phase = .fault →
    s.phase = .busy ∧ t.fcode ∈ raisedCodes.map ErrCode.word ∧ t.res = #v[0, 0, 0, 0] ∧ t.fsticky = true ∧
    t.opr = s.opr ∧ t.cmd = s.cmd ∧ t.short = s.short ∧ t.ovr = s.ovr ∧ t.cfg = s.cfg

/-- R266: faults do not nest. In `FAULT` only `ACK` and reset end the fault; until then the record is held, and a discarded write sets
`OVR` and changes nothing else. -/
def Obligations.FaultHeldUntilAck : Prop :=
  (∀ s t : State, s.phase = .fault → step s = .next t → ¬ NextCmd s ackWord → ¬ NextReset s →
    t.phase = .fault ∧ t.fcode = s.fcode ∧ t.finfo0 = s.finfo0 ∧ t.finfo1 = s.finfo1 ∧ t.finfo2 = s.finfo2 ∧ t.cmd = s.cmd ∧
    t.res = s.res) ∧
  (∀ (s : State) (w : Word), s.phase = .fault → NextCmd s w → w ≠ ackWord → step s = .next { s.popped with ovr := true }) ∧
  (∀ s : State, s.phase = .fault → NextCmd s ackWord → ∃ t, step s = .next t ∧ t.phase = .idle)

/-- R233, R290: `BUSY` ends. However the host's register accesses fall, within as many steps as the agenda is long, and one more, the
machine has left `BUSY` (log 16). -/
def Obligations.BusyEnds : Prop :=
  ∀ s : State, s.phase = .busy → (∀ e ∈ s.agenda, (∀ a bs, e ≠ .poke a bs) ∧ (∀ a n, e ≠ .peek a n)) →
    ∃ k t, k ≤ s.agenda.length + 1 ∧ Host.Core.run Sys2Proof.core k s = .next t ∧ t.phase ≠ .busy

/-- R22, U19: a command is a function of the operand registers of R22, the bytes of its `IN` regions and the configuration: two states
that agree on these end alike, with the same results, the same fault record and the same output bytes. -/
def Obligations.CommandDependsOnItsInputsOnly : Prop :=
  ∀ (i : Instr) (s u t v : State), i ≠ .ack → SameInputs i s u → exec i s = .next t → exec i u = .next v →
    t.phase = v.phase ∧ t.res = v.res ∧
    (t.phase = .fault → t.fcode = v.fcode ∧ t.finfo0 = v.finfo0 ∧ t.finfo1 = v.finfo1 ∧ t.finfo2 = v.finfo2) ∧
    (t.phase = .done → ∀ r ∈ (rolesOf i).out, ∀ j : Nat, j < s.len r →
      s.byteAt (s.base r + j) = u.byteAt (u.base r + j) → t.byteAt (s.base r + j) = v.byteAt (u.base r + j))

/-- R58, R250: the region check, test by test, and that every command makes it before any check of its own. -/
def Obligations.RegionCheckFirst : Prop :=
  (∀ (ro : Roles) (s : State), regionFault ro s =
    (let hits (a b : Region) : Prop := ro.uses a = true ∧ ro.uses b = true ∧ (a ∈ ro.out ∨ b ∈ ro.out) ∧ s.len a > 0 ∧
      s.len b > 0 ∧ s.base a < s.base b + s.len b ∧ s.base b < s.base a + s.len a
     if ro.uses .src = true ∧ s.srcBase + s.srcLen > s.cfg.memSize then some (0x00, s.srcBase, s.srcLen)
     else if ro.uses .dst = true ∧ s.dstBase + s.dstLen > s.cfg.memSize then some (0x11, s.dstBase, s.dstLen)
     else if ro.uses .aux = true ∧ s.auxBase + s.auxLen > s.cfg.memSize then some (0x22, s.auxBase, s.auxLen)
     else if hits .src .dst then some (0x101, s.dstBase, s.dstLen)
     else if hits .src .aux then some (0x102, s.auxBase, s.auxLen)
     else if hits .dst .aux then some (0x112, s.auxBase, s.auxLen)
     else none)) ∧
  (∀ (i : Instr) (s : State) (i0 i1 i2 : Nat), i.wf = true → regionFault (rolesOf i) s = some (i0, i1, i2) →
    ∃ t, exec i s = .next t ∧ PreFaulted s t .region i0 i1 i2)

/-! ### Run-length decoding (41_codec_rle_lzw_cblk.md) -/

/-- R141: the decoder overruns neither buffer, and delivers fewer bytes than asked only when the source ran out. -/
def Obligations.RleNeverOverruns : Prop :=
  ∀ (src : Nat → Byte) (p0 plen n : Nat),
    (rleDecode src p0 plen n).1.length ≤ n ∧ (rleDecode src p0 plen n).2 ≤ plen ∧
    ((rleDecode src p0 plen n).1.length < n → (rleDecode src p0 plen n).2 = plen)

/-- R144: every stream of complete groups decodes to its expansion, and is used up when its last group's count is not zero. -/
def Obligations.RleStreamRoundTrip : Prop :=
  ∀ (src : Nat → Byte) (p0 : Nat) (gs : List RleGroup), (∀ g ∈ gs, g.ok = true) →
    (∀ j (h : j < (gs.flatMap RleGroup.stream).length), src (p0 + j) = (gs.flatMap RleGroup.stream)[j]) →
    let e := (gs.flatMap RleGroup.stream).length
    let b := gs.flatMap RleGroup.output
    (rleDecode src p0 e b.length).1 = b ∧ (rleDecode src p0 e b.length).2 ≤ e ∧
    ((∀ g ∈ gs.getLast?, g.count ≠ 0) → (rleDecode src p0 e b.length).2 = e)

/-- R142, R143: `RLE.DEC` ends `DONE` on every source, reports what it produced and consumed, sets `SHORT` iff that is less than
`DST_LEN`, and writes only what it produced. -/
def Obligations.RleDecRuns : Prop :=
  ∀ s : State, regionFault (rolesOf .rleDec) s = none →
    ∃ t, exec .rleDec s = .next t ∧
      (let d := (rleDecode s.src 0 s.srcLen s.dstLen)
       Completed s t d.1.length d.2 0 0 ∧ t.short = decide (d.1.length < s.dstLen) ∧
        Holds t s.dstBase d.1.length (fun j => d.1.getD j 0) ∧ UnchangedOutside s t [(s.dstBase, d.1.length)])

/-! ### LZW decoding -/

/-- R147, R148, R149: the default decoder delivers exactly the declared length from bytes it has, and each of its faults is within the
source and before the declared length. -/
def Obligations.LzwStandardBounds : Prop :=
  ∀ (src : Nat → Byte) (p0 plen n : Nat),
    (∀ out u, lzwStandard src p0 plen n = (out, .ok u) → out.length = n ∧ u ≤ plen) ∧
    (∀ out d, lzwStandard src p0 plen n = (out, .exhausted d) → d < n ∧ out.length = d) ∧
    (∀ out off limit code, lzwStandard src p0 plen n = (out, .badCode off limit code) →
      out.length < n ∧ off < plen ∧ limit ≤ code)

/-- R146, R148: a stream of at most 256 literal codes of nine bits, packed least significant bit first, decodes to those literals and
consumes the bytes that hold them. -/
def Obligations.LzwLiteralStream : Prop :=
  ∀ (src : Nat → Byte) (p0 plen n : Nat), n ≤ 256 → 9 * n ≤ 8 * plen →
    (∀ k, k < n → lzwCodeAt src p0 (9 * k) 9 < 256) →
    lzwStandard src p0 plen n =
      ((List.range n).map (fun k => BitVec.ofNat 8 (lzwCodeAt src p0 (9 * k) 9)), .ok (ceilDiv (9 * n) 8))

/-- R147, R148: `LZW.DEC` on a decodable source, and its two faults, under every variant (log 4). -/
def Obligations.LzwDecRuns : Prop :=
  ∀ (s : State) (out : List Byte), regionFault (rolesOf .lzwDec) s = none →
    (∀ u, lzwDecode s.cfg.lzw s.src 0 s.srcLen s.dstLen = (out, .ok u) →
      ∃ t, exec .lzwDec s = .next t ∧ Completed s t s.dstLen u 0 0 ∧ t.short = s.short ∧ out.length = s.dstLen ∧
        Holds t s.dstBase s.dstLen (fun j => out.getD j 0) ∧ UnchangedOutside s t [(s.dstBase, s.dstLen)]) ∧
    (∀ d, lzwDecode s.cfg.lzw s.src 0 s.srcLen s.dstLen = (out, .exhausted d) →
      ∃ t, exec .lzwDec s = .next t ∧ MidFaulted s t .lenMismatch s.srcLen s.dstLen d s.dstLen) ∧
    (∀ off limit code, lzwDecode s.cfg.lzw s.src 0 s.srcLen s.dstLen = (out, .badCode off limit code) →
      ∃ t, exec .lzwDec s = .next t ∧ MidFaulted s t .lzwCode off limit code s.dstLen)

/-! ### The compressed block -/

/-- R150, R151: `CBLK.DEC` of a raw, an RLE and an LZW block whose encoded bytes give the declared length `L`. -/
def Obligations.CblkDecRuns : Prop :=
  ∀ s : State, regionFault (rolesOf .cblkDec) s = none → 5 ≤ s.srcLen → le32At s.src 1 ≤ s.dstLen →
    let l := le32At s.src 1
    (s.src 0 = 0 → 5 + l ≤ s.srcLen →
      ∃ t, exec .cblkDec s = .next t ∧ Completed s t l (5 + l) 0 0 ∧ t.short = s.short ∧
        Holds t s.dstBase l (fun j => s.src (5 + j)) ∧ UnchangedOutside s t [(s.dstBase, l)]) ∧
    (∀ out c, s.src 0 = 1 → rleDecode s.src 5 (s.srcLen - 5) l = (out, c) → out.length = l →
      ∃ t, exec .cblkDec s = .next t ∧ Completed s t l (5 + c) 1 0 ∧ t.short = s.short ∧
        Holds t s.dstBase l (fun j => out.getD j 0) ∧ UnchangedOutside s t [(s.dstBase, l)]) ∧
    (∀ out u, s.src 0 = 2 → lzwDecode s.cfg.lzw s.src 5 (s.srcLen - 5) l = (out, .ok u) →
      ∃ t, exec .cblkDec s = .next t ∧ Completed s t l (5 + u) 2 0 ∧ t.short = s.short ∧
        Holds t s.dstBase l (fun j => out.getD j 0) ∧ UnchangedOutside s t [(s.dstBase, l)])

/-- R152: compression types 3 and 4 to 255 are rejected before any decode, each with its own fault of class Unsupported. -/
def Obligations.CblkUnsupportedTypes : Prop :=
  (∀ s : State, regionFault (rolesOf .cblkDec) s = none → 5 ≤ s.srcLen →
    (s.src 0 = 3 → ∃ t, exec .cblkDec s = .next t ∧ PreFaulted s t .compLzss 0 3 3) ∧
    (4 ≤ (s.src 0).toNat → ∃ t, exec .cblkDec s = .next t ∧ PreFaulted s t .compUnknown 0 3 (s.src 0).toNat)) ∧
  ErrCode.compLzss.cls = 2 ∧ ErrCode.compUnknown.cls = 2

/-- R150, R151, R153: the length faults of `CBLK.DEC` in their order: header, capacity, then by type. -/
def Obligations.CblkLengthFaults : Prop :=
  ∀ s : State, regionFault (rolesOf .cblkDec) s = none →
    (s.srcLen < 5 → ∃ t, exec .cblkDec s = .next t ∧ PreFaulted s t .truncated 0 5 s.srcLen) ∧
    (5 ≤ s.srcLen → (s.src 0).toNat < 3 → s.dstLen < le32At s.src 1 →
      ∃ t, exec .cblkDec s = .next t ∧ PreFaulted s t .lenRange 1 s.dstLen (le32At s.src 1)) ∧
    (5 ≤ s.srcLen → le32At s.src 1 ≤ s.dstLen → s.src 0 = 0 → s.srcLen < 5 + le32At s.src 1 →
      ∃ t, exec .cblkDec s = .next t ∧ PreFaulted s t .lenMismatch s.srcLen (le32At s.src 1) (s.srcLen - 5 : Nat)) ∧
    (∀ out c, 5 ≤ s.srcLen → le32At s.src 1 ≤ s.dstLen → s.src 0 = 1 →
      rleDecode s.src 5 (s.srcLen - 5) (le32At s.src 1) = (out, c) → out.length ≠ le32At s.src 1 →
      out.length < le32At s.src 1 ∧ ∃ t, exec .cblkDec s = .next t ∧
        MidFaulted s t .lenMismatch (5 + c : Nat) (le32At s.src 1) out.length (le32At s.src 1)) ∧
    (∀ out d, 5 ≤ s.srcLen → le32At s.src 1 ≤ s.dstLen → s.src 0 = 2 →
      lzwDecode s.cfg.lzw s.src 5 (s.srcLen - 5) (le32At s.src 1) = (out, .exhausted d) →
      ∃ t, exec .cblkDec s = .next t ∧ MidFaulted s t .lenMismatch s.srcLen (le32At s.src 1) d (le32At s.src 1)) ∧
    (∀ out off limit code, 5 ≤ s.srcLen → le32At s.src 1 ≤ s.dstLen → s.src 0 = 2 →
      lzwDecode s.cfg.lzw s.src 5 (s.srcLen - 5) (le32At s.src 1) = (out, .badCode off limit code) →
      ∃ t, exec .cblkDec s = .next t ∧ MidFaulted s t .lzwCode (5 + off : Nat) limit code (le32At s.src 1))

/-! ### SCN and bitmask decoding (42_codec_scn_bmk.md) -/

/-- R174, R175, R176: what a decoded frame of the default grammar tells: its depth and its trailing marker. -/
def Obligations.ScnDepthAndMarker : Prop :=
  ∀ (frame img : List Byte) (w h : Nat) (deep wrap : Bool), scnStandard frame w h = (img, .ok deep wrap) →
    img.length = w * h ∧ frame.length % 2 = 0 ∧
    (deep = true ↔ ∃ j, 2 * j + 1 < frame.length ∧ (frame.getD (2 * j) 0).toNat > 0x0F) ∧
    (wrap = true → (scnCursor frame 0 0).1 = h) ∧ (wrap = false → (scnCursor frame 0 0).1 + 1 = h)

/-- R174: what a decoded frame of the default grammar shows: every run and skip record's pixels at its place, and the background value
0 everywhere else. -/
def Obligations.ScnPixels : Prop :=
  ∀ (frame img : List Byte) (w h : Nat) (deep wrap : Bool), scnStandard frame w h = (img, .ok deep wrap) →
    let pos (j : Nat) : Nat := (scnCursor (frame.take (2 * j)) 0 0).1 * w + (scnCursor (frame.take (2 * j)) 0 0).2
    (∀ j i, 2 * j + 1 < frame.length → i < (frame.getD (2 * j + 1) 0).toNat → img.getD (pos j + i) 1 = frame.getD (2 * j) 0) ∧
    (∀ p, p < w * h → (∀ j i, 2 * j + 1 < frame.length → i < (frame.getD (2 * j + 1) 0).toNat → p ≠ pos j + i) → img.getD p 1 = 0)

/-- R172: `SCN.DEC` on a frame that decodes, under every grammar (log 4). -/
def Obligations.ScnDecRuns : Prop :=
  ∀ (s : State) (start stop : Nat) (img : List Byte) (deep wrap : Bool), regionFault (rolesOf .scnDec) s = none →
    0 < s.width → 0 < s.height → s.auxLen % 4 = 0 → s.arg < s.auxLen / 4 → s.width * s.height ≤ s.dstLen →
    sle32At s.aux (4 * s.arg) = start →
    (if s.arg + 1 < s.auxLen / 4 then sle32At s.aux (4 * s.arg + 4) else (s.srcLen : Int)) = stop →
    start < stop → stop ≤ s.srcLen →
    scnDecode s.cfg.scn ((List.range (stop - start)).map fun j => s.src (start + j)) s.width s.height = (img, .ok deep wrap) →
    ∃ t, exec .scnDec s = .next t ∧
      Completed s t (s.width * s.height) (stop - start) (if deep then 8 else 4) (if wrap then 1 else 0) ∧ t.short = s.short ∧
      img.length = s.width * s.height ∧ Holds t s.dstBase (s.width * s.height) (fun j => img.getD j 0) ∧
      UnchangedOutside s t [(s.dstBase, s.width * s.height)]

/-- R171, R172, R173: the faults of `SCN.DEC` in their order. -/
def Obligations.ScnDecFaults : Prop :=
  ∀ s : State, regionFault (rolesOf .scnDec) s = none →
    (s.width = 0 → ∃ t, exec .scnDec s = .next t ∧ PreFaulted s t .param 6 0 0) ∧
    (s.width ≠ 0 → s.height = 0 → ∃ t, exec .scnDec s = .next t ∧ PreFaulted s t .param 7 0 0) ∧
    (s.width ≠ 0 → s.height ≠ 0 → s.auxLen % 4 ≠ 0 →
      ∃ t, exec .scnDec s = .next t ∧
        PreFaulted s t .truncated (s.auxLen - s.auxLen % 4 : Nat) 4 (s.auxLen % 4 : Nat)) ∧
    (s.width ≠ 0 → s.height ≠ 0 → s.auxLen % 4 = 0 →
      (s.auxLen / 4 ≤ s.arg → ∃ t, exec .scnDec s = .next t ∧ PreFaulted s t .param 9 0 s.arg) ∧
      (s.arg < s.auxLen / 4 → s.dstLen < s.width * s.height →
        ∃ t, exec .scnDec s = .next t ∧ PreFaulted s t .lenRange 1 s.dstLen (s.width * s.height : Nat)) ∧
      (s.arg < s.auxLen / 4 → s.width * s.height ≤ s.dstLen →
        let start := sle32At s.aux (4 * s.arg)
        let stop := if s.arg + 1 < s.auxLen / 4 then sle32At s.aux (4 * s.arg + 4) else (s.srcLen : Int)
        (start < 0 ∨ stop < start ∨ stop > s.srcLen →
          ∃ t, exec .scnDec s = .next t ∧ PreFaulted s t .offset s.arg start stop) ∧
        (0 ≤ start → start = stop → stop ≤ s.srcLen →
          ∃ t, exec .scnDec s = .next t ∧ PreFaulted s t .blankFrame s.arg start 0) ∧
        (∀ img off sub detail, 0 ≤ start → start < stop → stop ≤ s.srcLen →
          scnDecode s.cfg.scn ((List.range (stop - start).toNat).map fun j => s.src (start.toNat + j)) s.width s.height =
            (img, .bad off sub detail) →
          ∃ t, exec .scnDec s = .next t ∧
            MidFaulted s t .scnStream (start.toNat + off : Nat) sub detail (s.width * s.height))))

/-- R181: the default bitmask layout. The decode succeeds exactly when the mask and as many literals as it has 1 bits are there, and
output byte `i` is then the next literal or a repeat of byte `i - 1` (`0x00` before the first). -/
def Obligations.BmkLayout : Prop :=
  ∀ (src : Nat → Byte) (srcLen n : Nat),
    ((∃ out lp, bmkStandard src srcLen n = (out, .ok lp)) ↔ ceilDiv n 8 + bmkOnes src n ≤ srcLen) ∧
    (∀ out lp, bmkStandard src srcLen n = (out, .ok lp) →
      out.length = n ∧ lp = ceilDiv n 8 + bmkOnes src n ∧
      ∀ i (h : i < out.length), out[i] =
        if (src (i / 8)).getLsbD (7 - i % 8) then src (ceilDiv n 8 + bmkOnes src i) else if i = 0 then 0x00 else out.getD (i - 1) 0)

/-- R182: `BMK.DEC` on a complete stream, and its two faults, under every layout (log 4). -/
def Obligations.BmkDecRuns : Prop :=
  ∀ (s : State) (out : List Byte), regionFault (rolesOf .bmkDec) s = none →
    (∀ u, bmkDecode s.cfg.bmk s.src s.srcLen s.dstLen = (out, .ok u) →
      ∃ t, exec .bmkDec s = .next t ∧ Completed s t s.dstLen u 0 0 ∧ t.short = s.short ∧ out.length = s.dstLen ∧
        Holds t s.dstBase s.dstLen (fun j => out.getD j 0) ∧ UnchangedOutside s t [(s.dstBase, s.dstLen)]) ∧
    (∀ m, bmkDecode s.cfg.bmk s.src s.srcLen s.dstLen = (out, .truncated m) →
      ∃ t, exec .bmkDec s = .next t ∧ PreFaulted s t .truncated 0 m s.srcLen) ∧
    (∀ lp i, bmkDecode s.cfg.bmk s.src s.srcLen s.dstLen = (out, .exhausted lp i) →
      ∃ t, exec .bmkDec s = .next t ∧ MidFaulted s t .lenMismatch lp s.dstLen i s.dstLen)

/-! ### Chunks and tables (40_chunk.md) -/

/-- R122, R123: `CHK.FIND` completes whenever every header it reaches fits, and then names the first visited header with the
identifier, or, when there is none, where the scan stopped. Nothing is written. -/
def Obligations.ChkFindFindsFirst : Prop :=
  ∀ s : State, regionFault (rolesOf .chkFind) s = none → r120Ok s.opr[9] →
    (∀ o, Visited s o → o + 8 ≤ s.srcLen → (∀ p, Visited s p → p < o → le32At s.src p ≠ s.arg) →
      o + 8 + s.chunkLenAt o ≤ s.srcLen) →
    ∃ t, exec .chkFind s = .next t ∧ t.mem = s.mem ∧ t.short = s.short ∧
      ((∃ o, Visited s o ∧ o + 8 ≤ s.srcLen ∧ le32At s.src o = s.arg ∧
          (∀ p, Visited s p → p < o → le32At s.src p ≠ s.arg) ∧
          Completed s t 1 o (s.chunkLenAt o) (le32At s.src (o + 4) / 2 ^ 31)) ∨
       (∃ o, Visited s o ∧ s.srcLen < o + 8 ∧ (∀ p, Visited s p → p + 8 ≤ s.srcLen → le32At s.src p ≠ s.arg) ∧
          Completed s t 0 o 0 0))

/-- R120, R121, R122: the faults of `CHK.FIND`: a bad identifier word, and the first visited header that overruns the buffer. -/
def Obligations.ChkFindFaults : Prop :=
  ∀ s : State, regionFault (rolesOf .chkFind) s = none →
    (¬ r120Ok s.opr[9] → ∃ t, exec .chkFind s = .next t ∧ PreFaulted s t .param 9 0 s.arg) ∧
    (∀ o, r120Ok s.opr[9] → Visited s o → o + 8 ≤ s.srcLen → (∀ p, Visited s p → p < o → le32At s.src p ≠ s.arg) →
      s.srcLen < o + 8 + s.chunkLenAt o →
      ∃ t, exec .chkFind s = .next t ∧ PreFaulted s t .chunkCorrupt o (o + 8 + s.chunkLenAt o : Nat) s.srcLen)

/-- R124: `CHK.LEN` on a good header, and its three faults in their order. Nothing is written. -/
def Obligations.ChkLenRuns : Prop :=
  ∀ s : State, regionFault (rolesOf .chkLen) s = none →
    let o := s.arg
    let ascii := (s.src o).toNat < 0x80 ∧ (s.src (o + 1)).toNat < 0x80 ∧ (s.src (o + 2)).toNat < 0x80 ∧ s.src (o + 3) = 0x3A
    (s.srcLen < o + 8 → ∃ t, exec .chkLen s = .next t ∧ PreFaulted s t .truncated o 8 (s.srcLen - min o s.srcLen : Nat)) ∧
    (o + 8 ≤ s.srcLen → ¬ ascii → ∃ t, exec .chkLen s = .next t ∧ PreFaulted s t .chunkId o 0 (le32At s.src o)) ∧
    (o + 8 ≤ s.srcLen → ascii → s.srcLen < o + 8 + s.chunkLenAt o →
      ∃ t, exec .chkLen s = .next t ∧ PreFaulted s t .chunkCorrupt o (o + 8 + s.chunkLenAt o : Nat) s.srcLen) ∧
    (o + 8 ≤ s.srcLen → ascii → o + 8 + s.chunkLenAt o ≤ s.srcLen →
      ∃ t, exec .chkLen s = .next t ∧ Completed s t 1 o (s.chunkLenAt o) (le32At s.src (o + 4) / 2 ^ 31) ∧
        t.mem = s.mem ∧ t.short = s.short)

/-- R126: `CHK.WRAP` writes the identifier word, the length and the payload, and its three faults in their order. -/
def Obligations.ChkWrapRuns : Prop :=
  ∀ s : State, regionFault (rolesOf .chkWrap) s = none →
    (¬ r120Ok s.opr[9] → ∃ t, exec .chkWrap s = .next t ∧ PreFaulted s t .param 9 0 s.arg) ∧
    (r120Ok s.opr[9] → 0x7FFFFFFF < s.srcLen →
      ∃ t, exec .chkWrap s = .next t ∧ PreFaulted s t .lenRange 3 0x7FFFFFFF s.srcLen) ∧
    (r120Ok s.opr[9] → s.srcLen ≤ 0x7FFFFFFF → s.dstLen < 8 + s.srcLen →
      ∃ t, exec .chkWrap s = .next t ∧ PreFaulted s t .lenRange 1 s.dstLen (8 + s.srcLen : Nat)) ∧
    (r120Ok s.opr[9] → s.srcLen ≤ 0x7FFFFFFF → 8 + s.srcLen ≤ s.dstLen →
      ∃ t, exec .chkWrap s = .next t ∧ Completed s t (8 + s.srcLen) 0 0 0 ∧ t.short = s.short ∧
        le32At (fun j => t.byteAt (s.dstBase + j)) 0 = s.arg ∧ le32At (fun j => t.byteAt (s.dstBase + j)) 4 = s.srcLen ∧
        Holds t (s.dstBase + 8) s.srcLen s.src ∧ UnchangedOutside s t [(s.dstBase, 8 + s.srcLen)])

/-- R62, R122, R124, R126: a chunk that `CHK.WRAP` wrote is found by `CHK.FIND` and measured by `CHK.LEN`: at offset 0, with the
payload's length, flag 0. -/
def Obligations.WrappedChunkIsFound : Prop :=
  ∀ s t u : State, regionFault (rolesOf .chkWrap) s = none → exec .chkWrap s = .next t → t.phase = .done →
    (∀ a, u.byteAt a = t.byteAt a) → u.srcBase = s.dstBase → u.srcLen = t.res[0].toNat →
    regionFault (rolesOf .chkFind) u = none →
    (u.opr[9] = s.opr[9] → ∃ v, exec .chkFind u = .next v ∧ Completed u v 1 0 s.srcLen 0) ∧
    (u.opr[9] = 0 → ∃ v, exec .chkLen u = .next v ∧ Completed u v 1 0 s.srcLen 0)

/-- R65, R130: `INF.GET` returns the count and one frame's width and height, and its faults in their order. Nothing is written. -/
def Obligations.InfGetRuns : Prop :=
  ∀ s : State, regionFault (rolesOf .infGet) s = none →
    let n := le16At s.src 0
    let k := s.arg
    (s.srcLen < 2 → ∃ t, exec .infGet s = .next t ∧ PreFaulted s t .truncated 0 2 s.srcLen) ∧
    (2 ≤ s.srcLen → s.srcLen < 2 + 4 * n →
      ∃ t, exec .infGet s = .next t ∧ PreFaulted s t .truncated 2 (4 * n : Nat) (s.srcLen - 2 : Nat)) ∧
    (2 ≤ s.srcLen → 2 + 4 * n ≤ s.srcLen → n ≤ k → ∃ t, exec .infGet s = .next t ∧ PreFaulted s t .param 9 0 k) ∧
    (2 ≤ s.srcLen → 2 + 4 * n ≤ s.srcLen → k < n →
      ∃ t, exec .infGet s = .next t ∧ Completed s t n (le16At s.src (2 + 2 * k)) (le16At s.src (2 + 2 * n + 2 * k)) 0 ∧
        t.mem = s.mem ∧ t.short = s.short)

/-! ### The bit-width repacker (43_bitpacker.md) -/

/-- R190, R192: `PIX.UNPACK` writes pixel (`x`, `y`) of the packed rows to offset `y * w + x`, for every depth and bit order. -/
def Obligations.PixUnpackRuns : Prop :=
  ∀ (bpp : BitVec 4) (be : Bool) (s : State), legalBpp bpp = true → regionFault (rolesOf (.pixUnpack bpp be)) s = none →
    let w := s.width
    let h := s.height
    let m := ceilDiv (w * bpp.toNat) 8
    let shift (x : Nat) : Nat := if be then 8 - bpp.toNat - x * bpp.toNat % 8 else x * bpp.toNat % 8
    let need := if w > 0 ∧ h > 0 then (h - 1) * s.stride + m else 0
    m ≤ s.stride → need ≤ s.srcLen → w * h ≤ s.dstLen →
    ∃ t, exec (.pixUnpack bpp be) s = .next t ∧ Completed s t (w * h) need m 0 ∧ t.short = s.short ∧
      (∀ x y, x < w → y < h → (t.byteAt (s.dstBase + (y * w + x))).toNat =
        (s.src (y * s.stride + x * bpp.toNat / 8)).toNat / 2 ^ (shift x) % 2 ^ bpp.toNat) ∧
      UnchangedOutside s t [(s.dstBase, w * h)]

/-- R195, R196: `PIX.PACK` of pixels that fit puts pixel (`x`, `y`) where R190 says, and zeros in every padding bit. -/
def Obligations.PixPackRuns : Prop :=
  ∀ (bpp : BitVec 4) (be : Bool) (s : State), legalBpp bpp = true → regionFault (rolesOf (.pixPack bpp be)) s = none →
    let w := s.width
    let h := s.height
    let m := ceilDiv (w * bpp.toNat) 8
    let shift (x : Nat) : Nat := if be then 8 - bpp.toNat - x * bpp.toNat % 8 else x * bpp.toNat % 8
    w * h ≤ s.srcLen → m * h ≤ s.dstLen → (∀ i, i < w * h → (s.src i).toNat < 2 ^ bpp.toNat) →
    ∃ t, exec (.pixPack bpp be) s = .next t ∧ Completed s t (m * h) (w * h) m 0 ∧ t.short = s.short ∧
      (∀ x y, x < w → y < h →
        (t.byteAt (s.dstBase + (y * m + x * bpp.toNat / 8))).toNat / 2 ^ (shift x) % 2 ^ bpp.toNat =
          (s.src (y * w + x)).toNat) ∧
      (∀ y b k, y < h → b < m → k < 8 → w ≤ (8 * b + (if be then 7 - k else k)) / bpp.toNat →
        (t.byteAt (s.dstBase + (y * m + b))).getLsbD k = false) ∧
      UnchangedOutside s t [(s.dstBase, m * h)]

/-- R197: `PIX.PACK` and then `PIX.UNPACK` of the result, with the stride it returned, reproduces the pixels. -/
def Obligations.PackThenUnpackIsIdentity : Prop :=
  ∀ (bpp : BitVec 4) (be : Bool) (s t u : State), legalBpp bpp = true →
    exec (.pixPack bpp be) s = .next t → t.phase = .done →
    (∀ a, u.byteAt a = t.byteAt a) → u.srcBase = s.dstBase → u.srcLen = t.res[0].toNat → u.stride = t.res[2].toNat →
    u.width = s.width → u.height = s.height → s.width * s.height ≤ u.dstLen →
    regionFault (rolesOf (.pixUnpack bpp be)) u = none →
    ∃ v, exec (.pixUnpack bpp be) u = .next v ∧ v.phase = .done ∧ Holds v u.dstBase (s.width * s.height) s.src

/-- R192, R195, R198: the faults of `PIX.UNPACK` and `PIX.PACK` in their order; the over-range pixel reported is the first. -/
def Obligations.PixRowFaults : Prop :=
  ∀ (bpp : BitVec 4) (be : Bool) (s : State), legalBpp bpp = true →
    let w := s.width
    let h := s.height
    let m := ceilDiv (w * bpp.toNat) 8
    let need := if w > 0 ∧ h > 0 then (h - 1) * s.stride + m else 0
    (regionFault (rolesOf (.pixUnpack bpp be)) s = none →
      (s.stride < m → ∃ t, exec (.pixUnpack bpp be) s = .next t ∧ PreFaulted s t .param 8 0 s.stride) ∧
      (m ≤ s.stride → s.srcLen < need → ∃ t, exec (.pixUnpack bpp be) s = .next t ∧ PreFaulted s t .truncated 0 need s.srcLen) ∧
      (m ≤ s.stride → need ≤ s.srcLen → s.dstLen < w * h →
        ∃ t, exec (.pixUnpack bpp be) s = .next t ∧ PreFaulted s t .lenRange 1 s.dstLen (w * h : Nat))) ∧
    (regionFault (rolesOf (.pixPack bpp be)) s = none →
      (s.srcLen < w * h → ∃ t, exec (.pixPack bpp be) s = .next t ∧ PreFaulted s t .truncated 0 (w * h : Nat) s.srcLen) ∧
      (w * h ≤ s.srcLen → s.dstLen < m * h →
        ∃ t, exec (.pixPack bpp be) s = .next t ∧ PreFaulted s t .lenRange 1 s.dstLen (m * h : Nat)) ∧
      (∀ i, w * h ≤ s.srcLen → m * h ≤ s.dstLen → i < w * h → 2 ^ bpp.toNat ≤ (s.src i).toNat →
        (∀ j, j < i → (s.src j).toNat < 2 ^ bpp.toNat) →
        ∃ t, exec (.pixPack bpp be) s = .next t ∧ PreFaulted s t .pixRange i (2 ^ bpp.toNat - 1 : Nat) (s.src i).toNat))

/-- R199: `PIX.MERGE` joins two nibble planes, and its faults in their order, the low plane's byte before the high plane's. -/
def Obligations.PixMergeRuns : Prop :=
  ∀ s : State, regionFault (rolesOf .pixMerge) s = none →
    (s.auxLen ≠ s.srcLen → ∃ t, exec .pixMerge s = .next t ∧ PreFaulted s t .lenMismatch 0 s.srcLen s.auxLen) ∧
    (s.auxLen = s.srcLen → s.dstLen < s.srcLen →
      ∃ t, exec .pixMerge s = .next t ∧ PreFaulted s t .lenRange 1 s.dstLen s.srcLen) ∧
    (∀ i, s.auxLen = s.srcLen → s.srcLen ≤ s.dstLen → i < s.srcLen →
      (∀ j, j < i → (s.src j).toNat ≤ 15 ∧ (s.aux j).toNat ≤ 15) →
      (15 < (s.src i).toNat → ∃ t, exec .pixMerge s = .next t ∧ PreFaulted s t .pixRange i 15 (s.src i).toNat) ∧
      ((s.src i).toNat ≤ 15 → 15 < (s.aux i).toNat →
        ∃ t, exec .pixMerge s = .next t ∧ PreFaulted s t .pixRange i 15 (s.aux i).toNat)) ∧
    (s.auxLen = s.srcLen → s.srcLen ≤ s.dstLen → (∀ j, j < s.srcLen → (s.src j).toNat ≤ 15 ∧ (s.aux j).toNat ≤ 15) →
      ∃ t, exec .pixMerge s = .next t ∧ Completed s t s.srcLen 0 0 0 ∧ t.short = s.short ∧
        (∀ j, j < s.srcLen → (t.byteAt (s.dstBase + j)).toNat = 16 * (s.aux j).toNat + (s.src j).toNat) ∧
        UnchangedOutside s t [(s.dstBase, s.srcLen)])

/-- R201: `PIX.SPLIT` writes the low and the high nibble of every byte, and its faults in their order. -/
def Obligations.PixSplitRuns : Prop :=
  ∀ s : State, regionFault (rolesOf .pixSplit) s = none →
    (s.dstLen < s.srcLen → ∃ t, exec .pixSplit s = .next t ∧ PreFaulted s t .lenRange 1 s.dstLen s.srcLen) ∧
    (s.srcLen ≤ s.dstLen → s.auxLen < s.srcLen →
      ∃ t, exec .pixSplit s = .next t ∧ PreFaulted s t .lenRange 2 s.auxLen s.srcLen) ∧
    (s.srcLen ≤ s.dstLen → s.srcLen ≤ s.auxLen →
      ∃ t, exec .pixSplit s = .next t ∧ Completed s t s.srcLen 0 0 0 ∧ t.short = s.short ∧
        (∀ j, j < s.srcLen → (t.byteAt (s.dstBase + j)).toNat = (s.src j).toNat % 16 ∧
          (t.byteAt (s.auxBase + j)).toNat = (s.src j).toNat / 16) ∧
        UnchangedOutside s t [(s.dstBase, s.srcLen), (s.auxBase, s.srcLen)])

/-- R202: split and merge are exact inverses, in both orders. -/
def Obligations.SplitAndMergeAreInverse : Prop :=
  (∀ s t u : State, exec .pixSplit s = .next t → t.phase = .done →
    (∀ a, u.byteAt a = t.byteAt a) → u.srcBase = s.dstBase → u.auxBase = s.auxBase → u.srcLen = s.srcLen → u.auxLen = s.srcLen →
    s.srcLen ≤ u.dstLen → regionFault (rolesOf .pixMerge) u = none →
    ∃ v, exec .pixMerge u = .next v ∧ v.phase = .done ∧ Holds v u.dstBase s.srcLen s.src) ∧
  (∀ s t u : State, exec .pixMerge s = .next t → t.phase = .done →
    (∀ a, u.byteAt a = t.byteAt a) → u.srcBase = s.dstBase → u.srcLen = s.srcLen → s.srcLen ≤ u.dstLen → s.srcLen ≤ u.auxLen →
    regionFault (rolesOf .pixSplit) u = none →
    ∃ v, exec .pixSplit u = .next v ∧ v.phase = .done ∧ Holds v u.dstBase s.srcLen s.src ∧ Holds v u.auxBase s.srcLen s.aux)

/-! ### The tile atlas (44_tileatlas.md) -/

/-- R214, R215: the analysis gives every cell the index of its tile, two cells the same index iff their tiles are equal, and numbers
the tiles by first occurrence. -/
def Obligations.DedupAnalysisIsFirstOccurrence : Prop :=
  ∀ (img : Nat → Byte) (mw mh bw bh pitch : Nat) (uniq : List (List Byte)) (idx : List Nat),
    dedupAnalyse img mw mh bw bh pitch = (uniq, idx) →
    idx.length = mw * mh ∧ uniq.Nodup ∧
    (∀ i, i < mw * mh → uniq[idx.getD i 0]? = some (tileAt img bw bh pitch (i / mh) (i % mh))) ∧
    (∀ i j, i < mw * mh → j < mw * mh →
      (idx.getD i 0 = idx.getD j 0 ↔
        tileAt img bw bh pitch (i / mh) (i % mh) = tileAt img bw bh pitch (j / mh) (j % mh))) ∧
    (∀ u, u < uniq.length → ∃ i, i < mw * mh ∧ idx.getD i 0 = u ∧ ∀ j, j < i → idx.getD j 0 < u)

/-- R212, R66, R70: `TILE.DEDUP` writes the tile store and the MTX payload of the analysis. -/
def Obligations.TileDedupRuns : Prop :=
  ∀ (s : State) (uniq : List (List Byte)) (idx : List Nat), regionFault (rolesOf .tileDedup) s = none →
    let bw := s.blkw
    let bh := s.blkh
    let mw := s.width / bw
    let mh := s.height / bh
    0 < bw → 0 < bh → s.width ≤ s.stride → s.width % bw = 0 → s.height % bh = 0 → mw ≤ 65535 → mh ≤ 65535 →
    (s.height - 1) * s.stride + s.width ≤ s.srcLen → dedupAnalyse s.src mw mh bw bh s.stride = (uniq, idx) →
    0 < uniq.length → uniq.length ≤ 32767 → 4 + 2 * mw * mh ≤ s.auxLen → uniq.length * bw * bh ≤ s.dstLen →
    ∃ t, exec .tileDedup s = .next t ∧
      Completed s t uniq.length (uniq.length * bw * bh) (4 + 2 * mw * mh) (mw * mh) ∧ t.short = s.short ∧
      le16At (fun j => t.byteAt (s.auxBase + j)) 0 = mw ∧ le16At (fun j => t.byteAt (s.auxBase + j)) 2 = mh ∧
      (∀ i, i < mw * mh → le16At (fun j => t.byteAt (s.auxBase + j)) (4 + 2 * i) = idx.getD i 0) ∧
      (∀ k r c, k < uniq.length → r < bh → c < bw →
        t.byteAt (s.dstBase + (k * bw * bh + r * bw + c)) = (uniq.getD k []).getD (r * bw + c) 0) ∧
      UnchangedOutside s t [(s.dstBase, uniq.length * bw * bh), (s.auxBase, 4 + 2 * mw * mh)]

/-- R212, R216: the faults of `TILE.DEDUP` in their order. -/
def Obligations.TileDedupFaults : Prop :=
  ∀ s : State, regionFault (rolesOf .tileDedup) s = none →
    let bw := s.blkw
    let bh := s.blkh
    let mw := s.width / bw
    let mh := s.height / bh
    let need := if s.width > 0 ∧ s.height > 0 then (s.height - 1) * s.stride + s.width else 0
    let shape := 0 < bw ∧ 0 < bh ∧ s.width ≤ s.stride ∧ s.width % bw = 0 ∧ s.height % bh = 0 ∧ mw ≤ 65535 ∧ mh ≤ 65535
    let u := (dedupAnalyse s.src mw mh bw bh s.stride).1.length
    (bw = 0 → ∃ t, exec .tileDedup s = .next t ∧ PreFaulted s t .param 10 0 0) ∧
    (0 < bw → bh = 0 → ∃ t, exec .tileDedup s = .next t ∧ PreFaulted s t .param 11 0 0) ∧
    (0 < bw → 0 < bh → s.stride < s.width → ∃ t, exec .tileDedup s = .next t ∧ PreFaulted s t .param 8 0 s.stride) ∧
    (0 < bw → 0 < bh → s.width ≤ s.stride → s.width % bw ≠ 0 →
      ∃ t, exec .tileDedup s = .next t ∧ PreFaulted s t .param 6 0 s.width) ∧
    (0 < bw → 0 < bh → s.width ≤ s.stride → s.width % bw = 0 → s.height % bh ≠ 0 →
      ∃ t, exec .tileDedup s = .next t ∧ PreFaulted s t .param 7 0 s.height) ∧
    (0 < bw → 0 < bh → s.width ≤ s.stride → s.width % bw = 0 → s.height % bh = 0 → 65535 < mw →
      ∃ t, exec .tileDedup s = .next t ∧ PreFaulted s t .lenRange 3 65535 mw) ∧
    (0 < bw → 0 < bh → s.width ≤ s.stride → s.width % bw = 0 → s.height % bh = 0 → mw ≤ 65535 → 65535 < mh →
      ∃ t, exec .tileDedup s = .next t ∧ PreFaulted s t .lenRange 3 65535 mh) ∧
    (shape → s.srcLen < need → ∃ t, exec .tileDedup s = .next t ∧ PreFaulted s t .truncated 0 need s.srcLen) ∧
    (shape → need ≤ s.srcLen → (u = 0 ∨ 32767 < u) →
      ∃ t, exec .tileDedup s = .next t ∧ PreFaulted s t .tileCount 0 32767 u) ∧
    (shape → need ≤ s.srcLen → 0 < u → u ≤ 32767 → s.auxLen < 4 + 2 * mw * mh →
      ∃ t, exec .tileDedup s = .next t ∧ PreFaulted s t .lenRange 2 s.auxLen (4 + 2 * mw * mh : Nat)) ∧
    (shape → need ≤ s.srcLen → 0 < u → u ≤ 32767 → 4 + 2 * mw * mh ≤ s.auxLen → s.dstLen < u * bw * bh →
      ∃ t, exec .tileDedup s = .next t ∧ PreFaulted s t .lenRange 1 s.dstLen (u * bw * bh : Nat))

/-- R211, R218: `TILE.EXPAND` copies pixel (`c`, `r`) of the tile of list position `i` to its place in the composite, whose cell is at
row `i mod mh`, column `i div mh`. -/
def Obligations.TileExpandRuns : Prop :=
  ∀ s : State, regionFault (rolesOf .tileExpand) s = none →
    let n := s.arg
    let bw := s.blkw
    let bh := s.blkh
    let mw := le16At s.aux 0
    let mh := le16At s.aux 2
    let cells := mw * mh
    0 < bw → 0 < bh → 4 ≤ s.auxLen → 4 + 2 * cells ≤ s.auxLen → n ≤ cells → s.srcLen = n * bw * bh →
    cells * bw * bh ≤ s.dstLen → (∀ i, i < cells → 0 ≤ sle16At s.aux (4 + 2 * i) ∧ sle16At s.aux (4 + 2 * i) < n) →
    ∃ t, exec .tileExpand s = .next t ∧
      Completed s t (mw * bw * (mh * bh)) (min (mw * bw) 0xFFFFFFFF) (min (mh * bh) 0xFFFFFFFF) cells ∧ t.short = s.short ∧
      (∀ i r c, i < cells → r < bh → c < bw →
        t.byteAt (s.dstBase + ((i % mh * bh + r) * (mw * bw) + i / mh * bw + c)) =
          s.src ((sle16At s.aux (4 + 2 * i)).toNat * bw * bh + r * bw + c)) ∧
      UnchangedOutside s t [(s.dstBase, mw * bw * (mh * bh))]

/-- R218, R219: the faults of `TILE.EXPAND` in their order; the index reported is the first that is no tile. -/
def Obligations.TileExpandFaults : Prop :=
  ∀ s : State, regionFault (rolesOf .tileExpand) s = none →
    let n := s.arg
    let bw := s.blkw
    let bh := s.blkh
    let cells := le16At s.aux 0 * le16At s.aux 2
    (bw = 0 → ∃ t, exec .tileExpand s = .next t ∧ PreFaulted s t .param 10 0 0) ∧
    (0 < bw → bh = 0 → ∃ t, exec .tileExpand s = .next t ∧ PreFaulted s t .param 11 0 0) ∧
    (0 < bw → 0 < bh → s.auxLen < 4 → ∃ t, exec .tileExpand s = .next t ∧ PreFaulted s t .truncated 0 4 s.auxLen) ∧
    (0 < bw → 0 < bh → 4 ≤ s.auxLen → s.auxLen < 4 + 2 * cells →
      ∃ t, exec .tileExpand s = .next t ∧ PreFaulted s t .truncated 4 (2 * cells : Nat) (s.auxLen - 4 : Nat)) ∧
    (0 < bw → 0 < bh → 4 + 2 * cells ≤ s.auxLen → cells < n →
      ∃ t, exec .tileExpand s = .next t ∧ PreFaulted s t .mtxSmall 0 n cells) ∧
    (0 < bw → 0 < bh → 4 + 2 * cells ≤ s.auxLen → n ≤ cells → s.srcLen ≠ n * bw * bh →
      ∃ t, exec .tileExpand s = .next t ∧ PreFaulted s t .tileSize 0 (n * bw * bh : Nat) s.srcLen) ∧
    (0 < bw → 0 < bh → 4 + 2 * cells ≤ s.auxLen → n ≤ cells → s.srcLen = n * bw * bh → s.dstLen < cells * bw * bh →
      ∃ t, exec .tileExpand s = .next t ∧ PreFaulted s t .lenRange 1 s.dstLen (cells * bw * bh : Nat)) ∧
    (∀ i, 0 < bw → 0 < bh → 4 + 2 * cells ≤ s.auxLen → n ≤ cells → s.srcLen = n * bw * bh → cells * bw * bh ≤ s.dstLen →
      i < cells → (sle16At s.aux (4 + 2 * i) < 0 ∨ sle16At s.aux (4 + 2 * i) ≥ n) →
      (∀ j, j < i → 0 ≤ sle16At s.aux (4 + 2 * j) ∧ sle16At s.aux (4 + 2 * j) < n) →
      ∃ t, exec .tileExpand s = .next t ∧ PreFaulted s t .tileIndex i n (sle16At s.aux (4 + 2 * i)))

/-- R217: deduplicating an image, expanding the result and deduplicating the composite gives the image, and then the same tile store
and MTX payload byte for byte. -/
def Obligations.DedupExpandIdempotent : Prop :=
  ∀ s t u v x y : State, exec .tileDedup s = .next t → t.phase = .done →
    (∀ a, u.byteAt a = t.byteAt a) → u.srcBase = s.dstBase → u.srcLen = t.res[1].toNat → u.auxBase = s.auxBase →
    u.auxLen = t.res[2].toNat → u.arg = t.res[0].toNat → u.blkw = s.blkw → u.blkh = s.blkh →
    s.width * s.height ≤ u.dstLen → regionFault (rolesOf .tileExpand) u = none →
    exec .tileExpand u = .next v →
    (∀ a, x.byteAt a = v.byteAt a) → x.srcBase = u.dstBase → x.srcLen = v.res[0].toNat → x.width = s.width → x.height = s.height →
    x.stride = s.width → x.blkw = s.blkw → x.blkh = s.blkh → t.res[1].toNat ≤ x.dstLen → t.res[2].toNat ≤ x.auxLen →
    regionFault (rolesOf .tileDedup) x = none → exec .tileDedup x = .next y →
    v.phase = .done ∧
    (∀ i j, i < s.width → j < s.height → v.byteAt (u.dstBase + (j * s.width + i)) = s.src (j * s.stride + i)) ∧
    y.phase = .done ∧ y.res[0] = t.res[0] ∧ y.res[1] = t.res[1] ∧ y.res[2] = t.res[2] ∧ y.res[3] = t.res[3] ∧
    Holds y x.dstBase t.res[1].toNat (fun j => t.byteAt (s.dstBase + j)) ∧
    Holds y x.auxBase t.res[2].toNat (fun j => t.byteAt (s.auxBase + j))
end

