-- ==== Sys2Proof/Laws/Encoding.lean ====
section
/-! SUPPORT. The command word and its fields: building and reading are inverse. -/

namespace Sys2Proof

/-- The number a format-P word is (R90). -/
theorem formatP_toNat (op : BitVec 8) (bpp : BitVec 4) (be : Bool) :
    (formatP op bpp be).toNat = op.toNat + 256 * bpp.toNat + 4096 * be.toNat := by
  have h1 := op.isLt
  have h2 := bpp.isLt
  simp only [formatP, BitVec.toNat_append, BitVec.toNat_ofBool, BitVec.toNat_ofNat, Nat.zero_mod, Nat.zero_shiftLeft, Nat.zero_or]
  rw [← Nat.shiftLeft_add_eq_or_of_lt h2, ← Nat.shiftLeft_add_eq_or_of_lt h1]
  simp only [Nat.shiftLeft_eq]; omega

/-- The fields read back from a format-P word are the ones put in (R90). -/
theorem formatP_fields (op : BitVec 8) (bpp : BitVec 4) (be : Bool) :
    opField (formatP op bpp be) = op ∧ bppField (formatP op bpp be) = bpp ∧ beField (formatP op bpp be) = be ∧
      zeroField (formatP op bpp be) = 0 := by
  have h1 := op.isLt
  have h2 := bpp.isLt
  have h3 : be.toNat < 2 := Bool.toNat_lt be
  have hn := formatP_toNat op bpp be
  refine ⟨BitVec.eq_of_toNat_eq ?_, BitVec.eq_of_toNat_eq ?_, ?_, BitVec.eq_of_toNat_eq ?_⟩
  · simp [opField, hn]; omega
  · simp [bppField, hn, Nat.shiftRight_eq_div_pow]; omega
  · have : (op.toNat + 256 * bpp.toNat + 4096 * be.toNat) / 4096 % 2 = be.toNat := by omega
    simp only [beField, BitVec.getLsbD, hn, Nat.testBit, Nat.shiftRight_eq_div_pow, Nat.one_and_eq_mod_two]
    norm_num [this]
  · simp [zeroField, hn, Nat.shiftRight_eq_div_pow]; omega

/-- A word whose bits 31:13 are zero is made of its three fields (R90). -/
theorem word_eq_formatP (w : Word) (h : zeroField w = 0) : w = formatP (opField w) (bppField w) (beField w) := by
  apply BitVec.eq_of_toNat_eq
  rw [formatP_toNat]
  have h' := congrArg BitVec.toNat h
  have hb : (beField w).toNat = w.toNat / 4096 % 2 := by
    simp only [beField, BitVec.getLsbD, Nat.testBit, Nat.shiftRight_eq_div_pow, Nat.one_and_eq_mod_two]
    rcases Nat.mod_two_eq_zero_or_one (w.toNat / 4096) with h | h <;> simp [h]
  have ho : (opField w).toNat = w.toNat % 256 := by simp [opField]
  have hp : (bppField w).toNat = w.toNat / 256 % 16 := by simp [bppField, Nat.shiftRight_eq_div_pow]
  have hz : w.toNat / 8192 % 524288 = 0 := by simpa [zeroField, Nat.shiftRight_eq_div_pow] using h'
  have := w.isLt
  omega

/-- The legal depths, one by one (R94). -/
theorem legalBpp_cases {b : BitVec 4} (h : legalBpp b = true) : b = 1 ∨ b = 2 ∨ b = 4 ∨ b = 8 := by
  simpa [legalBpp, or_assoc] using h

/-- A format-C command's word is its `OP` with zeros above (R90, R92). -/
theorem formatC_word {o : BitVec 8} {j : Instr} (h : formatC o = some j) : j.wf = true ∧ encode j = formatP o 0 false := by
  unfold formatC at h
  iterate 15
    rcases ite_eq_iff.1 h with ⟨ho, hj⟩ | ⟨-, h'⟩
    · cases hj; subst ho; exact ⟨rfl, rfl⟩
    clear h; rename' h' => h
  cases h

end Sys2Proof
end

