-- ==== Sys2Proof/Laws/State.lean ====
section
/-! SUPPORT. What each update of the state leaves in each field: one lemma per field per update, true by unfolding. -/

namespace Sys2Proof.Machine


/-! ### `storeBytes` -/

@[simp] theorem storeBytes_cfg (s : State) (a : Nat) (bytes : List Byte) : (s.storeBytes a bytes).cfg = s.cfg := rfl
@[simp] theorem storeBytes_opr (s : State) (a : Nat) (bytes : List Byte) : (s.storeBytes a bytes).opr = s.opr := rfl
@[simp] theorem storeBytes_res (s : State) (a : Nat) (bytes : List Byte) : (s.storeBytes a bytes).res = s.res := rfl
@[simp] theorem storeBytes_cmd (s : State) (a : Nat) (bytes : List Byte) : (s.storeBytes a bytes).cmd = s.cmd := rfl
@[simp] theorem storeBytes_phase (s : State) (a : Nat) (bytes : List Byte) : (s.storeBytes a bytes).phase = s.phase := rfl
@[simp] theorem storeBytes_short (s : State) (a : Nat) (bytes : List Byte) : (s.storeBytes a bytes).short = s.short := rfl
@[simp] theorem storeBytes_ovr (s : State) (a : Nat) (bytes : List Byte) : (s.storeBytes a bytes).ovr = s.ovr := rfl
@[simp] theorem storeBytes_fsticky (s : State) (a : Nat) (bytes : List Byte) : (s.storeBytes a bytes).fsticky = s.fsticky := rfl
@[simp] theorem storeBytes_fcode (s : State) (a : Nat) (bytes : List Byte) : (s.storeBytes a bytes).fcode = s.fcode := rfl
@[simp] theorem storeBytes_finfo0 (s : State) (a : Nat) (bytes : List Byte) : (s.storeBytes a bytes).finfo0 = s.finfo0 := rfl
@[simp] theorem storeBytes_finfo1 (s : State) (a : Nat) (bytes : List Byte) : (s.storeBytes a bytes).finfo1 = s.finfo1 := rfl
@[simp] theorem storeBytes_finfo2 (s : State) (a : Nat) (bytes : List Byte) : (s.storeBytes a bytes).finfo2 = s.finfo2 := rfl
@[simp] theorem storeBytes_mem (s : State) (a : Nat) (bytes : List Byte) : (s.storeBytes a bytes).mem = Memory.writeList s.mem a bytes := rfl
@[simp] theorem storeBytes_memEpoch (s : State) (a : Nat) (bytes : List Byte) : (s.storeBytes a bytes).memEpoch = s.memEpoch := rfl
@[simp] theorem storeBytes_draws (s : State) (a : Nat) (bytes : List Byte) : (s.storeBytes a bytes).draws = s.draws := rfl
@[simp] theorem storeBytes_agenda (s : State) (a : Nat) (bytes : List Byte) : (s.storeBytes a bytes).agenda = s.agenda := rfl
@[simp] theorem storeBytes_seen (s : State) (a : Nat) (bytes : List Byte) : (s.storeBytes a bytes).seen = s.seen := rfl

/-! ### `overrun` -/

@[simp] theorem overrun_cfg (s : State) : (s.overrun).cfg = s.cfg := rfl
@[simp] theorem overrun_opr (s : State) : (s.overrun).opr = s.opr := rfl
@[simp] theorem overrun_res (s : State) : (s.overrun).res = s.res := rfl
@[simp] theorem overrun_cmd (s : State) : (s.overrun).cmd = s.cmd := rfl
@[simp] theorem overrun_phase (s : State) : (s.overrun).phase = s.phase := rfl
@[simp] theorem overrun_short (s : State) : (s.overrun).short = s.short := rfl
@[simp] theorem overrun_ovr (s : State) : (s.overrun).ovr = true := rfl
@[simp] theorem overrun_fsticky (s : State) : (s.overrun).fsticky = s.fsticky := rfl
@[simp] theorem overrun_fcode (s : State) : (s.overrun).fcode = s.fcode := rfl
@[simp] theorem overrun_finfo0 (s : State) : (s.overrun).finfo0 = s.finfo0 := rfl
@[simp] theorem overrun_finfo1 (s : State) : (s.overrun).finfo1 = s.finfo1 := rfl
@[simp] theorem overrun_finfo2 (s : State) : (s.overrun).finfo2 = s.finfo2 := rfl
@[simp] theorem overrun_mem (s : State) : (s.overrun).mem = s.mem := rfl
@[simp] theorem overrun_memEpoch (s : State) : (s.overrun).memEpoch = s.memEpoch := rfl
@[simp] theorem overrun_draws (s : State) : (s.overrun).draws = s.draws := rfl
@[simp] theorem overrun_agenda (s : State) : (s.overrun).agenda = s.agenda := rfl
@[simp] theorem overrun_seen (s : State) : (s.overrun).seen = s.seen := rfl

/-! ### `takeFault` -/

@[simp] theorem takeFault_cfg (e : ErrCode) (i0 i1 i2 : Int) (s : State) : (takeFault e i0 i1 i2 s).cfg = s.cfg := rfl
@[simp] theorem takeFault_opr (e : ErrCode) (i0 i1 i2 : Int) (s : State) : (takeFault e i0 i1 i2 s).opr = s.opr := rfl
@[simp] theorem takeFault_res (e : ErrCode) (i0 i1 i2 : Int) (s : State) : (takeFault e i0 i1 i2 s).res = #v[0, 0, 0, 0] := rfl
@[simp] theorem takeFault_cmd (e : ErrCode) (i0 i1 i2 : Int) (s : State) : (takeFault e i0 i1 i2 s).cmd = s.cmd := rfl
@[simp] theorem takeFault_phase (e : ErrCode) (i0 i1 i2 : Int) (s : State) : (takeFault e i0 i1 i2 s).phase = .fault := rfl
@[simp] theorem takeFault_short (e : ErrCode) (i0 i1 i2 : Int) (s : State) : (takeFault e i0 i1 i2 s).short = s.short := rfl
@[simp] theorem takeFault_ovr (e : ErrCode) (i0 i1 i2 : Int) (s : State) : (takeFault e i0 i1 i2 s).ovr = s.ovr := rfl
@[simp] theorem takeFault_fsticky (e : ErrCode) (i0 i1 i2 : Int) (s : State) : (takeFault e i0 i1 i2 s).fsticky = true := rfl
@[simp] theorem takeFault_fcode (e : ErrCode) (i0 i1 i2 : Int) (s : State) : (takeFault e i0 i1 i2 s).fcode = e.word := rfl
@[simp] theorem takeFault_finfo0 (e : ErrCode) (i0 i1 i2 : Int) (s : State) : (takeFault e i0 i1 i2 s).finfo0 = finfoWord i0 := rfl
@[simp] theorem takeFault_finfo1 (e : ErrCode) (i0 i1 i2 : Int) (s : State) : (takeFault e i0 i1 i2 s).finfo1 = finfoWord i1 := rfl
@[simp] theorem takeFault_finfo2 (e : ErrCode) (i0 i1 i2 : Int) (s : State) : (takeFault e i0 i1 i2 s).finfo2 = finfoWord i2 := rfl
@[simp] theorem takeFault_mem (e : ErrCode) (i0 i1 i2 : Int) (s : State) : (takeFault e i0 i1 i2 s).mem = s.mem := rfl
@[simp] theorem takeFault_memEpoch (e : ErrCode) (i0 i1 i2 : Int) (s : State) : (takeFault e i0 i1 i2 s).memEpoch = s.memEpoch := rfl
@[simp] theorem takeFault_draws (e : ErrCode) (i0 i1 i2 : Int) (s : State) : (takeFault e i0 i1 i2 s).draws = s.draws := rfl
@[simp] theorem takeFault_agenda (e : ErrCode) (i0 i1 i2 : Int) (s : State) : (takeFault e i0 i1 i2 s).agenda = s.agenda := rfl
@[simp] theorem takeFault_seen (e : ErrCode) (i0 i1 i2 : Int) (s : State) : (takeFault e i0 i1 i2 s).seen = s.seen := rfl

/-! ### `scrambleDst` -/

@[simp] theorem scrambleDst_cfg (n : Nat) (s : State) : (scrambleDst n s).cfg = s.cfg := rfl
@[simp] theorem scrambleDst_opr (n : Nat) (s : State) : (scrambleDst n s).opr = s.opr := rfl
@[simp] theorem scrambleDst_res (n : Nat) (s : State) : (scrambleDst n s).res = s.res := rfl
@[simp] theorem scrambleDst_cmd (n : Nat) (s : State) : (scrambleDst n s).cmd = s.cmd := rfl
@[simp] theorem scrambleDst_phase (n : Nat) (s : State) : (scrambleDst n s).phase = s.phase := rfl
@[simp] theorem scrambleDst_short (n : Nat) (s : State) : (scrambleDst n s).short = s.short := rfl
@[simp] theorem scrambleDst_ovr (n : Nat) (s : State) : (scrambleDst n s).ovr = s.ovr := rfl
@[simp] theorem scrambleDst_fsticky (n : Nat) (s : State) : (scrambleDst n s).fsticky = s.fsticky := rfl
@[simp] theorem scrambleDst_fcode (n : Nat) (s : State) : (scrambleDst n s).fcode = s.fcode := rfl
@[simp] theorem scrambleDst_finfo0 (n : Nat) (s : State) : (scrambleDst n s).finfo0 = s.finfo0 := rfl
@[simp] theorem scrambleDst_finfo1 (n : Nat) (s : State) : (scrambleDst n s).finfo1 = s.finfo1 := rfl
@[simp] theorem scrambleDst_finfo2 (n : Nat) (s : State) : (scrambleDst n s).finfo2 = s.finfo2 := rfl
@[simp] theorem scrambleDst_mem (n : Nat) (s : State) : (scrambleDst n s).mem = Memory.writeList s.mem s.dstBase ((List.range n).map (Config.midStreamByte s.draws)) := rfl
@[simp] theorem scrambleDst_memEpoch (n : Nat) (s : State) : (scrambleDst n s).memEpoch = s.memEpoch := rfl
@[simp] theorem scrambleDst_draws (n : Nat) (s : State) : (scrambleDst n s).draws = s.draws + 1 := rfl
@[simp] theorem scrambleDst_agenda (n : Nat) (s : State) : (scrambleDst n s).agenda = s.agenda := rfl
@[simp] theorem scrambleDst_seen (n : Nat) (s : State) : (scrambleDst n s).seen = s.seen := rfl

/-! ### `acknowledge` -/

@[simp] theorem acknowledge_cfg (s : State) : (acknowledge s).cfg = s.cfg := rfl
@[simp] theorem acknowledge_opr (s : State) : (acknowledge s).opr = s.opr := rfl
@[simp] theorem acknowledge_res (s : State) : (acknowledge s).res = s.res := rfl
@[simp] theorem acknowledge_cmd (s : State) : (acknowledge s).cmd = 0x00000001 := rfl
@[simp] theorem acknowledge_phase (s : State) : (acknowledge s).phase = .idle := rfl
@[simp] theorem acknowledge_short (s : State) : (acknowledge s).short = s.short := rfl
@[simp] theorem acknowledge_ovr (s : State) : (acknowledge s).ovr = false := rfl
@[simp] theorem acknowledge_fsticky (s : State) : (acknowledge s).fsticky = s.fsticky := rfl
@[simp] theorem acknowledge_fcode (s : State) : (acknowledge s).fcode = 0 := rfl
@[simp] theorem acknowledge_finfo0 (s : State) : (acknowledge s).finfo0 = 0 := rfl
@[simp] theorem acknowledge_finfo1 (s : State) : (acknowledge s).finfo1 = 0 := rfl
@[simp] theorem acknowledge_finfo2 (s : State) : (acknowledge s).finfo2 = 0 := rfl
@[simp] theorem acknowledge_mem (s : State) : (acknowledge s).mem = s.mem := rfl
@[simp] theorem acknowledge_memEpoch (s : State) : (acknowledge s).memEpoch = s.memEpoch := rfl
@[simp] theorem acknowledge_draws (s : State) : (acknowledge s).draws = s.draws := rfl
@[simp] theorem acknowledge_agenda (s : State) : (acknowledge s).agenda = s.agenda := rfl
@[simp] theorem acknowledge_seen (s : State) : (acknowledge s).seen = s.seen := rfl

/-! ### `finish` -/

@[simp] theorem finish_cfg (r0 r1 r2 r3 : Nat) (short : Option Bool) (out outAux : List Byte) (s : State) : (finish r0 r1 r2 r3 short out outAux s).cfg = s.cfg := rfl
@[simp] theorem finish_opr (r0 r1 r2 r3 : Nat) (short : Option Bool) (out outAux : List Byte) (s : State) : (finish r0 r1 r2 r3 short out outAux s).opr = s.opr := rfl
@[simp] theorem finish_res (r0 r1 r2 r3 : Nat) (short : Option Bool) (out outAux : List Byte) (s : State) : (finish r0 r1 r2 r3 short out outAux s).res = #v[BitVec.ofNat 32 r0, BitVec.ofNat 32 r1, BitVec.ofNat 32 r2, BitVec.ofNat 32 r3] := rfl
@[simp] theorem finish_cmd (r0 r1 r2 r3 : Nat) (short : Option Bool) (out outAux : List Byte) (s : State) : (finish r0 r1 r2 r3 short out outAux s).cmd = s.cmd := rfl
@[simp] theorem finish_phase (r0 r1 r2 r3 : Nat) (short : Option Bool) (out outAux : List Byte) (s : State) : (finish r0 r1 r2 r3 short out outAux s).phase = .done := rfl
@[simp] theorem finish_short (r0 r1 r2 r3 : Nat) (short : Option Bool) (out outAux : List Byte) (s : State) : (finish r0 r1 r2 r3 short out outAux s).short = short.getD s.short := rfl
@[simp] theorem finish_ovr (r0 r1 r2 r3 : Nat) (short : Option Bool) (out outAux : List Byte) (s : State) : (finish r0 r1 r2 r3 short out outAux s).ovr = s.ovr := rfl
@[simp] theorem finish_fsticky (r0 r1 r2 r3 : Nat) (short : Option Bool) (out outAux : List Byte) (s : State) : (finish r0 r1 r2 r3 short out outAux s).fsticky = s.fsticky := rfl
@[simp] theorem finish_fcode (r0 r1 r2 r3 : Nat) (short : Option Bool) (out outAux : List Byte) (s : State) : (finish r0 r1 r2 r3 short out outAux s).fcode = s.fcode := rfl
@[simp] theorem finish_finfo0 (r0 r1 r2 r3 : Nat) (short : Option Bool) (out outAux : List Byte) (s : State) : (finish r0 r1 r2 r3 short out outAux s).finfo0 = s.finfo0 := rfl
@[simp] theorem finish_finfo1 (r0 r1 r2 r3 : Nat) (short : Option Bool) (out outAux : List Byte) (s : State) : (finish r0 r1 r2 r3 short out outAux s).finfo1 = s.finfo1 := rfl
@[simp] theorem finish_finfo2 (r0 r1 r2 r3 : Nat) (short : Option Bool) (out outAux : List Byte) (s : State) : (finish r0 r1 r2 r3 short out outAux s).finfo2 = s.finfo2 := rfl
@[simp] theorem finish_mem (r0 r1 r2 r3 : Nat) (short : Option Bool) (out outAux : List Byte) (s : State) : (finish r0 r1 r2 r3 short out outAux s).mem = Memory.writeList (Memory.writeList s.mem s.dstBase out) s.auxBase outAux := rfl
@[simp] theorem finish_memEpoch (r0 r1 r2 r3 : Nat) (short : Option Bool) (out outAux : List Byte) (s : State) : (finish r0 r1 r2 r3 short out outAux s).memEpoch = s.memEpoch := rfl
@[simp] theorem finish_draws (r0 r1 r2 r3 : Nat) (short : Option Bool) (out outAux : List Byte) (s : State) : (finish r0 r1 r2 r3 short out outAux s).draws = s.draws := rfl
@[simp] theorem finish_agenda (r0 r1 r2 r3 : Nat) (short : Option Bool) (out outAux : List Byte) (s : State) : (finish r0 r1 r2 r3 short out outAux s).agenda = s.agenda := rfl
@[simp] theorem finish_seen (r0 r1 r2 r3 : Nat) (short : Option Bool) (out outAux : List Byte) (s : State) : (finish r0 r1 r2 r3 short out outAux s).seen = s.seen := rfl

/-! ### `accept` -/

@[simp] theorem accept_cfg (w : Word) (s : State) : (accept w s).cfg = s.cfg := rfl
@[simp] theorem accept_opr (w : Word) (s : State) : (accept w s).opr = s.opr := rfl
@[simp] theorem accept_res (w : Word) (s : State) : (accept w s).res = #v[0, 0, 0, 0] := rfl
@[simp] theorem accept_cmd (w : Word) (s : State) : (accept w s).cmd = w := rfl
@[simp] theorem accept_phase (w : Word) (s : State) : (accept w s).phase = .busy := rfl
@[simp] theorem accept_short (w : Word) (s : State) : (accept w s).short = false := rfl
@[simp] theorem accept_ovr (w : Word) (s : State) : (accept w s).ovr = s.ovr := rfl
@[simp] theorem accept_fsticky (w : Word) (s : State) : (accept w s).fsticky = s.fsticky := rfl
@[simp] theorem accept_fcode (w : Word) (s : State) : (accept w s).fcode = s.fcode := rfl
@[simp] theorem accept_finfo0 (w : Word) (s : State) : (accept w s).finfo0 = s.finfo0 := rfl
@[simp] theorem accept_finfo1 (w : Word) (s : State) : (accept w s).finfo1 = s.finfo1 := rfl
@[simp] theorem accept_finfo2 (w : Word) (s : State) : (accept w s).finfo2 = s.finfo2 := rfl
@[simp] theorem accept_mem (w : Word) (s : State) : (accept w s).mem = s.mem := rfl
@[simp] theorem accept_memEpoch (w : Word) (s : State) : (accept w s).memEpoch = s.memEpoch := rfl
@[simp] theorem accept_draws (w : Word) (s : State) : (accept w s).draws = s.draws := rfl
@[simp] theorem accept_agenda (w : Word) (s : State) : (accept w s).agenda = s.agenda := rfl
@[simp] theorem accept_seen (w : Word) (s : State) : (accept w s).seen = s.seen := rfl

/-! ### `hardReset` -/

@[simp] theorem hardReset_cfg (s : State) : (hardReset s).cfg = s.cfg := rfl
@[simp] theorem hardReset_opr (s : State) : (hardReset s).opr = Vector.replicate 12 0 := rfl
@[simp] theorem hardReset_res (s : State) : (hardReset s).res = Vector.replicate 4 0 := rfl
@[simp] theorem hardReset_cmd (s : State) : (hardReset s).cmd = 0 := rfl
@[simp] theorem hardReset_phase (s : State) : (hardReset s).phase = .idle := rfl
@[simp] theorem hardReset_short (s : State) : (hardReset s).short = false := rfl
@[simp] theorem hardReset_ovr (s : State) : (hardReset s).ovr = false := rfl
@[simp] theorem hardReset_fsticky (s : State) : (hardReset s).fsticky = false := rfl
@[simp] theorem hardReset_fcode (s : State) : (hardReset s).fcode = 0 := rfl
@[simp] theorem hardReset_finfo0 (s : State) : (hardReset s).finfo0 = 0 := rfl
@[simp] theorem hardReset_finfo1 (s : State) : (hardReset s).finfo1 = 0 := rfl
@[simp] theorem hardReset_finfo2 (s : State) : (hardReset s).finfo2 = 0 := rfl
@[simp] theorem hardReset_mem (s : State) : (hardReset s).mem = [] := rfl
@[simp] theorem hardReset_memEpoch (s : State) : (hardReset s).memEpoch = s.memEpoch + 1 := rfl
@[simp] theorem hardReset_draws (s : State) : (hardReset s).draws = s.draws := rfl
@[simp] theorem hardReset_agenda (s : State) : (hardReset s).agenda = s.agenda := rfl
@[simp] theorem hardReset_seen (s : State) : (hardReset s).seen = s.seen := rfl

/-! ### `hostRead` -/

@[simp] theorem hostRead_cfg (offset : Nat) (s : State) : (hostRead offset s).cfg = s.cfg := rfl
@[simp] theorem hostRead_opr (offset : Nat) (s : State) : (hostRead offset s).opr = s.opr := rfl
@[simp] theorem hostRead_res (offset : Nat) (s : State) : (hostRead offset s).res = s.res := rfl
@[simp] theorem hostRead_cmd (offset : Nat) (s : State) : (hostRead offset s).cmd = s.cmd := rfl
@[simp] theorem hostRead_phase (offset : Nat) (s : State) : (hostRead offset s).phase = s.phase := rfl
@[simp] theorem hostRead_short (offset : Nat) (s : State) : (hostRead offset s).short = s.short := rfl
@[simp] theorem hostRead_ovr (offset : Nat) (s : State) : (hostRead offset s).ovr = s.ovr := rfl
@[simp] theorem hostRead_fsticky (offset : Nat) (s : State) : (hostRead offset s).fsticky = s.fsticky := rfl
@[simp] theorem hostRead_fcode (offset : Nat) (s : State) : (hostRead offset s).fcode = s.fcode := rfl
@[simp] theorem hostRead_finfo0 (offset : Nat) (s : State) : (hostRead offset s).finfo0 = s.finfo0 := rfl
@[simp] theorem hostRead_finfo1 (offset : Nat) (s : State) : (hostRead offset s).finfo1 = s.finfo1 := rfl
@[simp] theorem hostRead_finfo2 (offset : Nat) (s : State) : (hostRead offset s).finfo2 = s.finfo2 := rfl
@[simp] theorem hostRead_mem (offset : Nat) (s : State) : (hostRead offset s).mem = s.mem := rfl
@[simp] theorem hostRead_memEpoch (offset : Nat) (s : State) : (hostRead offset s).memEpoch = s.memEpoch := rfl
@[simp] theorem hostRead_draws (offset : Nat) (s : State) : (hostRead offset s).draws = s.draws := rfl
@[simp] theorem hostRead_agenda (offset : Nat) (s : State) : (hostRead offset s).agenda = s.agenda := rfl
@[simp] theorem hostRead_seen (offset : Nat) (s : State) : (hostRead offset s).seen = .reg offset (readReg s offset) := rfl

/-! ### `writeOperand` -/

@[simp] theorem writeOperand_cfg (i : Fin 12) (v : Word) (s : State) : (writeOperand i v s).cfg = s.cfg := by
  unfold writeOperand; split <;> rfl
theorem writeOperand_opr (i : Fin 12) (v : Word) (s : State) :
    (writeOperand i v s).opr = if s.phase = .busy then s.opr else s.opr.set i v := by
  unfold writeOperand; split <;> rfl
@[simp] theorem writeOperand_res (i : Fin 12) (v : Word) (s : State) : (writeOperand i v s).res = s.res := by
  unfold writeOperand; split <;> rfl
@[simp] theorem writeOperand_cmd (i : Fin 12) (v : Word) (s : State) : (writeOperand i v s).cmd = s.cmd := by
  unfold writeOperand; split <;> rfl
@[simp] theorem writeOperand_phase (i : Fin 12) (v : Word) (s : State) : (writeOperand i v s).phase = s.phase := by
  unfold writeOperand; split <;> rfl
@[simp] theorem writeOperand_short (i : Fin 12) (v : Word) (s : State) : (writeOperand i v s).short = s.short := by
  unfold writeOperand; split <;> rfl
theorem writeOperand_ovr (i : Fin 12) (v : Word) (s : State) :
    (writeOperand i v s).ovr = if s.phase = .busy then true else s.ovr := by
  unfold writeOperand; split <;> rfl
@[simp] theorem writeOperand_fsticky (i : Fin 12) (v : Word) (s : State) : (writeOperand i v s).fsticky = s.fsticky := by
  unfold writeOperand; split <;> rfl
@[simp] theorem writeOperand_fcode (i : Fin 12) (v : Word) (s : State) : (writeOperand i v s).fcode = s.fcode := by
  unfold writeOperand; split <;> rfl
@[simp] theorem writeOperand_finfo0 (i : Fin 12) (v : Word) (s : State) : (writeOperand i v s).finfo0 = s.finfo0 := by
  unfold writeOperand; split <;> rfl
@[simp] theorem writeOperand_finfo1 (i : Fin 12) (v : Word) (s : State) : (writeOperand i v s).finfo1 = s.finfo1 := by
  unfold writeOperand; split <;> rfl
@[simp] theorem writeOperand_finfo2 (i : Fin 12) (v : Word) (s : State) : (writeOperand i v s).finfo2 = s.finfo2 := by
  unfold writeOperand; split <;> rfl
@[simp] theorem writeOperand_mem (i : Fin 12) (v : Word) (s : State) : (writeOperand i v s).mem = s.mem := by
  unfold writeOperand; split <;> rfl
@[simp] theorem writeOperand_memEpoch (i : Fin 12) (v : Word) (s : State) : (writeOperand i v s).memEpoch = s.memEpoch := by
  unfold writeOperand; split <;> rfl
@[simp] theorem writeOperand_draws (i : Fin 12) (v : Word) (s : State) : (writeOperand i v s).draws = s.draws := by
  unfold writeOperand; split <;> rfl
@[simp] theorem writeOperand_agenda (i : Fin 12) (v : Word) (s : State) : (writeOperand i v s).agenda = s.agenda := by
  unfold writeOperand; split <;> rfl
@[simp] theorem writeOperand_seen (i : Fin 12) (v : Word) (s : State) : (writeOperand i v s).seen = s.seen := by
  unfold writeOperand; split <;> rfl

end Sys2Proof.Machine
end

