-- ==== Sys2Proof/Laws/Memory.lean ====
section
/-! SUPPORT. What the memory operations do: reading after writing, and the canonical form kept by every one of them. -/

namespace Sys2Proof.Machine

@[simp] theorem Memory.lookup_nil (k : Nat) : Memory.lookup [] k = none := rfl

/-- Reading after listing a byte gives the byte there and what was read before everywhere else. -/
theorem Memory.lookup_insert (m : Memory) (k : Nat) (v : Byte) (j : Nat) :
    Memory.lookup (Memory.insert m k v) j = if k = j then some v else Memory.lookup m j := by
  induction m with
  | nil => simp [Memory.insert, Memory.lookup]
  | cons c m ih =>
    obtain ⟨a, b⟩ := c
    unfold Memory.insert
    split
    · simp [Memory.lookup]
    · split
      · next h => subst h; by_cases hj : k = j <;> simp [Memory.lookup, hj]
      · next h =>
        simp only [Memory.lookup, ih]
        by_cases ha : a = j
        · have : ¬ k = j := fun hk => h (hk.trans ha.symm)
          simp [ha, this]
        · simp [ha]

/-- Reading after writing a list of bytes: the byte written there, or what was read before. -/
theorem Memory.lookup_writeList (m : Memory) (a : Nat) (bs : List Byte) (j : Nat) :
    Memory.lookup (Memory.writeList m a bs) j =
      if a ≤ j ∧ j < a + bs.length then bs[j - a]? else Memory.lookup m j := by
  induction bs generalizing m a with
  | nil =>
    have : ¬ (a ≤ j ∧ j < a) := by omega
    simp [Memory.writeList, this]
  | cons b bs ih =>
    simp only [Memory.writeList, ih, Memory.lookup_insert, List.length_cons]
    by_cases h1 : a = j
    · subst h1
      have h2 : ¬ (a + 1 ≤ a ∧ a < a + 1 + bs.length) := by omega
      have h3 : a ≤ a ∧ a < a + (bs.length + 1) := by omega
      rw [if_neg h2, if_pos h3]
      simp
    · by_cases h2 : a + 1 ≤ j ∧ j < a + 1 + bs.length
      · have h3 : a ≤ j ∧ j < a + (bs.length + 1) := by omega
        obtain ⟨d, hd⟩ : ∃ d, j - a = d + 1 := ⟨j - a - 1, by omega⟩
        have h4 : j - (a + 1) = d := by omega
        rw [if_pos h2, if_pos h3, hd, h4]
        simp
      · have h3 : ¬ (a ≤ j ∧ j < a + (bs.length + 1)) := by omega
        rw [if_neg h2, if_neg h3, if_neg h1]

theorem Memory.mem_insert {m : Memory} {k : Nat} {v : Byte} {c : Host.Cell} (h : c ∈ Memory.insert m k v) :
    c = (k, v) ∨ c ∈ m := by
  induction m with
  | nil => simpa [Memory.insert] using h
  | cons d m ih =>
    obtain ⟨a, b⟩ := d
    unfold Memory.insert at h
    split at h
    · simpa using h
    · split at h
      · simp only [List.mem_cons] at h ⊢; tauto
      · simp only [List.mem_cons] at h ⊢
        rcases h with h | h
        · tauto
        · have := ih h; tauto

/-- Listing a byte keeps the canonical form. -/
theorem Memory.wf_insert {m : Memory} (hm : Memory.wf m) (k : Nat) (v : Byte) : Memory.wf (Memory.insert m k v) := by
  induction m with
  | nil => simp [Memory.insert, Memory.wf]
  | cons d m ih =>
    obtain ⟨a, b⟩ := d
    have hm' := List.pairwise_cons.1 hm
    unfold Memory.insert
    split
    · next h =>
      refine List.pairwise_cons.2 ⟨?_, hm⟩
      intro c hc
      rcases List.mem_cons.1 hc with rfl | hc
      · exact h
      · exact Nat.lt_trans h (hm'.1 c hc)
    · split
      · next h => subst h; exact List.pairwise_cons.2 ⟨hm'.1, hm'.2⟩
      · refine List.pairwise_cons.2 ⟨?_, ih hm'.2⟩
        intro c hc
        rcases Memory.mem_insert hc with rfl | hc
        · show a < k; omega
        · exact hm'.1 c hc

/-- Writing bytes keeps the canonical form. -/
theorem Memory.wf_writeList {m : Memory} (hm : Memory.wf m) (a : Nat) (bs : List Byte) :
    Memory.wf (Memory.writeList m a bs) := by
  induction bs generalizing m a with
  | nil => exact hm
  | cons b bs ih => exact ih (Memory.wf_insert hm a b) (a + 1)

/-- Writing bytes below a limit keeps every listed address below it. -/
theorem Memory.below_writeList {m : Memory} {lim : Nat} (hm : ∀ c ∈ m, c.1 < lim) (a : Nat) (bs : List Byte)
    (h : bs = [] ∨ a + bs.length ≤ lim) : ∀ c ∈ Memory.writeList m a bs, c.1 < lim := by
  induction bs generalizing m a with
  | nil => exact hm
  | cons b bs ih =>
    have hl : a + (bs.length + 1) ≤ lim := by simpa using h
    refine ih (m := Memory.insert m a b) ?_ (a + 1) (Or.inr (by omega))
    intro c hc
    rcases Memory.mem_insert hc with rfl | hc
    · show a < lim; omega
    · exact hm c hc

@[simp] theorem Memory.writeList_nil (m : Memory) (a : Nat) : Memory.writeList m a [] = m := rfl

/-- The memory of the reset state is in canonical form. -/
theorem reset_mem_wf : Memory.wf State.reset.mem := List.Pairwise.nil

/-- A byte inside the bytes just stored reads as stored. -/
theorem byteAt_storeBytes_inside (s : State) (a : Nat) (bs : List Byte) (j : Nat) (h : j < bs.length) :
    (s.storeBytes a bs).byteAt (a + j) = bs[j] := by
  have h1 : a ≤ a + j ∧ a + j < a + bs.length := by omega
  simp [State.byteAt, Memory.lookup_writeList, h]

/-- A byte outside the bytes just stored reads as before. -/
theorem byteAt_storeBytes_outside (s : State) (a : Nat) (bs : List Byte) (k : Nat) (h : k < a ∨ a + bs.length ≤ k) :
    (s.storeBytes a bs).byteAt k = s.byteAt k := by
  have h1 : ¬ (a ≤ k ∧ k < a + bs.length) := by omega
  simp [State.byteAt, Memory.lookup_writeList, h1]

/-- What a byte reads as depends on the memory and the epoch only. -/
theorem byteAt_congr {s t : State} (hm : t.mem = s.mem) (he : t.memEpoch = s.memEpoch) (a : Nat) :
    t.byteAt a = s.byteAt a := by
  unfold State.byteAt; rw [hm, he]

/-- Every byte after a command finished: its output in `DST`, its second output in `AUX`, everything else as before. -/
theorem byteAt_finish (r0 r1 r2 r3 : Nat) (short : Option Bool) (out outAux : List Byte) (s : State) (a : Nat) :
    (finish r0 r1 r2 r3 short out outAux s).byteAt a =
      ((s.storeBytes s.dstBase out).storeBytes s.auxBase outAux).byteAt a :=
  byteAt_congr rfl rfl a

@[simp] theorem byteAt_takeFault (e : ErrCode) (i0 i1 i2 : Int) (s : State) (a : Nat) :
    (takeFault e i0 i1 i2 s).byteAt a = s.byteAt a :=
  byteAt_congr rfl rfl a

/-- A mid-stream fault leaves every byte outside `DST[0 .. n)` as it was (R263). -/
theorem byteAt_scrambleDst_outside (n : Nat) (s : State) (a : Nat) (h : a < s.dstBase ∨ s.dstBase + n ≤ a) :
    (scrambleDst n s).byteAt a = s.byteAt a := by
  have := byteAt_storeBytes_outside s s.dstBase ((List.range n).map (Config.midStreamByte s.draws)) a (by simpa using h)
  rw [← this]; exact byteAt_congr rfl rfl a

end Sys2Proof.Machine
end

