-- ==== Sys2Proof/Laws/Ops.lean ====
section
/-! SUPPORT. What the shared operations can do, said once: the region check, the verdicts, the complete step. -/

namespace Sys2Proof.Machine

/-! ### The region check (R58) -/

theorem outOfMem_eq_none (ro : Roles) (s : State) (r : Region) :
    outOfMem ro s r = none ↔ (ro.uses r = true → s.base r + s.len r ≤ s.cfg.memSize) := by
  unfold outOfMem
  by_cases hu : ro.uses r = true <;> simp [hu]

theorem overlap_eq_none (ro : Roles) (s : State) (a b : Region) :
    overlap ro s a b = none ↔
      (ro.uses a = true → ro.uses b = true → (a ∈ ro.out ∨ b ∈ ro.out) → 0 < s.len a → 0 < s.len b →
        s.base b + s.len b ≤ s.base a ∨ s.base a + s.len a ≤ s.base b) := by
  unfold overlap
  split
  · next h =>
    simp only [Bool.and_eq_true, Bool.or_eq_true, decide_eq_true_eq] at h
    constructor
    · intro h'; cases h'
    · intro h'; have := h' h.1.1.1.1.1.1 h.1.1.1.1.1.2 h.1.1.1.1.2 h.1.1.1.2 h.1.1.2; omega
  · next h =>
    simp only [Bool.and_eq_true, Bool.or_eq_true, decide_eq_true_eq] at h
    constructor
    · intro _ ha hb ho hla hlb
      by_contra hc
      exact h ⟨⟨⟨⟨⟨⟨ha, hb⟩, ho⟩, hla⟩, hlb⟩, by omega⟩, by omega⟩
    · intro _; rfl

/-- The region check passes exactly when each of its six tests does. -/
theorem regionFault_eq_none (ro : Roles) (s : State) :
    regionFault ro s = none ↔
      outOfMem ro s .src = none ∧ outOfMem ro s .dst = none ∧ outOfMem ro s .aux = none ∧
        overlap ro s .src .dst = none ∧ overlap ro s .src .aux = none ∧ overlap ro s .dst .aux = none := by
  simp [regionFault, Option.or_eq_none_iff]

/-- After the region check a used region lies wholly inside `MEM`. -/
theorem regionFault_inside {ro : Roles} {s : State} (h : regionFault ro s = none) {r : Region} (hr : ro.uses r = true) :
    s.base r + s.len r ≤ s.cfg.memSize := by
  obtain ⟨h0, h1, h2, -⟩ := (regionFault_eq_none ro s).1 h
  cases r
  · exact (outOfMem_eq_none ro s .src).1 h0 hr
  · exact (outOfMem_eq_none ro s .dst).1 h1 hr
  · exact (outOfMem_eq_none ro s .aux).1 h2 hr

theorem regionFault_dst_inside {ro : Roles} {s : State} (h : regionFault ro s = none) (hr : ro.uses .dst = true) :
    s.dstBase + s.dstLen ≤ s.cfg.memSize :=
  regionFault_inside h hr

theorem regionFault_aux_inside {ro : Roles} {s : State} (h : regionFault ro s = none) (hr : ro.uses .aux = true) :
    s.auxBase + s.auxLen ≤ s.cfg.memSize :=
  regionFault_inside h hr

/-! ### The complete step (R233) -/

/-- Everything the complete step can do: a region fault, or what the command's rule answers. -/
theorem complete_cases (ro : Roles) (rule : State → Verdict) (s : State) :
    (∃ i0 i1 i2, regionFault ro s = some (i0, i1, i2) ∧ complete ro rule s = takeFault .region i0 i1 i2 s) ∨
    (regionFault ro s = none ∧ complete ro rule s = conclude (rule s) s) := by
  unfold complete
  cases h : regionFault ro s with
  | none => exact Or.inr ⟨rfl, rfl⟩
  | some p => obtain ⟨i0, i1, i2⟩ := p; exact Or.inl ⟨i0, i1, i2, rfl, rfl⟩

theorem complete_of_region_ok {ro : Roles} {rule : State → Verdict} {s : State} (h : regionFault ro s = none) :
    complete ro rule s = conclude (rule s) s := by
  simp [complete, h]

theorem complete_of_region_fault {ro : Roles} {rule : State → Verdict} {s : State} {i0 i1 i2 : Nat}
    (h : regionFault ro s = some (i0, i1, i2)) : complete ro rule s = takeFault .region i0 i1 i2 s := by
  simp [complete, h]

theorem takeFault_frame (e : ErrCode) (i0 i1 i2 : Int) (s : State) : EngineFrame s (takeFault e i0 i1 i2 s) := by
  simp [EngineFrame]

theorem finish_frame (r0 r1 r2 r3 : Nat) (short : Option Bool) (out outAux : List Byte) (s : State) :
    EngineFrame s (finish r0 r1 r2 r3 short out outAux s) := by
  simp [EngineFrame]

theorem conclude_frame (v : Verdict) (s : State) : EngineFrame s (conclude v s) := by
  cases v <;> simp [conclude, EngineFrame]

/-- No complete step changes what belongs to the host. -/
theorem complete_frame (ro : Roles) (rule : State → Verdict) (s : State) : EngineFrame s (complete ro rule s) := by
  rcases complete_cases ro rule s with ⟨i0, i1, i2, -, h⟩ | ⟨-, h⟩
  · rw [h]; exact takeFault_frame ..
  · rw [h]; exact conclude_frame ..

theorem conclude_phase (v : Verdict) (s : State) : (conclude v s).phase = .done ∨ (conclude v s).phase = .fault := by
  cases v <;> simp [conclude]

/-- A complete step ends in `DONE` or in `FAULT` (R29). -/
theorem complete_phase (ro : Roles) (rule : State → Verdict) (s : State) :
    (complete ro rule s).phase = .done ∨ (complete ro rule s).phase = .fault := by
  rcases complete_cases ro rule s with ⟨i0, i1, i2, -, h⟩ | ⟨-, h⟩
  · rw [h]; simp
  · rw [h]; exact conclude_phase ..

/-- Taking a fault, in the words of claims. -/
theorem takeFault_preFaulted (e : ErrCode) (i0 i1 i2 : Int) (s : State) : PreFaulted s (takeFault e i0 i1 i2 s) e i0 i1 i2 := by
  simp [PreFaulted, Faulted, EngineFrame]

/-- A mid-stream fault, in the words of claims. -/
theorem midFault_midFaulted (e : ErrCode) (i0 i1 i2 : Int) (n : Nat) (s : State) :
    MidFaulted s (takeFault e i0 i1 i2 (scrambleDst n s)) e i0 i1 i2 n := by
  refine ⟨by simp [Faulted, EngineFrame], ?_⟩
  intro a ha
  have := ha (s.dstBase, n) (by simp)
  rw [byteAt_takeFault]
  exact byteAt_scrambleDst_outside n s a this

/-- Every byte after a command finished with output in `DST` only. -/
theorem byteAt_finish_dst (r0 r1 r2 r3 : Nat) (short : Option Bool) (out : List Byte) (s : State) :
    (∀ j (h : j < out.length), (finish r0 r1 r2 r3 short out [] s).byteAt (s.dstBase + j) = out[j]) ∧
    UnchangedOutside s (finish r0 r1 r2 r3 short out [] s) [(s.dstBase, out.length)] := by
  constructor
  · intro j h
    rw [byteAt_finish]
    have := byteAt_storeBytes_inside s s.dstBase out j h
    rw [← this]; exact byteAt_congr rfl rfl _
  · intro a ha
    have := ha (s.dstBase, out.length) (by simp)
    rw [byteAt_finish, ← byteAt_storeBytes_outside s s.dstBase out a this]; exact byteAt_congr rfl rfl _

/-- Every byte after a command finished with output in `DST` and in a disjoint `AUX`. -/
theorem byteAt_finish_both (r0 r1 r2 r3 : Nat) (short : Option Bool) (out outAux : List Byte) (s : State)
    (hd : out.length = 0 ∨ outAux.length = 0 ∨ s.dstBase + out.length ≤ s.auxBase ∨ s.auxBase + outAux.length ≤ s.dstBase) :
    (∀ j (h : j < out.length), (finish r0 r1 r2 r3 short out outAux s).byteAt (s.dstBase + j) = out[j]) ∧
    (∀ j (h : j < outAux.length), (finish r0 r1 r2 r3 short out outAux s).byteAt (s.auxBase + j) = outAux[j]) ∧
    UnchangedOutside s (finish r0 r1 r2 r3 short out outAux s) [(s.dstBase, out.length), (s.auxBase, outAux.length)] := by
  refine ⟨?_, ?_, ?_⟩
  · intro j h
    rw [byteAt_finish, byteAt_storeBytes_outside _ s.auxBase outAux _ (by omega), byteAt_storeBytes_inside s s.dstBase out j h]
  · intro j h
    rw [byteAt_finish, byteAt_storeBytes_inside _ s.auxBase outAux j h]
  · intro a ha
    have h1 := ha (s.dstBase, out.length) (by simp)
    have h2 := ha (s.auxBase, outAux.length) (by simp)
    rw [byteAt_finish, byteAt_storeBytes_outside _ s.auxBase outAux a h2, byteAt_storeBytes_outside s s.dstBase out a h1]

/-- The bytes stored by a verdict fit the regions they go to. -/
abbrev Verdict.fits (v : Verdict) (s : State) : Prop :=
  match v with
  | .done _ _ _ _ _ out outAux => out.length ≤ s.dstLen ∧ outAux.length ≤ s.auxLen
  | .preFault _ _ _ _ => True
  | .midFault _ _ _ _ n => n ≤ s.dstLen

/-! ### Operand registers are 32 bits -/

theorem srcBase_lt (s : State) : s.srcBase < 2 ^ 32 := s.opr[0].isLt
theorem srcLen_lt (s : State) : s.srcLen < 2 ^ 32 := s.opr[1].isLt
theorem dstBase_lt (s : State) : s.dstBase < 2 ^ 32 := s.opr[2].isLt
theorem dstLen_lt (s : State) : s.dstLen < 2 ^ 32 := s.opr[3].isLt
theorem auxBase_lt (s : State) : s.auxBase < 2 ^ 32 := s.opr[4].isLt
theorem auxLen_lt (s : State) : s.auxLen < 2 ^ 32 := s.opr[5].isLt
theorem width_lt (s : State) : s.width < 2 ^ 32 := s.opr[6].isLt
theorem height_lt (s : State) : s.height < 2 ^ 32 := s.opr[7].isLt
theorem stride_lt (s : State) : s.stride < 2 ^ 32 := s.opr[8].isLt
theorem arg_lt (s : State) : s.arg < 2 ^ 32 := s.opr[9].isLt
theorem blkw_lt (s : State) : s.blkw < 2 ^ 32 := s.opr[10].isLt
theorem blkh_lt (s : State) : s.blkh < 2 ^ 32 := s.opr[11].isLt

@[simp] theorem sliceOf_length (r : Nat → Byte) (a n : Nat) : (sliceOf r a n).length = n := by
  simp [sliceOf]

@[simp] theorem sliceOf_getElem (r : Nat → Byte) (a n j : Nat) (h : j < (sliceOf r a n).length) :
    (sliceOf r a n)[j] = r (a + j) := by
  simp [sliceOf]

theorem le16At_lt (r : Nat → Byte) (j : Nat) : le16At r j < 2 ^ 16 := by
  have h0 := (r j).isLt; have h1 := (r (j + 1)).isLt
  unfold le16At; omega

theorem le32At_lt (r : Nat → Byte) (j : Nat) : le32At r j < 2 ^ 32 := by
  have h0 := (r j).isLt; have h1 := (r (j + 1)).isLt; have h2 := (r (j + 2)).isLt; have h3 := (r (j + 3)).isLt
  unfold le32At; omega

/-- A number below 2^32 is what its 32-bit word holds. -/
theorem toNat_ofNat32 {v : Nat} (h : v < 2 ^ 32) : (BitVec.ofNat 32 v).toNat = v := by
  simp only [BitVec.toNat_ofNat]; omega

/-- A finished command completed, when its results fit their registers. -/
theorem finish_completed {r0 r1 r2 r3 : Nat} (short : Option Bool) (out outAux : List Byte) (s : State)
    (h0 : r0 < 2 ^ 32) (h1 : r1 < 2 ^ 32) (h2 : r2 < 2 ^ 32) (h3 : r3 < 2 ^ 32) :
    Completed s (finish r0 r1 r2 r3 short out outAux s) r0 r1 r2 r3 := by
  refine ⟨finish_frame .., rfl, ⟨?_, ?_, ?_, ?_⟩, rfl, rfl, rfl, rfl, rfl, rfl⟩
  · exact toNat_ofNat32 h0
  · exact toNat_ofNat32 h1
  · exact toNat_ofNat32 h2
  · exact toNat_ofNat32 h3

end Sys2Proof.Machine
end

