-- ==== Sys2Proof/Laws/PerInstr.lean ====
section
/-! SUPPORT. The statements made for each command by itself. -/

namespace Sys2Proof.Laws.HighBitsZero

/-- R90: bits 31:13 of the command's word are zero. -/
def Statement (i : Instr) : Prop :=
  (encode i).extractLsb' 13 19 = 0

theorem nop : Statement .nop := rfl
theorem ack : Statement .ack := rfl
theorem rleDec : Statement .rleDec := rfl
theorem lzwDec : Statement .lzwDec := rfl
theorem scnDec : Statement .scnDec := rfl
theorem bmkDec : Statement .bmkDec := rfl
theorem cblkDec : Statement .cblkDec := rfl
theorem chkFind : Statement .chkFind := rfl
theorem chkLen : Statement .chkLen := rfl
theorem chkWrap : Statement .chkWrap := rfl
theorem infGet : Statement .infGet := rfl
theorem pixUnpack (bpp : BitVec 4) (be : Bool) : Statement (.pixUnpack bpp be) := (formatP_fields _ bpp be).2.2.2
theorem pixPack (bpp : BitVec 4) (be : Bool) : Statement (.pixPack bpp be) := (formatP_fields _ bpp be).2.2.2
theorem pixMerge : Statement .pixMerge := rfl
theorem pixSplit : Statement .pixSplit := rfl
theorem tileDedup : Statement .tileDedup := rfl
theorem tileExpand : Statement .tileExpand := rfl

end Sys2Proof.Laws.HighBitsZero
end

