-- ==== Sys2Proof/Laws/Step.lean ====
section
/-! SUPPORT. What one step, one host write and one command can do, said once: later proofs cite these and unfold nothing. -/

namespace Sys2Proof.Machine

/-! ### Commands -/

/-- The rule of each command, where the region check passed. `NOP` has none to check. -/
def ruleOf : Instr → State → Verdict
  | .nop => fun _ => .done 0 0 0 0 none [] []
  | .ack => fun _ => .done 0 0 0 0 none [] []
  | .rleDec => rleDecRule
  | .lzwDec => lzwDecRule
  | .scnDec => scnDecRule
  | .bmkDec => bmkDecRule
  | .cblkDec => cblkDecRule
  | .chkFind => chkFindRule
  | .chkLen => chkLenRule
  | .chkWrap => chkWrapRule
  | .infGet => infGetRule
  | .pixUnpack bpp be => pixUnpackRule bpp.toNat be
  | .pixPack bpp be => pixPackRule bpp.toNat be
  | .pixMerge => pixMergeRule
  | .pixSplit => pixSplitRule
  | .tileDedup => tileDedupRule
  | .tileExpand => tileExpandRule

/-- The region check of a command that uses no region passes. -/
theorem regionFault_no_roles (s : State) : regionFault ⟨[], []⟩ s = none := by
  simp [regionFault, outOfMem, overlap, Roles.uses]

/-- Every well-formed command but `ACK` is its complete step: region check, then rule. -/
theorem exec_wf (i : Instr) (s : State) (hw : i.wf = true) (ha : i ≠ .ack) :
    exec i s = .next (complete (rolesOf i) (ruleOf i) s) := by
  cases i <;> simp_all [exec, rolesOf, ruleOf, Instr.wf] <;>
    simp_all [execNop, execRleDec, execLzwDec, execScnDec, execBmkDec, execCblkDec, execChkFind, execChkLen, execChkWrap,
      execInfGet, execPixUnpack, execPixPack, execPixMerge, execPixSplit, execTileDedup, execTileExpand, complete,
      regionFault_no_roles, conclude]

/-- A command that is not well formed faults as its illegal word does. -/
theorem exec_not_wf (i : Instr) (s : State) (hw : i.wf = false) : exec i s = .next (badCommand (encode i) s) := by
  cases i <;> simp_all [exec, Instr.wf, execPixUnpack, execPixPack]

/-- Everything a command but `ACK` can do: the fault of an ill-formed word, a region fault, or what its rule answers. -/
theorem exec_cases (i : Instr) (s : State) (ha : i ≠ .ack) :
    (i.wf = false ∧ exec i s = .next (badCommand (encode i) s)) ∨
    (∃ i0 i1 i2, i.wf = true ∧ regionFault (rolesOf i) s = some (i0, i1, i2) ∧
      exec i s = .next (takeFault .region i0 i1 i2 s)) ∨
    (i.wf = true ∧ regionFault (rolesOf i) s = none ∧ exec i s = .next (conclude (ruleOf i s) s)) := by
  cases hw : i.wf with
  | false => exact Or.inl ⟨rfl, exec_not_wf i s hw⟩
  | true =>
    right
    rw [exec_wf i s hw ha]
    rcases complete_cases (rolesOf i) (ruleOf i) s with ⟨i0, i1, i2, h, h'⟩ | ⟨h, h'⟩
    · exact Or.inl ⟨i0, i1, i2, rfl, h, by rw [h']⟩
    · exact Or.inr ⟨rfl, h, by rw [h']⟩

/-- A command after a passed region check does what its rule answers. -/
theorem exec_of_region_ok {i : Instr} {s : State} (hw : i.wf = true) (ha : i ≠ .ack) (h : regionFault (rolesOf i) s = none) :
    exec i s = .next (conclude (ruleOf i s) s) := by
  rw [exec_wf i s hw ha, complete_of_region_ok h]

/-- No command stops the machine. -/
theorem exec_next (i : Instr) (s : State) : ∃ t, exec i s = .next t := by
  by_cases ha : i = .ack
  · subst ha; exact ⟨_, rfl⟩
  · rcases exec_cases i s ha with ⟨-, h⟩ | ⟨i0, i1, i2, -, -, h⟩ | ⟨-, -, h⟩ <;> exact ⟨_, h⟩

/-- A command but `ACK` changes nothing that belongs to the host. -/
theorem exec_frame {i : Instr} {s t : State} (ha : i ≠ .ack) (h : exec i s = .next t) : EngineFrame s t := by
  rcases exec_cases i s ha with ⟨-, h'⟩ | ⟨i0, i1, i2, -, -, h'⟩ | ⟨-, -, h'⟩ <;> rw [h'] at h <;> cases h
  · exact takeFault_frame ..
  · exact takeFault_frame ..
  · exact conclude_frame ..

/-- A command but `ACK` ends in `DONE` or in `FAULT`. -/
theorem exec_phase {i : Instr} {s t : State} (ha : i ≠ .ack) (h : exec i s = .next t) : t.phase = .done ∨ t.phase = .fault := by
  rcases exec_cases i s ha with ⟨-, h'⟩ | ⟨i0, i1, i2, -, -, h'⟩ | ⟨-, -, h'⟩ <;> rw [h'] at h <;> cases h
  · exact Or.inr rfl
  · exact Or.inr rfl
  · exact conclude_phase ..

/-! ### The engine's step -/

/-- Everything the engine's step can do: the fault of an illegal word, or the decoded command. -/
theorem engineStep_cases (s : State) :
    engineStep s = .next (badCommand s.cmd s) ∨ ∃ i, decode s.cmd = .ok i ∧ i ≠ .ack ∧ engineStep s = exec i s := by
  unfold engineStep
  cases h : decode s.cmd with
  | error e => exact Or.inl rfl
  | ok i =>
    by_cases ha : i = .ack
    · left; simp [ha]
    · right; exact ⟨i, rfl, ha, by simp [ha]⟩

/-- A word that decodes to a command other than `ACK` runs it. -/
theorem engineStep_of_decode {s : State} {i : Instr} (h : decode s.cmd = .ok i) (ha : i ≠ .ack) : engineStep s = exec i s := by
  simp [engineStep, h, ha]

/-- The engine's step never stops the machine. -/
theorem engineStep_next (s : State) : ∃ t, engineStep s = .next t := by
  rcases engineStep_cases s with h | ⟨i, -, -, h⟩
  · exact ⟨_, h⟩
  · rw [h]; exact exec_next i s

theorem engineStep_frame {s t : State} (h : engineStep s = .next t) : EngineFrame s t := by
  rcases engineStep_cases s with h' | ⟨i, -, ha, h'⟩ <;> rw [h'] at h
  · cases h; exact takeFault_frame ..
  · exact exec_frame ha h

theorem engineStep_phase {s t : State} (h : engineStep s = .next t) : t.phase = .done ∨ t.phase = .fault := by
  rcases engineStep_cases s with h' | ⟨i, -, ha, h'⟩ <;> rw [h'] at h
  · cases h; exact Or.inr rfl
  · exact exec_phase ha h

/-! ### Host writes -/

/-- Everything a host write to `CMD` can do (R230). -/
theorem writeCmd_cases (w : Word) (s : State) :
    (s.phase = .busy ∧ writeCmd w s = .next s.overrun) ∨
    (s.phase ≠ .busy ∧ w = ackWord ∧ writeCmd w s = .next (acknowledge s)) ∨
    (s.phase = .fault ∧ w ≠ ackWord ∧ writeCmd w s = .next s.overrun) ∨
    ((s.phase = .idle ∨ s.phase = .done) ∧ w ≠ ackWord ∧ writeCmd w s = .next (accept w s)) := by
  unfold writeCmd execAck
  by_cases hw : w = ackWord
  · cases hp : s.phase <;> simp [hw]
  · cases hp : s.phase <;> simp [hw]

/-- Everything a host write to a register can do (R36, R42). -/
theorem writeReg_cases (offset : Nat) (v : Word) (s : State) :
    (offset = 0x40 ∧ writeReg offset v s = writeCmd v s) ∨
    (∃ k : Fin 12, offset = 4 * k.val ∧ writeReg offset v s = .next (writeOperand k v s)) ∨
    (offset ≠ 0x40 ∧ (∀ k : Fin 12, offset ≠ 4 * k.val) ∧ writeReg offset v s = .next s) := by
  unfold writeReg
  split
  · next h => exact Or.inl ⟨h, rfl⟩
  · next h =>
    right
    split
    · next h4 => exact Or.inr ⟨h, fun k hk => by omega, rfl⟩
    · next h4 =>
      split
      · next hk => exact Or.inl ⟨⟨offset / 4, hk⟩, by simp; omega, rfl⟩
      · next hk => exact Or.inr ⟨h, fun k hk' => by omega, rfl⟩

/-- A host write to a register never stops the machine. -/
theorem writeReg_next (offset : Nat) (v : Word) (s : State) : ∃ t, writeReg offset v s = .next t := by
  rcases writeReg_cases offset v s with ⟨-, h⟩ | ⟨k, -, h⟩ | ⟨-, -, h⟩
  · rw [h]
    rcases writeCmd_cases v s with ⟨-, h⟩ | ⟨-, -, h⟩ | ⟨-, -, h⟩ | ⟨-, -, h⟩ <;> exact ⟨_, h⟩
  · exact ⟨_, h⟩
  · exact ⟨_, h⟩

/-! ### One step -/

/-- Everything one step can do, by what the agenda holds (R20, R233). -/
theorem step_cases {s t : State} (h : step s = .next t) :
    (s.agenda = [] ∧ s.phase ≠ .busy ∧ t = s) ∨
    ((s.agenda = [] ∨ s.agenda.head? = some .wait) ∧ s.phase = .busy ∧ engineStep s = .next t) ∨
    (s.agenda.head? = some .engine ∧ s.phase = .busy ∧ engineStep s.popped = .next t) ∨
    (s.agenda.head? = some .engine ∧ s.phase ≠ .busy ∧ t = s.popped) ∨
    (s.agenda.head? = some .wait ∧ s.phase ≠ .busy ∧ t = hostRead 0x44 s.popped) ∨
    (∃ off v, s.agenda.head? = some (.writeReg off v) ∧ writeReg off v s.popped = .next t) ∨
    (∃ off, s.agenda.head? = some (.readReg off) ∧ t = hostRead off s.popped) ∨
    (∃ a bs, s.agenda.head? = some (.poke a bs) ∧ s.phase ≠ .busy ∧ a + bs.length ≤ s.cfg.memSize ∧
      t = s.popped.storeBytes a bs) ∨
    (∃ a n, s.agenda.head? = some (.peek a n) ∧ s.phase ≠ .busy ∧ a + n ≤ s.cfg.memSize ∧
      t = { s.popped with seen := .mem a (s.popped.bytesAt a n) }) ∨
    (s.agenda.head? = some .reset ∧ t = hardReset s.popped) := by
  unfold step turn at h
  cases hag : s.agenda with
  | nil =>
    rw [hag] at h
    simp only [engineTurn] at h
    split at h
    · next hp => exact Or.inr (Or.inl ⟨Or.inl rfl, hp, h⟩)
    · next hp => cases h; exact Or.inl ⟨rfl, hp, rfl⟩
  | cons e rest =>
    have hpop : { s with agenda := rest } = s.popped := by show _ = { s with agenda := s.agenda.tail }; rw [hag]; rfl
    rw [hag] at h
    simp only [hpop] at h
    simp only [List.head?_cons, Option.some.injEq, reduceCtorEq, false_and, false_or]
    cases e with
    | writeReg off v => simp only [happen] at h; exact Or.inr (Or.inr (Or.inr (Or.inr (Or.inl ⟨off, v, rfl, h⟩))))
    | readReg off => simp only [happen] at h; cases h; simp
    | wait =>
      simp only [happen] at h
      split at h
      · next hp =>
        have hs : { s.popped with agenda := Event.wait :: s.popped.agenda } = s := by
          show { s with agenda := Event.wait :: s.agenda.tail } = s
          rw [hag, List.tail_cons, ← hag]
        rw [hs] at h
        exact Or.inl ⟨rfl, hp, h⟩
      · next hp => cases h; have hp' : s.phase ≠ .busy := hp; simp [hp']
    | poke a bs =>
      simp only [happen, hostPoke, hostMem] at h
      split at h
      · cases h
      · next hp =>
        split at h
        · cases h
        · next hm => cases h; have hp' : s.phase ≠ .busy := hp; have : a + bs.length ≤ s.cfg.memSize := Nat.le_of_not_lt hm; simp [hp', this]
    | peek a n =>
      simp only [happen, hostPeek, hostMem] at h
      split at h
      · cases h
      · next hp =>
        split at h
        · cases h
        · next hm => cases h; have hp' : s.phase ≠ .busy := hp; have : a + n ≤ s.cfg.memSize := Nat.le_of_not_lt hm; simp [hp', this]
    | engine =>
      simp only [happen, engineTurn] at h
      split at h
      · next hp => have hp' : s.phase = .busy := hp; simp [hp', h]
      · next hp => cases h; have hp' : s.phase ≠ .busy := hp; simp [hp']
    | reset => simp only [happen] at h; cases h; simp

/-- The step of a `BUSY` machine whose agenda is empty is the engine's. -/
theorem step_engine {s : State} (hp : s.phase = .busy) (ha : s.agenda = []) : step s = engineStep s := by
  simp [step, turn, ha, engineTurn, hp]

/-- The step of a machine whose next event is a host write is that write. -/
theorem step_writeReg {s : State} {off : Nat} {v : Word} (h : s.agenda.head? = some (.writeReg off v)) :
    step s = writeReg off v s.popped := by
  cases hag : s.agenda with
  | nil => simp [hag] at h
  | cons e rest =>
    simp only [hag, List.head?_cons, Option.some.injEq] at h
    subst h
    simp [step, turn, hag, happen, State.popped]

/-! ### One step, in the words of claims -/

theorem agenda_of_head {s : State} {e : Event} (h : s.agenda.head? = some e) : s.agenda = e :: s.popped.agenda := by
  cases hag : s.agenda with
  | nil => simp [hag] at h
  | cons a l => simp [hag] at h ⊢; exact h

/-- The step of a machine with a next event is that event. -/
theorem step_head {s : State} {e : Event} (h : s.agenda.head? = some e) : step s = happen e s.popped := by
  unfold step turn
  rw [agenda_of_head h]

/-- A `WAIT` while `BUSY` stays on the agenda. -/
theorem wait_stays {s : State} (h : s.agenda.head? = some .wait) : { s.popped with agenda := .wait :: s.popped.agenda } = s := by
  show { s with agenda := .wait :: s.popped.agenda } = s
  rw [← agenda_of_head h]

/-- Everything a step that is a host write to a register can do. -/
theorem step_write {s t : State} {off : Nat} {v : Word} (h : s.agenda.head? = some (.writeReg off v)) (ht : step s = .next t) :
    (off = 0x40 ∧ s.phase = .busy ∧ t = s.popped.overrun) ∨
    (off = 0x40 ∧ s.phase ≠ .busy ∧ v = ackWord ∧ t = acknowledge s.popped) ∨
    (off = 0x40 ∧ s.phase = .fault ∧ v ≠ ackWord ∧ t = s.popped.overrun) ∨
    (off = 0x40 ∧ (s.phase = .idle ∨ s.phase = .done) ∧ v ≠ ackWord ∧ t = accept v s.popped) ∨
    (∃ k : Fin 12, off = 4 * k.val ∧ t = writeOperand k v s.popped) ∨
    (off ≠ 0x40 ∧ (∀ k : Fin 12, off ≠ 4 * k.val) ∧ t = s.popped) := by
  rw [step_writeReg h] at ht
  rcases writeReg_cases off v s.popped with ⟨h0, h1⟩ | ⟨k, h0, h1⟩ | ⟨h0, h0', h1⟩ <;> rw [h1] at ht
  · rcases writeCmd_cases v s.popped with ⟨hp, h2⟩ | ⟨hp, hw, h2⟩ | ⟨hp, hw, h2⟩ | ⟨hp, hw, h2⟩ <;> rw [h2] at ht <;> cases ht
    · exact Or.inl ⟨h0, hp, rfl⟩
    · exact Or.inr (Or.inl ⟨h0, hp, hw, rfl⟩)
    · exact Or.inr (Or.inr (Or.inl ⟨h0, hp, hw, rfl⟩))
    · exact Or.inr (Or.inr (Or.inr (Or.inl ⟨h0, hp, hw, rfl⟩)))
  · cases ht; exact Or.inr (Or.inr (Or.inr (Or.inr (Or.inl ⟨k, h0, rfl⟩))))
  · cases ht; exact Or.inr (Or.inr (Or.inr (Or.inr (Or.inr ⟨h0, h0', rfl⟩))))

theorem not_engineMoves {s : State} {e : Event} (h : s.agenda.head? = some e) (h1 : e ≠ .engine) (h2 : e ≠ .wait) : ¬ EngineMoves s := by
  rintro (h' | h' | h')
  · simp [h'] at h
  · rw [h'] at h; exact h1 (Option.some.inj h).symm
  · rw [h'] at h; exact h2 (Option.some.inj h).symm

/-- The ten kinds of step, each with what it does and what no other kind is: the engine's, the four that a `CMD` write can be, the two
that an operand write can be, a reset, a `POKE`, and a quiet one (a read, a discarded write, a rest). -/
inductive StepKind (s t : State) : Prop where
  | engine (u : State) (hu : u = s ∨ u = s.popped) (hm : EngineMoves s) (hp : s.phase = .busy) (h : engineStep u = .next t)
  | cmdBusy (w : Word) (hn : NextCmd s w) (hp : s.phase = .busy) (h : t = s.popped.overrun)
  | ack (hn : NextCmd s ackWord) (hp : s.phase ≠ .busy) (h : t = acknowledge s.popped)
  | cmdFault (w : Word) (hn : NextCmd s w) (hw : w ≠ ackWord) (hp : s.phase = .fault) (h : t = s.popped.overrun)
  | accept (w : Word) (hn : NextCmd s w) (hw : w ≠ ackWord) (hp : s.phase = .idle ∨ s.phase = .done) (h : t = Machine.accept w s.popped)
  | oprBusy (k : Fin 12) (v : Word) (hn : NextOperand s k v) (hp : s.phase = .busy) (h : t = s.popped.overrun)
  | opr (k : Fin 12) (v : Word) (hn : NextOperand s k v) (hp : s.phase ≠ .busy) (h : t = { s.popped with opr := s.opr.set k v })
  | reset (hn : NextReset s) (h : t = hardReset s.popped)
  | poke (a : Nat) (bs : List Byte) (hn : s.agenda.head? = some (.poke a bs)) (hp : s.phase ≠ .busy) (hm : a + bs.length ≤ s.cfg.memSize) (h : t = s.popped.storeBytes a bs)
  | quiet (hm : ¬ (s.phase = .busy ∧ EngineMoves s)) (h1 : ∀ w, ¬ NextCmd s w) (h2 : ∀ k v, ¬ NextOperand s k v) (h3 : ¬ NextReset s) (hp : ∃ ag se, t = { s with agenda := ag, seen := se })

/-- Every step is of one of these kinds. -/
theorem step_kind {s t : State} (h : step s = .next t) : StepKind s t := by
  rcases step_cases h with ⟨ha, hp, rfl⟩ | ⟨ha, hp, h⟩ | ⟨ha, hp, h⟩ | ⟨ha, hp, h⟩ | ⟨ha, hp, h⟩ | ⟨off, v, ha, -⟩ | ⟨off, ha, h⟩ | ⟨a, bs, ha, hp, hm, h⟩ | ⟨a, bs, ha, hp, hm, h⟩ | ⟨ha, h⟩
  · exact .quiet (fun h => hp h.1) (by simp [NextCmd, ha]) (by simp [NextOperand, ha]) (by simp [NextReset, ha]) ⟨_, _, rfl⟩
  · exact .engine s (Or.inl rfl) (by rcases ha with ha | ha <;> simp [EngineMoves, ha]) hp h
  · exact .engine _ (Or.inr rfl) (by simp [EngineMoves, ha]) hp h
  · exact .quiet (fun h => hp h.1) (by simp [NextCmd, ha]) (by simp [NextOperand, ha]) (by simp [NextReset, ha]) ⟨_, _, h⟩
  · exact .quiet (fun h => hp h.1) (by simp [NextCmd, ha]) (by simp [NextOperand, ha]) (by simp [NextReset, ha]) ⟨_, _, h⟩
  · rcases step_write ha h with ⟨rfl, hp, h⟩ | ⟨rfl, hp, rfl, h⟩ | ⟨rfl, hp, hw, h⟩ | ⟨rfl, hp, hw, h⟩ | ⟨k, rfl, h⟩ | ⟨h0, h0', h⟩
    · exact .cmdBusy v ha hp h
    · exact .ack ha hp h
    · exact .cmdFault v ha hw hp h
    · exact .accept v ha hw hp h
    · by_cases hp : s.phase = .busy
      · exact .oprBusy k v ha hp (by rw [h]; unfold writeOperand; rw [if_pos (show s.popped.phase = .busy from hp)])
      · exact .opr k v ha hp (by rw [h]; unfold writeOperand; rw [if_neg (show ¬ s.popped.phase = .busy from hp)])
    · exact .quiet (fun h => not_engineMoves ha (by simp) (by simp) h.2) (by simp [NextCmd, ha, h0])
        (by intro k v; simp [NextOperand, ha]; intro h; exact absurd h (h0' k)) (by simp [NextReset, ha]) ⟨_, _, h⟩
  · exact .quiet (fun h => not_engineMoves ha (by simp) (by simp) h.2) (by simp [NextCmd, ha]) (by simp [NextOperand, ha]) (by simp [NextReset, ha]) ⟨_, _, h⟩
  · exact .poke a bs ha hp hm h
  · exact .quiet (fun h => hp h.1) (by simp [NextCmd, ha]) (by simp [NextOperand, ha]) (by simp [NextReset, ha]) ⟨_, _, h⟩
  · exact .reset ha h

end Sys2Proof.Machine
end

