-- ==== Sys2Proof/Laws/Rules.lean ====
section
/-! SUPPORT. How many bytes each decoder and each image builder delivers, and that what a command's rule answers fits the regions the
command may write (R57, R59). -/

namespace Sys2Proof.Machine

/-! ### Decoders -/

/-- The RLE loop never delivers more than it has room for (R141). -/
theorem rleGroups_length (src : Nat → Byte) (p0 plen fuel s room : Nat) :
    (rleGroups src p0 plen fuel s room).1.length ≤ room := by
  induction fuel generalizing s room with
  | zero => simp [rleGroups]
  | succ fuel ih =>
    unfold rleGroups
    split
    · simp
    · simp only
      split
      · split
        · simp
        · have := ih (s + 2) (room - min ((src (p0 + s)).extractLsb' 0 7).toNat room)
          simp only [List.length_append, List.length_replicate]; omega
      · have := ih (s + 1 + min ((src (p0 + s)).extractLsb' 0 7).toNat (min (plen - (s + 1)) room))
          (room - min ((src (p0 + s)).extractLsb' 0 7).toNat (min (plen - (s + 1)) room))
        simp only [List.length_append, sliceOf_length]; omega

theorem rleDecode_length (src : Nat → Byte) (p0 plen n : Nat) : (rleDecode src p0 plen n).1.length ≤ n :=
  rleGroups_length ..

/-- The LZW loop never delivers more than it has room for, and exactly that much when it succeeds (R148, R149). -/
theorem lzwCodes_length (src : Nat → Byte) (p0 plen n fuel width : Nat) (table : List (List Byte)) (prev : Option Nat)
    (bitpos room : Nat) :
    (lzwCodes src p0 plen n fuel width table prev bitpos room).1.length ≤ room ∧
    ∀ u, (lzwCodes src p0 plen n fuel width table prev bitpos room).2 = .ok u →
      (lzwCodes src p0 plen n fuel width table prev bitpos room).1.length = room := by
  induction fuel generalizing width table prev bitpos room with
  | zero => simp [lzwCodes]
  | succ fuel ih =>
    unfold lzwCodes
    split
    · next h => simp [h]
    · split
      · simp
      · simp only
        split
        · exact ih ..
        · split
          · simp
          · next entry table' width' _ =>
            have h := ih width' table' (some (lzwCodeAt src p0 bitpos width)) (bitpos + width) (room - min entry.length room)
            refine ⟨?_, fun u hu => ?_⟩
            · have := h.1; simp only [List.length_append, List.length_take]; omega
            · have := h.2 u hu; simp only [List.length_append, List.length_take]; omega

theorem lzwStandard_length (src : Nat → Byte) (p0 plen n : Nat) :
    (lzwStandard src p0 plen n).1.length ≤ n ∧
    ∀ u, (lzwStandard src p0 plen n).2 = .ok u → (lzwStandard src p0 plen n).1.length = n :=
  lzwCodes_length ..

/-- Under every variant a successful LZW decode delivers exactly the declared length (R149, U5). -/
theorem lzwDecode_length {v : LzwVariant} {src : Nat → Byte} {p0 plen n : Nat} {out : List Byte} {u : Nat}
    (h : lzwDecode v src p0 plen n = (out, .ok u)) : out.length = n := by
  cases v with
  | standard =>
    have := (lzwStandard_length src p0 plen n).2 u
    simp only [lzwDecode] at h
    rw [h] at this; exact this rfl
  | replaced id =>
    simp only [lzwDecode] at h
    split at h
    · cases h; simp
    · next h' => simp only [Prod.mk.injEq] at h; exact absurd h.2 (h' u)

/-- The bitmask loop delivers all its bytes when it succeeds (R182). -/
theorem bmkBits_length (src : Nat → Byte) (srcLen left i lp : Nat) (prev : Byte) (u : Nat)
    (h : (bmkBits src srcLen left i lp prev).2 = .ok u) : (bmkBits src srcLen left i lp prev).1.length = left := by
  induction left generalizing i lp prev with
  | zero => simp [bmkBits]
  | succ left ih =>
    unfold bmkBits at h ⊢
    split at h
    · next hb =>
      split at h
      · cases h
      · next hl => rw [if_pos hb, if_neg hl]; simp only [List.length_cons]; rw [ih _ _ _ h]
    · next hb => rw [if_neg hb]; simp only [List.length_cons]; rw [ih _ _ _ h]

/-- Under every layout a successful bitmask decode delivers exactly the declared length (R182, U7). -/
theorem bmkDecode_length {g : BmkGrammar} {src : Nat → Byte} {srcLen n : Nat} {out : List Byte} {u : Nat}
    (h : bmkDecode g src srcLen n = (out, .ok u)) : out.length = n := by
  cases g with
  | standard =>
    simp only [bmkDecode, bmkStandard] at h
    split at h
    · cases h
    · have := bmkBits_length src srcLen n 0 (ceilDiv n 8) 0 u (by rw [h])
      rw [h] at this; exact this
  | replaced id =>
    simp only [bmkDecode] at h
    split at h
    · cases h; simp
    · next h' => simp only [Prod.mk.injEq] at h; exact absurd h.2 (h' u)

/-- A run painted inside an image keeps its size (R174). -/
theorem paintRun_length (img : List Byte) (pos n : Nat) (c : Byte) (h : pos + n ≤ img.length) :
    (paintRun img pos n c).length = img.length := by
  simp only [paintRun, List.length_append, List.length_take, List.length_replicate, List.length_drop]; omega

/-- The SCN loop keeps the size of the image (R174). -/
theorem scnRecords_length (w h : Nat) : (records : List Byte) → (p x y : Nat) → (deep : Bool) → (img : List Byte) →
    img.length = w * h → (scnRecords w h records p x y deep img).1.length = w * h
  | [], p, x, y, deep, img, hi => by unfold scnRecords; split <;> exact hi
  | [b], p, x, y, deep, img, hi => by unfold scnRecords; exact hi
  | c :: n :: rest, p, x, y, deep, img, hi => by
    unfold scnRecords
    split
    · split
      · exact hi
      · split
        · exact hi
        · exact scnRecords_length w h rest _ _ _ _ _ hi
    · split
      · exact hi
      · next hy =>
        split
        · exact hi
        · next hx =>
          apply scnRecords_length
          split
          · rw [paintRun_length, hi]
            have : (y + 1) * w ≤ h * w := Nat.mul_le_mul_right _ (by omega)
            rw [hi, Nat.mul_comm w h]
            rw [Nat.add_mul] at this
            omega
          · exact hi

/-- Under every grammar an SCN decode delivers the whole frame (R174, U6). -/
theorem scnDecode_length (g : ScnGrammar) (frame : List Byte) (w h : Nat) : (scnDecode g frame w h).1.length = w * h := by
  cases g with
  | standard => exact scnRecords_length w h frame 0 0 0 false _ (by simp)
  | replaced id => simp [scnDecode]

/-! ### Images -/

theorem flatMap_length {α : Type} (f : Nat → List α) (n m : Nat) (h : ∀ y, y < n → (f y).length = m) :
    ((List.range n).flatMap f).length = n * m := by
  induction n with
  | zero => simp
  | succ n ih =>
    rw [List.range_succ, List.flatMap_append, List.length_append, ih (fun y hy => h y (by omega))]
    simp only [List.flatMap_cons, List.flatMap_nil, List.append_nil]
    rw [h n (by omega), Nat.succ_mul]

/-- Byte `y * m + x` of rows of `m` bytes is byte `x` of row `y`. -/
theorem flatMap_getElem? {α : Type} (f : Nat → List α) (n m : Nat) (h : ∀ y, y < n → (f y).length = m) (y x : Nat) (hy : y < n)
    (hx : x < m) : ((List.range n).flatMap f)[y * m + x]? = (f y)[x]? := by
  induction n with
  | zero => omega
  | succ n ih =>
    have hl := flatMap_length f n m (fun y hy => h y (by omega))
    rw [List.range_succ, List.flatMap_append]
    simp only [List.flatMap_cons, List.flatMap_nil, List.append_nil]
    rcases Nat.lt_or_ge y n with hyn | hyn
    · have : (y + 1) * m ≤ n * m := Nat.mul_le_mul_right _ hyn
      rw [Nat.succ_mul] at this
      rw [List.getElem?_append_left (by omega)]
      exact ih (fun y hy => h y (by omega)) hyn
    · obtain rfl : y = n := by omega
      rw [List.getElem?_append_right (by omega), hl]
      congr 1; omega

theorem unpackedImage_length (src : Nat → Byte) (w h st bpp : Nat) (be : Bool) :
    (unpackedImage src w h st bpp be).length = w * h := by
  rw [unpackedImage, flatMap_length _ h w (by simp), Nat.mul_comm]

theorem packedRow_length (src : Nat → Byte) (pos w m bpp : Nat) (be : Bool) : (packedRow src pos w m bpp be).length = m := by
  unfold packedRow
  generalize List.range w = xs
  have : ∀ acc : List Byte, acc.length = m →
      (xs.foldl (fun row x => orInto row (x * bpp / 8) (src (pos + x) <<< pixShift x bpp be)) acc).length = m := by
    induction xs with
    | nil => intro acc h; exact h
    | cons x xs ih => intro acc h; exact ih _ (by simp [orInto, h])
  exact this _ (by simp)

theorem packedImage_length (src : Nat → Byte) (w h m bpp : Nat) (be : Bool) :
    (packedImage src w h m bpp be).length = m * h := by
  rw [packedImage, flatMap_length _ h m (fun y _ => packedRow_length ..), Nat.mul_comm]

theorem composite_length (store mtx : Nat → Byte) (mw mh bw bh : Nat) :
    (composite store mtx mw mh bw bh).length = mw * bw * (mh * bh) := by
  rw [composite, flatMap_length _ _ (mw * bw) (by simp), Nat.mul_comm]

theorem tileAt_length (img : Nat → Byte) (bw bh pitch col row : Nat) : (tileAt img bw bh pitch col row).length = bw * bh := by
  rw [tileAt, flatMap_length _ bh bw (by simp), Nat.mul_comm]

/-- What the tile walk keeps (R214): one index for each tile walked, and tiles that were all walked. -/
theorem dedupFold_spec (tiles : Nat → List Byte) (n : Nat) :
    ((List.range n).foldl (fun acc i => dedupTile acc (tiles i)) ([], [])).2.length = n ∧
    ∀ t ∈ ((List.range n).foldl (fun acc i => dedupTile acc (tiles i)) ([], [])).1, ∃ i, i < n ∧ tiles i = t := by
  induction n with
  | zero => simp
  | succ n ih =>
    rw [List.range_succ, List.foldl_append]
    generalize (List.range n).foldl (fun acc i => dedupTile acc (tiles i)) ([], []) = acc at ih ⊢
    simp only [List.foldl_cons, List.foldl_nil, dedupTile]
    split
    · refine ⟨by simp [ih.1], fun t ht => ?_⟩
      obtain ⟨i, hi, he⟩ := ih.2 t ht
      exact ⟨i, by omega, he⟩
    · refine ⟨by simp [ih.1], fun t ht => ?_⟩
      rcases List.mem_append.1 ht with ht | ht
      · obtain ⟨i, hi, he⟩ := ih.2 t ht
        exact ⟨i, by omega, he⟩
      · exact ⟨n, by omega, (List.mem_singleton.1 ht).symm⟩

theorem flatten_length_of {α : Type} (l : List (List α)) (m : Nat) (h : ∀ t ∈ l, t.length = m) : l.flatten.length = l.length * m := by
  induction l with
  | nil => simp
  | cons t l ih =>
    rw [List.flatten_cons, List.length_append, h t (by simp), ih (fun t ht => h t (by simp [ht])), List.length_cons, Nat.succ_mul]
    omega

/-- The tile store of a tile walk has one tile's bytes for each unique tile (R70, R214). -/
theorem dedupAnalyse_store_length (img : Nat → Byte) (mw mh bw bh pitch : Nat) :
    (dedupAnalyse img mw mh bw bh pitch).1.flatten.length = (dedupAnalyse img mw mh bw bh pitch).1.length * bw * bh := by
  rw [flatten_length_of _ (bw * bh), Nat.mul_assoc]
  intro t ht
  obtain ⟨i, -, rfl⟩ := (dedupFold_spec (fun i => tileAt img bw bh pitch (i / mh) (i % mh)) (mw * mh)).2 t ht
  exact tileAt_length ..

theorem mtxBytes_length (mw mh : Nat) (idx : List Nat) : (mtxBytes mw mh idx).length = 4 + 2 * idx.length := by
  have : ∀ l : List Nat, (l.flatMap le16Bytes).length = 2 * l.length := by
    intro l
    induction l with
    | nil => simp
    | cons a l ih => rw [List.flatMap_cons, List.length_append, ih]; simp [le16Bytes]; omega
  simp [mtxBytes, this, le16Bytes]; omega

theorem dedupAnalyse_mtx_length (img : Nat → Byte) (mw mh bw bh pitch : Nat) :
    (mtxBytes mw mh (dedupAnalyse img mw mh bw bh pitch).2).length = 4 + 2 * mw * mh := by
  have h := (dedupFold_spec (fun i => tileAt img bw bh pitch (i / mh) (i % mh)) (mw * mh)).1
  rw [mtxBytes_length, dedupAnalyse, h, Nat.mul_assoc]

theorem chunkBytes_length (idw : Word) (payload : List Byte) : (chunkBytes idw payload).length = 8 + payload.length := by
  simp [chunkBytes, le32Bytes]; omega

/-- The identifier word check is R120's. -/
theorem idwOk_iff (w : Word) : idwOk w = true ↔ r120Ok w := by
  simp [idwOk, r120Ok, and_assoc]

/-! ### What a rule may answer -/

/-- The faults that only a streaming decoder raises part way (R263). -/
def midCodes : List ErrCode := [.lenMismatch, .lzwCode, .scnStream]

/-- What every command's rule keeps to: its output fits the regions it may write and goes nowhere else; only `RLE.DEC` sets
`SHORT`; a mid-stream fault has a mid-stream code and names the length of R263; every fault is one that some command raises. -/
def Verdict.keeps (i : Instr) (s : State) : Verdict → Prop
  | .done _ _ _ _ short out outAux =>
    out.length ≤ s.dstLen ∧ outAux.length ≤ s.auxLen ∧ (Region.dst ∉ (rolesOf i).out → out = []) ∧
      (Region.aux ∉ (rolesOf i).out → outAux = []) ∧ (i ≠ .rleDec → short = none)
  | .preFault e _ _ _ => e ∈ raisedCodes
  | .midFault e _ _ _ n => e ∈ midCodes ∧ n ≤ s.dstLen ∧ n = midLength i s ∧ Region.dst ∈ (rolesOf i).out

theorem lzwVerdict_keeps {i : Instr} {s : State} {v : LzwVariant} {src : Nat → Byte} {p0 plen n t : Nat}
    (hn : n ≤ s.dstLen) (hm : n = midLength i s) (hd : Region.dst ∈ (rolesOf i).out) :
    (lzwVerdict v src p0 plen n t).keeps i s := by
  unfold lzwVerdict
  split
  · next out consumed h => exact ⟨by rw [lzwDecode_length h]; exact hn, by simp, fun h => absurd hd h, fun _ => rfl, fun _ => rfl⟩
  · exact ⟨by simp [midCodes], hn, hm, hd⟩
  · exact ⟨by simp [midCodes], hn, hm, hd⟩

theorem withLength_keeps {i : Instr} {s : State} {o : Nat} {k : Nat → Nat → Verdict} (h : ∀ l f, (k l f).keeps i s) :
    (withLength s o k).keeps i s := by
  unfold withLength
  simp only
  split
  · simp [Verdict.keeps, raisedCodes]
  · exact h ..

theorem chkScan_keeps {i : Instr} {s : State} (fuel o : Nat) : (chkScan s fuel o).keeps i s := by
  induction fuel generalizing o with
  | zero => simp [chkScan, Verdict.keeps]
  | succ fuel ih =>
    unfold chkScan
    split
    · simp [Verdict.keeps]
    · apply withLength_keeps
      intro l f
      split
      · simp [Verdict.keeps]
      · exact ih _

/-- Every command's rule keeps to what `Verdict.keeps` says. -/
theorem ruleOf_keeps (i : Instr) (s : State) : (ruleOf i s).keeps i s := by
  cases i with
  | nop => simp [ruleOf, Verdict.keeps]
  | ack => simp [ruleOf, Verdict.keeps]
  | rleDec =>
    have := rleDecode_length s.src 0 s.srcLen s.dstLen
    simp [ruleOf, rleDecRule, Verdict.keeps, rolesOf, this]
  | lzwDec => exact lzwVerdict_keeps (Nat.le_refl _) rfl (by simp [rolesOf])
  | scnDec =>
    simp only [ruleOf, scnDecRule]
    split
    · simp [Verdict.keeps, raisedCodes]
    · split
      · simp [Verdict.keeps, raisedCodes]
      · split
        · simp [Verdict.keeps, raisedCodes]
        · split
          · simp [Verdict.keeps, raisedCodes]
          · split
            · simp [Verdict.keeps, raisedCodes]
            · next hwh =>
              split
              · simp [Verdict.keeps, raisedCodes]
              · split
                · simp [Verdict.keeps, raisedCodes]
                · unfold scnFrame
                  split
                  · next img deep wrap h =>
                    have := scnDecode_length s.cfg.scn (sliceOf s.src (sle32At s.aux (4 * s.arg)).toNat
                      ((scnFrameEnd s s.arg (s.auxLen / 4)).toNat - (sle32At s.aux (4 * s.arg)).toNat)) s.width s.height
                    rw [h] at this
                    have h2 : img.length ≤ s.dstLen := by rw [this]; omega
                    simp [Verdict.keeps, rolesOf, h2]
                  · have h2 : s.width * s.height ≤ s.dstLen := by omega
                    simp [Verdict.keeps, midCodes, midLength, rolesOf, h2]
  | bmkDec =>
    simp only [ruleOf, bmkDecRule]
    split
    · next out consumed h =>
      have := bmkDecode_length h
      simp [Verdict.keeps, rolesOf, this]
    · simp [Verdict.keeps, raisedCodes]
    · simp [Verdict.keeps, midCodes, midLength, rolesOf]
  | cblkDec =>
    simp only [ruleOf, cblkDecRule]
    split
    · simp [Verdict.keeps, raisedCodes]
    · split
      · simp [Verdict.keeps, raisedCodes]
      · split
        · simp [Verdict.keeps, raisedCodes]
        · split
          · simp [Verdict.keeps, raisedCodes]
          · next hl =>
            have hl' : le32At s.src 1 ≤ s.dstLen := by omega
            split
            · unfold cblkRaw
              split
              · simp [Verdict.keeps, raisedCodes]
              · simp [Verdict.keeps, rolesOf, hl']
            · split
              · have := rleDecode_length s.src 5 (s.srcLen - 5) (le32At s.src 1)
                simp only [cblkRle]
                split
                · simp [Verdict.keeps, midCodes, midLength, rolesOf, hl']
                · simp [Verdict.keeps, rolesOf]; omega
              · exact lzwVerdict_keeps hl' rfl (by simp [rolesOf])
  | chkFind =>
    simp only [ruleOf, chkFindRule]
    split
    · simp [Verdict.keeps, raisedCodes]
    · exact chkScan_keeps _ _
  | chkLen =>
    simp only [ruleOf, chkLenRule]
    split
    · simp [Verdict.keeps, raisedCodes]
    · split
      · simp [Verdict.keeps, raisedCodes]
      · exact withLength_keeps fun l f => by simp [Verdict.keeps]
  | chkWrap =>
    simp only [ruleOf, chkWrapRule]
    split
    · simp [Verdict.keeps, raisedCodes]
    · split
      · simp [Verdict.keeps, raisedCodes]
      · split
        · simp [Verdict.keeps, raisedCodes]
        · simp [Verdict.keeps, rolesOf, chunkBytes_length]; omega
  | infGet =>
    simp only [ruleOf, infGetRule]
    split
    · simp [Verdict.keeps, raisedCodes]
    · split
      · simp [Verdict.keeps, raisedCodes]
      · split
        · simp [Verdict.keeps, raisedCodes]
        · simp [Verdict.keeps]
  | pixUnpack bpp be =>
    simp only [ruleOf, pixUnpackRule]
    split
    · simp [Verdict.keeps, raisedCodes]
    · split
      · simp [Verdict.keeps, raisedCodes]
      · split
        · simp [Verdict.keeps, raisedCodes]
        · simp [Verdict.keeps, rolesOf, unpackedImage_length]; omega
  | pixPack bpp be =>
    simp only [ruleOf, pixPackRule]
    split
    · simp [Verdict.keeps, raisedCodes]
    · split
      · simp [Verdict.keeps, raisedCodes]
      · split
        · simp [Verdict.keeps, raisedCodes]
        · simp [Verdict.keeps, rolesOf, packedImage_length]; omega
  | pixMerge =>
    simp only [ruleOf, pixMergeRule]
    split
    · simp [Verdict.keeps, raisedCodes]
    · split
      · simp [Verdict.keeps, raisedCodes]
      · split
        · simp [Verdict.keeps, raisedCodes]
        · simp [Verdict.keeps, rolesOf]; omega
  | pixSplit =>
    simp only [ruleOf, pixSplitRule]
    split
    · simp [Verdict.keeps, raisedCodes]
    · split
      · simp [Verdict.keeps, raisedCodes]
      · simp [Verdict.keeps, rolesOf]; omega
  | tileDedup =>
    simp only [ruleOf, tileDedupRule]
    iterate 8
      split
      · simp [Verdict.keeps, raisedCodes]
    simp only [tileStore]
    iterate 3
      split
      · simp [Verdict.keeps, raisedCodes]
    refine ⟨?_, ?_, by simp [rolesOf], by simp [rolesOf], fun _ => rfl⟩
    · rw [dedupAnalyse_store_length]; omega
    · rw [dedupAnalyse_mtx_length]; omega
  | tileExpand =>
    simp only [ruleOf, tileExpandRule]
    iterate 3
      split
      · simp [Verdict.keeps, raisedCodes]
    simp only [tileCompose]
    iterate 4
      split
      · simp [Verdict.keeps, raisedCodes]
    split
    · simp [Verdict.keeps, raisedCodes]
    · next h _ _ =>
      have : ∀ a b c d : Nat, a * b * (c * d) = a * c * b * d := by intro a b c d; ring
      simp [Verdict.keeps, rolesOf, composite_length, this]; omega

/-! ### From a rule's answer to the next state -/

/-- A command whose rule answers results and output for `DST` only: the next state, byte by byte. -/
theorem exec_done {i : Instr} {s : State} {r0 r1 r2 r3 : Nat} {short : Option Bool} {out : List Byte} (hw : i.wf = true)
    (ha : i ≠ .ack) (hr : regionFault (rolesOf i) s = none) (h : ruleOf i s = .done r0 r1 r2 r3 short out [])
    (h0 : r0 < 2 ^ 32) (h1 : r1 < 2 ^ 32) (h2 : r2 < 2 ^ 32) (h3 : r3 < 2 ^ 32) :
    ∃ t, exec i s = .next t ∧ Completed s t r0 r1 r2 r3 ∧ t.short = short.getD s.short ∧
      (∀ j (hj : j < out.length), t.byteAt (s.dstBase + j) = out[j]) ∧ UnchangedOutside s t [(s.dstBase, out.length)] := by
  refine ⟨_, by rw [exec_of_region_ok hw ha hr, h]; rfl, finish_completed short out [] s h0 h1 h2 h3, rfl, ?_⟩
  exact byteAt_finish_dst ..

/-- A command whose rule answers results and no output: memory is as it was. -/
theorem exec_done_nothing {i : Instr} {s : State} {r0 r1 r2 r3 : Nat} {short : Option Bool} (hw : i.wf = true)
    (ha : i ≠ .ack) (hr : regionFault (rolesOf i) s = none) (h : ruleOf i s = .done r0 r1 r2 r3 short [] [])
    (h0 : r0 < 2 ^ 32) (h1 : r1 < 2 ^ 32) (h2 : r2 < 2 ^ 32) (h3 : r3 < 2 ^ 32) :
    ∃ t, exec i s = .next t ∧ Completed s t r0 r1 r2 r3 ∧ t.mem = s.mem ∧ t.short = short.getD s.short :=
  ⟨_, by rw [exec_of_region_ok hw ha hr, h]; rfl, finish_completed short [] [] s h0 h1 h2 h3, rfl, rfl⟩

/-- A command whose rule answers output for `DST` and for `AUX`: the next state, byte by byte. -/
theorem exec_done_both {i : Instr} {s : State} {r0 r1 r2 r3 : Nat} {short : Option Bool} {out outAux : List Byte} (hw : i.wf = true)
    (ha : i ≠ .ack) (hr : regionFault (rolesOf i) s = none) (h : ruleOf i s = .done r0 r1 r2 r3 short out outAux)
    (ho : Region.dst ∈ (rolesOf i).out) (hx : Region.aux ∈ (rolesOf i).out)
    (h0 : r0 < 2 ^ 32) (h1 : r1 < 2 ^ 32) (h2 : r2 < 2 ^ 32) (h3 : r3 < 2 ^ 32) :
    ∃ t, exec i s = .next t ∧ Completed s t r0 r1 r2 r3 ∧ t.short = short.getD s.short ∧
      (∀ j (hj : j < out.length), t.byteAt (s.dstBase + j) = out[j]) ∧
      (∀ j (hj : j < outAux.length), t.byteAt (s.auxBase + j) = outAux[j]) ∧
      UnchangedOutside s t [(s.dstBase, out.length), (s.auxBase, outAux.length)] := by
  refine ⟨_, by rw [exec_of_region_ok hw ha hr, h]; rfl, finish_completed short out outAux s h0 h1 h2 h3, rfl, ?_⟩
  apply byteAt_finish_both
  have hk := ruleOf_keeps i s
  rw [h] at hk
  have h6 := (overlap_eq_none _ _ _ _).1 ((regionFault_eq_none _ _).1 hr).2.2.2.2.2 (by simp [Roles.uses, ho])
    (by simp [Roles.uses, hx]) (Or.inl ho)
  have h7 := hk.1
  have h8 := hk.2.1
  simp only [State.base, State.len] at h6
  omega

/-- A command whose rule answers a pre-check fault takes it and leaves `MEM` as it was (R263). -/
theorem exec_preFault {i : Instr} {s : State} {e : ErrCode} {i0 i1 i2 : Int} (hw : i.wf = true) (ha : i ≠ .ack)
    (hr : regionFault (rolesOf i) s = none) (h : ruleOf i s = .preFault e i0 i1 i2) :
    ∃ t, exec i s = .next t ∧ PreFaulted s t e i0 i1 i2 :=
  ⟨_, by rw [exec_of_region_ok hw ha hr, h]; rfl, takeFault_preFaulted ..⟩

/-- A command whose rule answers a mid-stream fault takes it and may have changed `DST[0 .. n)` only (R263). -/
theorem exec_midFault {i : Instr} {s : State} {e : ErrCode} {i0 i1 i2 : Int} {n : Nat} (hw : i.wf = true) (ha : i ≠ .ack)
    (hr : regionFault (rolesOf i) s = none) (h : ruleOf i s = .midFault e i0 i1 i2 n) :
    ∃ t, exec i s = .next t ∧ MidFaulted s t e i0 i1 i2 n :=
  ⟨_, by rw [exec_of_region_ok hw ha hr, h]; rfl, midFault_midFaulted ..⟩

end Sys2Proof.Machine
end

