-- ==== Sys2Proof/Tests/Slice0.lean ====
section
/-! SUPPORT. Tests. Words are written out from R92; expected results are the vectors of spec/95_test_vectors.md, named in each
docstring, or hand calculation from the rule named. The `witness_` theorems meet the hypotheses of the statements. -/

set_option Elab.async false

namespace Sys2Proof.Tests

open Sys2Proof.Machine

/-! ### Well-formedness: each check refuses an ill-formed term (R94) -/

/-- R94: `BPP = 3` is refused for `PIX.UNPACK`. -/
theorem test_wf_refuses_unpack_bpp : Instr.wf (.pixUnpack 3 true) = false ∧ Instr.wf (.pixUnpack 0 false) = false := by decide
/-- R94: `BPP = 3` and `BPP = 15` are refused for `PIX.PACK`. -/
theorem test_wf_refuses_pack_bpp : Instr.wf (.pixPack 3 true) = false ∧ Instr.wf (.pixPack 15 false) = false := by decide
/-- 90_conflicts.md C2: 2 is legal. -/
theorem test_wf_admits_bpp : Instr.wf (.pixUnpack 2 false) = true ∧ Instr.wf (.pixPack 8 true) = true := by decide

/-! ### Decoding: a word of every constructor, written out from R90 and R92 -/

theorem test_decode_nop : decode 0b00000000000000000000000000000000 = .ok .nop := rfl
theorem test_decode_ack : decode 0b00000000000000000000000000000001 = .ok .ack := rfl
theorem test_decode_rleDec : decode 0b00000000000000000000000000010000 = .ok .rleDec := rfl
theorem test_decode_lzwDec : decode 0b00000000000000000000000000010001 = .ok .lzwDec := rfl
theorem test_decode_scnDec : decode 0b00000000000000000000000000010010 = .ok .scnDec := rfl
theorem test_decode_bmkDec : decode 0b00000000000000000000000000010011 = .ok .bmkDec := rfl
theorem test_decode_cblkDec : decode 0b00000000000000000000000000010100 = .ok .cblkDec := rfl
theorem test_decode_chkFind : decode 0b00000000000000000000000000100000 = .ok .chkFind := rfl
theorem test_decode_chkLen : decode 0b00000000000000000000000000100001 = .ok .chkLen := rfl
theorem test_decode_chkWrap : decode 0b00000000000000000000000000100010 = .ok .chkWrap := rfl
theorem test_decode_infGet : decode 0b00000000000000000000000000100011 = .ok .infGet := rfl
/-- Zeros, `BE` 1, `BPP` 0100, `OP` 00110000. -/
theorem test_decode_pixUnpack : decode 0b00000000000000000001010000110000 = .ok (.pixUnpack 4 true) := rfl
/-- Zeros, `BE` 0, `BPP` 1000, `OP` 00110001. -/
theorem test_decode_pixPack : decode 0b00000000000000000000100000110001 = .ok (.pixPack 8 false) := rfl
theorem test_decode_pixMerge : decode 0b00000000000000000000000000110010 = .ok .pixMerge := rfl
theorem test_decode_pixSplit : decode 0b00000000000000000000000000110011 = .ok .pixSplit := rfl
theorem test_decode_tileDedup : decode 0b00000000000000000000000001000000 = .ok .tileDedup := rfl
theorem test_decode_tileExpand : decode 0b00000000000000000000000001000001 = .ok .tileExpand := rfl

/-- V-SYS-8, V-SYS-9, V-SYS-11, V-PIX-17: every reason to reject a word. -/
theorem test_decode_rejects :
    decode 0x00000099 = .error .unallocatedOp ∧ decode 0x00002010 = .error .reservedBits ∧
    decode 0x00001010 = .error .strayField ∧ decode 0x00001331 = .error .illegalBpp :=
  ⟨rfl, rfl, rfl, rfl⟩

/-- R92: a table row's word is read as its instruction. -/
theorem test_table_word : decodeTableWord 32 0x1431 = some (.pixPack 4 true) ∧ decodeTableWord 16 0x40 = some .tileDedup := ⟨rfl, rfl⟩

/-! ### One step on a small state -/

def bytes (l : List Nat) : List Byte := l.map (BitVec.ofNat 8)

/-- The conventions of 95_test_vectors.md: `SRC` at 0x100, `DST` at 0x400, `AUX` at 0x800, `MEM_SIZE` 0x10000, the word just accepted.
`ops` sets operand registers by number. -/
def start (w : Word) (src aux : List Nat) (n : Nat) (ops : List (Nat × Nat)) : State :=
  let usual : List (Nat × Nat) := [(0, 0x100), (1, src.length), (2, 0x400), (3, n), (4, 0x800), (5, aux.length)]
  { State.reset with
    cfg := { Config.standard with memSize := 0x10000 }
    cmd := w
    phase := .busy
    opr := Vector.ofFn fun k => BitVec.ofNat 32 (((ops ++ usual).lookup k.val).getD 0)
    mem := Memory.writeList (Memory.writeList [] 0x100 (bytes src)) 0x800 (bytes aux) }

/-- The state after one step, or the same state where the step stops. -/
def after (s : State) : State :=
  match step s with
  | .next t => t
  | _ => s

def results (s : State) : List Nat := s.res.toList.map BitVec.toNat
def record (s : State) : List Nat := [s.fcode, s.finfo0, s.finfo1, s.finfo2].map BitVec.toNat
def dump (s : State) (a n : Nat) : List Nat := (s.bytesAt a n).map BitVec.toNat

/-- V-SYS-2. -/
theorem test_nop : (after (start 0x00 [] [] 0 [])).statusWord = 0x02 := by decide +kernel
/-- V-SYS-3 and V-SYS-6: `NOP` with stray fields faults; `ACK` clears the record and keeps `FSTICKY`. -/
theorem test_ack :
    let t := after (start 0x1F00 [] [] 0 [])
    let u := after { t with agenda := [.writeReg 0x40 1] }
    t.statusWord = 0x13 ∧ record t = [0x50, 0, 0, 0x1F00] ∧ u.statusWord = 0x10 ∧ u.cmd = 1 ∧ record u = [0, 0, 0, 0] := by
  decide +kernel

/-- V-RLE-2. -/
theorem test_rle_zero_counts :
    let t := after (start 0x10 [3, 1, 2, 3, 0x84, 9, 0, 0x80, 7, 2, 5, 6] [] 9 [])
    results t = [9, 12, 0, 0] ∧ dump t 0x400 9 = [1, 2, 3, 9, 9, 9, 9, 5, 6] ∧ t.statusWord = 0x02 := by decide +kernel
/-- V-RLE-3. -/
theorem test_rle_short :
    let t := after (start 0x10 [2, 1, 2, 0x85] [] 10 [])
    results t = [2, 4, 0, 0] ∧ t.statusWord = 0x06 := by decide +kernel

/-- V-LZW-1. -/
theorem test_lzw_self_code :
    let t := after (start 0x11 [0x41, 0x84, 0x04, 0x1C, 0x08] [] 7 [])
    results t = [7, 5, 0, 0] ∧ dump t 0x400 7 = [0x41, 0x42, 0x41, 0x42, 0x41, 0x42, 0x41] := by decide +kernel
/-- V-LZW-4. -/
theorem test_lzw_bad_code : record (after (start 0x11 [0x41, 0x04, 0x02] [] 5 [])) = [0x31, 1, 0x101, 0x102] := by decide +kernel

/-- V-SCN-2. -/
theorem test_scn_deep_frame :
    let t := after (start 0x12 [0, 1, 5, 2, 0, 0, 3, 4, 0x1F, 4, 0, 0, 0, 2, 2, 1, 0, 0] [0, 0, 0, 0, 8, 0, 0, 0] 8
      [(6, 4), (7, 2), (9, 1)])
    results t = [8, 10, 8, 1] ∧ dump t 0x400 8 = [0x1F, 0x1F, 0x1F, 0x1F, 0, 0, 2, 0] := by decide +kernel
/-- V-SCN-6. -/
theorem test_scn_negative_offset :
    record (after (start 0x12 [0, 1, 5, 2, 0, 0, 3, 4] [0xFF, 0xFF, 0xFF, 0xFF, 8, 0, 0, 0] 8 [(6, 4), (7, 2)])) =
      [0x12, 0, 0xFFFFFFFF, 8] := by decide +kernel

/-- V-BMK-1. -/
theorem test_bmk :
    let t := after (start 0x13 [0x94, 0, 0xAA, 0xBB, 0xCC] [] 9 [])
    results t = [9, 5, 0, 0] ∧ dump t 0x400 9 = [0xAA, 0xAA, 0xAA, 0xBB, 0xBB, 0xCC, 0xCC, 0xCC, 0xCC] := by decide +kernel
/-- V-BMK-3. -/
theorem test_bmk_exhausted : record (after (start 0x13 [0xE0, 7, 8] [] 3 [])) = [0x30, 3, 3, 2] := by decide +kernel

/-- V-CBLK-2. -/
theorem test_cblk_raw :
    let t := after (start 0x14 [0, 3, 0, 0, 0, 9, 8, 7, 6] [] 16 [])
    results t = [3, 8, 0, 0] ∧ dump t 0x400 3 = [9, 8, 7] := by decide +kernel
/-- V-CBLK-7. -/
theorem test_cblk_rle_short : record (after (start 0x14 [1, 9, 0, 0, 0, 0x88, 5] [] 16 [])) = [0x30, 7, 9, 8] := by decide +kernel

/-- V-CHK-7: found behind another chunk, flag bit set. -/
theorem test_chk_find :
    results (after (start 0x20 [0x41, 0x41, 0x41, 0x3A, 2, 0, 0, 0, 1, 2, 0x42, 0x42, 0x42, 0x3A, 1, 0, 0, 0x80, 9] [] 0
      [(9, 0x3A424242)])) = [1, 10, 1, 1] := by decide +kernel
/-- V-CHK-17. -/
theorem test_chk_len_corrupt :
    record (after (start 0x21 [0x41, 0x41, 0x41, 0x3A, 5, 0, 0, 0, 1, 2] [] 0 [])) = [0x10, 0, 13, 10] := by decide +kernel
/-- V-CHK-19. -/
theorem test_chk_wrap :
    let t := after (start 0x22 [0x49, 0x4E, 0x46, 0x3A, 0, 0, 0, 0] [] 16 [(9, 0x3A504D42)])
    results t = [16, 0, 0, 0] ∧
      dump t 0x400 16 = [0x42, 0x4D, 0x50, 0x3A, 8, 0, 0, 0, 0x49, 0x4E, 0x46, 0x3A, 0, 0, 0, 0] := by decide +kernel
/-- V-INF-2. -/
theorem test_inf_get : results (after (start 0x23 [2, 0, 4, 0, 16, 0, 2, 0, 8, 0] [] 0 [(9, 1)])) = [2, 16, 8, 0] := by
  decide +kernel

/-- V-PIX-5: stride above the minimum, padding ignored, most significant bit first. -/
theorem test_pix_unpack :
    let t := after (start 0x1130 [0xA5, 0xC0, 0xFF, 0x0F, 0x40, 0xFF] [] 20 [(6, 10), (7, 2), (8, 3)])
    results t = [20, 5, 2, 0] ∧
      dump t 0x400 20 = [1, 0, 1, 0, 0, 1, 0, 1, 1, 1, 0, 0, 0, 0, 1, 1, 1, 1, 0, 1] := by decide +kernel
/-- V-PIX-10: padding bits are 0, least significant bit first. -/
theorem test_pix_pack :
    let t := after (start 0x0131 [1, 0, 1, 0, 0, 1, 0, 1, 1, 1, 0, 0, 0, 0, 1, 1, 1, 1, 0, 1] [] 4 [(6, 10), (7, 2)])
    results t = [4, 20, 2, 0] ∧ dump t 0x400 4 = [0xA5, 0x03, 0xF0, 0x02] := by decide +kernel
/-- V-PIX-16. -/
theorem test_pix_pack_range : record (after (start 0x1431 [1, 2, 3, 16] [] 2 [(6, 4), (7, 1)])) = [0x35, 3, 15, 16] := by
  decide +kernel
/-- V-NIB-1. -/
theorem test_pix_merge : dump (after (start 0x32 [1, 2, 15] [10, 0, 15] 3 [])) 0x400 3 = [0xA1, 0x02, 0xFF] := by decide +kernel
/-- V-NIB-3. -/
theorem test_pix_merge_range : record (after (start 0x32 [1, 2, 15] [10, 16, 15] 3 [])) = [0x35, 1, 15, 16] := by decide +kernel
/-- V-NIB-6. -/
theorem test_pix_split :
    let t := after (start 0x33 [0xA1, 0x02, 0xFF] [] 3 [(5, 3)])
    dump t 0x400 3 = [1, 2, 15] ∧ dump t 0x800 3 = [10, 0, 15] := by decide +kernel

/-- V-TD-2: pitch above the width, first occurrence in column-major order. -/
theorem test_tile_dedup :
    let t := after (start 0x40 [1, 2, 3, 4, 9, 5, 6, 3, 4, 9, 1, 2, 7, 8, 9, 5, 6, 7, 8, 9] [] 256
      [(5, 256), (6, 4), (7, 4), (8, 5), (10, 2), (11, 1)])
    results t = [4, 8, 20, 8] ∧ dump t 0x400 8 = [1, 2, 5, 6, 3, 4, 7, 8] ∧
      dump t 0x800 20 = [2, 0, 4, 0, 0, 0, 1, 0, 0, 0, 1, 0, 2, 0, 2, 0, 3, 0, 3, 0] := by decide +kernel
/-- V-TX-2. -/
theorem test_tile_expand :
    let t := after (start 0x41 [0x10, 0x11, 0x20, 0x21, 0x30, 0x31] [3, 0, 2, 0, 0, 0, 1, 0, 2, 0, 0, 0, 1, 0, 1, 0] 12
      [(9, 3), (10, 2), (11, 1)])
    results t = [12, 6, 2, 6] ∧
      dump t 0x400 12 = [0x10, 0x11, 0x30, 0x31, 0x20, 0x21, 0x20, 0x21, 0x10, 0x11, 0x20, 0x21] := by decide +kernel
/-- V-TX-4. -/
theorem test_tile_expand_negative_index :
    record (after (start 0x41 [0x10, 0x11, 0x20, 0x21, 0x30, 0x31] [3, 0, 2, 0, 0, 0, 0xFF, 0xFF, 2, 0, 0, 0, 1, 0, 1, 0] 12
      [(9, 3), (10, 2), (11, 1)])) = [0x33, 1, 3, 0xFFFFFFFF] := by decide +kernel

/-- V-REG-3 and V-REG-6. -/
theorem test_region_overlap :
    record (after (start 0x10 [] [] 4 [(1, 0x20), (2, 0x11F)])) = [0x51, 0x101, 0x11F, 4] ∧
    record (after (start 0x33 [] [] 8 [(1, 8), (4, 0x404), (5, 8)])) = [0x51, 0x112, 0x404, 8] := by decide +kernel

/-- V-SYS-1: what the host reads after reset. -/
theorem test_reset_reads :
    readReg State.reset 0x58 = 0x45460407 ∧ readReg State.reset 0x44 = 0 ∧ readReg State.reset 0x5C = 0x01000000 := by decide +kernel
/-- R42: a write while `BUSY` is discarded and sets `OVR`; `STATUS` reads `0x0A` after the command. -/
theorem test_overrun :
    let t := after { start 0x00 [] [] 0 [] with agenda := [.writeReg 0 5] }
    t.x 0 = 0x100 ∧ t.ovr = true ∧ (after t).statusWord = 0x0A := by decide +kernel

/-- A placed word is what the next step runs: a command, `ACK`, and an illegal word. -/
theorem test_fetch :
    (after (State.reset.withFetchWord 32 0x10)).statusWord = 0x02 ∧ (after (State.reset.withFetchWord 32 0x23)).fcode = 0x11 ∧
    (after (State.reset.withFetchWord 32 0x01)).cmd = 1 ∧ (after (State.reset.withFetchWord 32 0x1331)).fcode = 0x50 := by
  decide +kernel

/-! ### Witnesses: for each statement with hypotheses, states and operands that meet them, clause by clause -/

/-- The state that the command leaves, or the same state where it stops. -/
def ran (i : Instr) (s : State) : State :=
  match exec i s with
  | .next t => t
  | _ => s

/-- `s` with this agenda and `STATE`. -/
def facing (s : State) (p : Phase) (l : List Event) : State := { s with phase := p, agenda := l }

/-- `s` with these operand registers set, by number. -/
def withOps (s : State) (ops : List (Nat × Nat)) : State :=
  { s with opr := Vector.ofFn fun k => ((ops.lookup k.val).map (BitVec.ofNat 32)).getD s.opr[k] }

def blank : State := start 0x00 [] [] 0 []

theorem byteAt_withOps (s : State) (ops : List (Nat × Nat)) (a : Nat) : (withOps s ops).byteAt a = s.byteAt a := rfl

/-- Every command answers a next state. -/
theorem exec_ran (i : Instr) (s : State) : exec i s = .next (ran i s) := by
  cases i <;> rfl

theorem witness_IllegalWordFaultsBadCmd :
    (∀ w ∈ [(0x00002000 : Word), 0x1F00, 0x01, 0x0330, 0xFFFFFFFF],
      (start w [] [] 0 []).phase = .busy ∧ (start w [] [] 0 []).agenda = [] ∧ r97Illegal (start w [] [] 0 []).cmd) ∧
    (∀ w ∈ [(0x00000000 : Word), 0x41, 0x0130, 0x1831],
      (start w [] [] 0 []).phase = .busy ∧ (start w [] [] 0 []).agenda = [] ∧ ¬ r97Illegal (start w [] [] 0 []).cmd) :=
  ⟨fun w h => ⟨rfl, rfl, by fin_cases h <;> simp [r97Illegal, start]⟩,
    fun w h => ⟨rfl, rfl, by fin_cases h <;> simp [r97Illegal, start]⟩⟩

theorem witness_IllFormedBppFaultsBadCmd : ∀ b ∈ [(0 : BitVec 4), 3, 15], legalBpp b = false := by decide

theorem witness_StepRunsDecodedCommand :
    (∀ l ∈ [[], [.engine], [.wait]],
      (facing (start 0x1831 [] [] 0 []) .busy l).phase = .busy ∧
      decode (facing (start 0x1831 [] [] 0 []) .busy l).cmd = .ok (.pixPack 8 true)) ∧
    NextCmd (facing blank .fault [.writeReg 0x40 1]) 0x00000001 :=
  ⟨fun l h => by fin_cases h <;> exact ⟨rfl, rfl⟩, rfl⟩

theorem witness_CmdWriteHandling :
    ∀ p ∈ [Phase.idle, .busy, .done, .fault], ∀ w ∈ [(0x00000000 : Word), 0x00000001, 0xFFFFFFFF],
      NextCmd (facing blank p [.writeReg 0x40 w]) w ∧ (facing blank p [.writeReg 0x40 w]).phase = p :=
  fun _ _ _ _ => ⟨rfl, rfl⟩

theorem witness_AckReturnsToIdle : (facing blank .fault []).phase ≠ .busy ∧ blank.phase = .busy := by decide +kernel

theorem witness_NopRuns :
    ((facing blank .idle [.writeReg 0x40 0]).phase = .idle ∧ (facing blank .idle [.writeReg 0x40 0]).agenda = [.writeReg 0x40 0]) ∧
    ((facing blank .done [.writeReg 0x40 0]).phase = .done ∧ (facing blank .done [.writeReg 0x40 0]).agenda = [.writeReg 0x40 0]) ∧
    (facing blank .fault [.writeReg 0x40 0]).phase = .fault ∧ NextCmd (facing blank .fault [.writeReg 0x40 0]) 0 := by decide +kernel

theorem witness_ResetLeaves : NextReset (facing blank .fault [.reset]) := rfl

/-- A step for every case of the `STATE`, `SHORT`, `OVR` and `FSTICKY` rules: an accepted command, a completion, a completion of
`RLE.DEC` with and without `SHORT`, a fault, an accepted and a discarded `ACK`, discarded writes, a reset, a read. -/
theorem witness_flag_rules :
    (let s := facing blank .done [.writeReg 0x40 0x10]
     step s = .next (after s) ∧ NextCmd s 0x10 ∧ (0x10 : Word) ≠ ackWord ∧ s.phase = .done) ∧
    (let s := start 0x10 [2, 1, 2] [] 3 []
     step s = .next (after s) ∧ s.phase = .busy ∧ EngineMoves s ∧ decode s.cmd = .ok .rleDec ∧ (after s).phase = .done) ∧
    (let s := start 0x10 [2, 1, 2] [] 2 []
     step s = .next (after s) ∧ s.phase = .busy ∧ EngineMoves s ∧ decode s.cmd = .ok .rleDec ∧ (after s).phase = .done) ∧
    (let s := start 0x14 [] [] 2 []
     step s = .next (after s) ∧ s.phase = .busy ∧ EngineMoves s ∧ decode s.cmd = .ok .cblkDec ∧ (after s).phase = .fault) ∧
    (let s := facing blank .fault [.writeReg 0x40 1]
     step s = .next (after s) ∧ NextCmd s ackWord ∧ s.phase ≠ .busy) ∧
    (let s := facing blank .busy [.writeReg 0x40 1]
     step s = .next (after s) ∧ NextCmd s ackWord ∧ s.phase = .busy) ∧
    (let s := facing blank .busy [.writeReg 0x2C 7]
     step s = .next (after s) ∧ NextOperand s 11 7 ∧ s.phase = .busy) ∧
    (let s := facing blank .fault [.writeReg 0x40 0]
     step s = .next (after s) ∧ NextCmd s 0 ∧ (0 : Word) ≠ ackWord ∧ s.phase = .fault) ∧
    (let s := facing blank .busy [.reset]
     step s = .next (after s) ∧ NextReset s) ∧
    (let s := facing blank .done [.readReg 0x44]
     step s = .next (after s) ∧ (∀ w, ¬ NextCmd s w) ∧ (∀ k v, ¬ NextOperand s k v) ∧ ¬ NextReset s ∧ s.phase ≠ .busy) :=
  ⟨⟨rfl, rfl, by decide, rfl⟩, ⟨rfl, rfl, .inl rfl, rfl, by decide +kernel⟩, ⟨rfl, rfl, .inl rfl, rfl, by decide +kernel⟩,
    ⟨rfl, rfl, .inl rfl, rfl, by decide +kernel⟩, ⟨rfl, rfl, by decide⟩, ⟨rfl, rfl, rfl⟩, ⟨rfl, rfl, rfl⟩,
    ⟨rfl, rfl, by decide, rfl⟩, ⟨rfl, rfl⟩, ⟨rfl, nofun, nofun, nofun, by decide⟩⟩

theorem witness_PhaseTransitionsComplete :
    let s := facing blank .done [.writeReg 0x40 0x10]
    step s = .next (after s) ∧ NextCmd s 0x10 ∧ (0x10 : Word) ≠ ackWord ∧ s.phase = .done := ⟨rfl, rfl, by decide, rfl⟩
theorem witness_ShortFlagRule :
    let s := start 0x10 [2, 1, 2] [] 3 []
    step s = .next (after s) ∧ s.phase = .busy ∧ EngineMoves s ∧ decode s.cmd = .ok .rleDec ∧ (after s).phase = .done :=
  ⟨rfl, rfl, .inl rfl, rfl, by decide +kernel⟩
theorem witness_OvrFlagRule :
    let s := facing blank .busy [.writeReg 0x2C 7]
    step s = .next (after s) ∧ s.phase = .busy ∧ NextOperand s 11 7 := ⟨rfl, rfl, rfl⟩
theorem witness_FstickyRule :
    let s := start 0x14 [] [] 2 []
    step s = .next (after s) ∧ ¬ NextReset s ∧ s.phase ≠ .fault ∧ (after s).phase = .fault :=
  ⟨rfl, nofun, by decide, by decide +kernel⟩

theorem witness_OperandRegistersChangeOnlyByHost :
    NextOperand (facing blank .idle [.writeReg 0x00 5]) 0 5 ∧ NextOperand (facing blank .busy [.writeReg 0x2C 5]) 11 5 ∧
    (facing blank .idle [.writeReg (4 * 12) 5]).agenda.head? = some (.writeReg (4 * 12) 5) ∧
    (facing blank .idle [.writeReg (4 * 15) 5]).agenda.head? = some (.writeReg (4 * 15) 5) ∧
    step blank = .next (after blank) ∧ (∀ k v, ¬ NextOperand blank k v) ∧ ¬ NextReset blank :=
  ⟨rfl, rfl, rfl, rfl, rfl, nofun, nofun⟩

theorem witness_RegisterMap : (0x41 % 4 ≠ 0 ∨ 0x60 ≤ 0x41) ∧ (0x60 % 4 ≠ 0 ∨ 0x60 ≤ 0x60) := by decide

/-- The last bytes of `MEM`, and one byte beyond. -/
theorem witness_HostMemoryAccess :
    (let s := facing blank .idle [.poke 0xFFFE (bytes [1, 2])]
     s.agenda.head? = some (.poke 0xFFFE (bytes [1, 2])) ∧ s.phase ≠ .busy ∧ 0xFFFE + (bytes [1, 2]).length ≤ s.cfg.memSize) ∧
    (let s := facing blank .fault [.peek 0xFFFF 1]
     s.agenda.head? = some (.peek 0xFFFF 1) ∧ s.phase ≠ .busy ∧ 0xFFFF + 1 ≤ s.cfg.memSize) ∧
    (let s := facing blank .busy [.peek 0 0]
     s.agenda.head? = some (.peek 0 0) ∧ s.phase = .busy) ∧
    (let s := facing blank .idle [.poke 0xFFFF (bytes [1, 2])]
     s.agenda.head? = some (.poke 0xFFFF (bytes [1, 2])) ∧ s.phase ≠ .busy ∧ 0xFFFF + (bytes [1, 2]).length > s.cfg.memSize) ∧
    (let s := facing blank .done [.peek 0x10000 1]
     s.agenda.head? = some (.peek 0x10000 1) ∧ s.phase ≠ .busy ∧ 0x10000 + 1 > s.cfg.memSize) := by decide +kernel

theorem witness_InvKeptByEveryStep :
    (let s := start 0x10 [2, 1, 2] [] 2 []
     Inv s ∧ step s = .next (after s)) ∧
    (let s := facing (ran .cblkDec (start 0x14 [] [] 2 [])) .fault [.writeReg 0x40 1]
     Inv s ∧ step s = .next (after s)) :=
  ⟨⟨by decide +kernel, rfl⟩, ⟨by decide +kernel, rfl⟩⟩

theorem witness_EngineStepFrame : Instr.tileDedup ≠ .ack := by decide

theorem witness_FaultPrecision :
    (let s := start 0x14 [] [] 2 []
     exec .cblkDec s = .next (ran .cblkDec s) ∧ (ran .cblkDec s).phase = .fault ∧
      (ran .cblkDec s).fcode ∉ [ErrCode.lenMismatch.word, ErrCode.lzwCode.word, ErrCode.scnStream.word]) ∧
    (let s := start 0x32 [1, 2] [3] 2 []
     exec .pixMerge s = .next (ran .pixMerge s) ∧ (ran .pixMerge s).phase = .fault ∧
      (ran .pixMerge s).fcode = ErrCode.lenMismatch.word) ∧
    (let s := start 0x14 [0, 2, 0, 0, 0, 1] [] 2 []
     exec .cblkDec s = .next (ran .cblkDec s) ∧ (ran .cblkDec s).phase = .fault ∧ s.src 0 = 0) ∧
    (let s := start 0x11 [0x41, 0x04, 0x02] [] 5 []
     exec .lzwDec s = .next (ran .lzwDec s) ∧ (ran .lzwDec s).phase = .fault ∧ (ran .lzwDec s).fcode = ErrCode.lzwCode.word) :=
  ⟨⟨exec_ran .., by decide +kernel, by decide +kernel⟩, ⟨exec_ran .., by decide +kernel, by decide +kernel⟩,
    ⟨exec_ran .., by decide +kernel, by decide +kernel⟩, ⟨exec_ran .., by decide +kernel, by decide +kernel⟩⟩

theorem witness_FaultEntry :
    let s := start 0x00000041 [] [] 0 []
    step s = .next (after s) ∧ s.phase ≠ .fault ∧ (after s).phase = .fault := ⟨rfl, by decide, by decide +kernel⟩

theorem witness_FaultHeldUntilAck :
    let s := facing blank .fault
    ((s [.writeReg 0 5]).phase = .fault ∧ step (s [.writeReg 0 5]) = .next (after (s [.writeReg 0 5])) ∧
      ¬ NextCmd (s [.writeReg 0 5]) ackWord ∧ ¬ NextReset (s [.writeReg 0 5])) ∧
    (NextCmd (s [.writeReg 0x40 0]) 0 ∧ (0 : Word) ≠ ackWord) ∧ NextCmd (s [.writeReg 0x40 1]) ackWord :=
  ⟨⟨rfl, rfl, nofun, nofun⟩, ⟨rfl, by decide⟩, rfl⟩

theorem witness_BusyEnds :
    (blank.phase = .busy ∧ ∀ e ∈ blank.agenda, (∀ a bs, e ≠ .poke a bs) ∧ (∀ a n, e ≠ .peek a n)) ∧
    (let s := facing blank .busy [.writeReg 0x40 1, .readReg 0x44, .wait]
     s.phase = .busy ∧ ∀ e ∈ s.agenda, (∀ a bs, e ≠ .poke a bs) ∧ (∀ a n, e ≠ .peek a n)) :=
  ⟨⟨rfl, fun e h => absurd h (by simp [blank, start, State.reset])⟩,
    ⟨rfl, fun e h => by
      simp only [facing, List.mem_cons, List.not_mem_nil, or_false] at h
      rcases h with rfl | rfl | rfl <;> exact ⟨nofun, nofun⟩⟩⟩

/-- The two states differ in `AUX`, `WIDTH` and the contents of `DST`. -/
theorem witness_CommandDependsOnItsInputsOnly :
    let s := start 0x10 [2, 1, 2] [] 2 []
    let u := { withOps s [(4, 5), (6, 9)] with mem := Memory.writeList s.mem 0x400 (bytes [7, 7]) }
    Instr.rleDec ≠ .ack ∧ SameInputs .rleDec s u ∧ s.mem ≠ u.mem ∧ exec .rleDec s = .next (ran .rleDec s) ∧
      exec .rleDec u = .next (ran .rleDec u) :=
  ⟨by decide, by decide +kernel, by decide +kernel, exec_ran .., exec_ran ..⟩

/-- Every test of the region check fails somewhere: one byte beyond `MEM`, and one shared byte. -/
theorem witness_RegionCheckFirst :
    let s := start 0x40 [] [] 4 []
    let fault := fun ops => regionFault (rolesOf .tileDedup) (withOps s ops)
    Instr.tileDedup.wf = true ∧
    fault [(0, 0xFFFF), (1, 2)] = some (0x00, 0xFFFF, 2) ∧ fault [(2, 0x10000), (3, 1)] = some (0x11, 0x10000, 1) ∧
    fault [(4, 0x10001), (5, 0)] = some (0x22, 0x10001, 0) ∧ fault [(1, 0x301)] = some (0x101, 0x400, 4) ∧
    fault [(1, 0x20), (4, 0x11F), (5, 1)] = some (0x102, 0x11F, 1) ∧ fault [(4, 0x403), (5, 1)] = some (0x112, 0x403, 1) ∧
    fault [(4, 0x404), (5, 1)] = none := by decide +kernel

/-- A read-back of a list as a source. -/
def reader (l : List Nat) (j : Nat) : Byte := (bytes l).getD j 0

theorem witness_RleNeverOverruns : (rleDecode (reader [2, 1, 2]) 0 3 3).1.length < 3 := by decide +kernel

/-- An empty literal group, the longest repeat group and a literal group. -/
theorem witness_RleStreamRoundTrip :
    let gs : List RleGroup := [.literal [], .repeated 127 9, .literal (bytes [1, 2])]
    (∀ g ∈ gs, g.ok = true) ∧
    (∀ j (h : j < (gs.flatMap RleGroup.stream).length), reader [0, 0xFF, 9, 2, 1, 2] (0 + j) = (gs.flatMap RleGroup.stream)[j]) ∧
    (∀ g ∈ gs.getLast?, g.count ≠ 0) := by decide +kernel

theorem witness_RleDecRuns : regionFault (rolesOf .rleDec) (start 0x10 [2, 1, 2] [] 3 []) = none := by decide +kernel

theorem witness_LzwStandardBounds :
    lzwStandard (reader [0x41, 0x84, 0x04, 0x1C, 0x08]) 0 5 7 = (bytes [0x41, 0x42, 0x41, 0x42, 0x41, 0x42, 0x41], .ok 5) ∧
    lzwStandard (reader [0x41]) 0 1 1 = ([], .exhausted 0) ∧
    lzwStandard (reader [0x41, 0x04, 0x02]) 0 3 5 = (bytes [0x41], .badCode 1 0x101 0x102) := by decide +kernel

theorem witness_LzwLiteralStream :
    0 ≤ 256 ∧ 9 * 3 ≤ 8 * 4 ∧ ∀ k, k < 3 → lzwCodeAt (reader [0x41, 0x84, 0x0C, 0x01]) 0 (9 * k) 9 < 256 := by decide +kernel

theorem witness_LzwDecRuns :
    (let s := start 0x11 [0x41, 0x84, 0x04, 0x1C, 0x08] [] 7 []
     regionFault (rolesOf .lzwDec) s = none ∧
      lzwDecode s.cfg.lzw s.src 0 s.srcLen s.dstLen = (bytes [0x41, 0x42, 0x41, 0x42, 0x41, 0x42, 0x41], .ok 5)) ∧
    (let s := start 0x11 [0x41] [] 1 []
     regionFault (rolesOf .lzwDec) s = none ∧ lzwDecode s.cfg.lzw s.src 0 s.srcLen s.dstLen = ([], .exhausted 0)) ∧
    (let s := start 0x11 [0x41, 0x04, 0x02] [] 5 []
     regionFault (rolesOf .lzwDec) s = none ∧
      lzwDecode s.cfg.lzw s.src 0 s.srcLen s.dstLen = (bytes [0x41], .badCode 1 0x101 0x102)) := by decide +kernel

theorem witness_CblkDecRuns :
    (let s := start 0x14 [0, 3, 0, 0, 0, 9, 8, 7] [] 3 []
     regionFault (rolesOf .cblkDec) s = none ∧ 5 ≤ s.srcLen ∧ le32At s.src 1 ≤ s.dstLen ∧ s.src 0 = 0 ∧
      5 + le32At s.src 1 ≤ s.srcLen) ∧
    (let s := start 0x14 [1, 2, 0, 0, 0, 0x82, 5] [] 2 []
     regionFault (rolesOf .cblkDec) s = none ∧ 5 ≤ s.srcLen ∧ le32At s.src 1 ≤ s.dstLen ∧ s.src 0 = 1 ∧
      rleDecode s.src 5 (s.srcLen - 5) (le32At s.src 1) = (bytes [5, 5], 2) ∧ (bytes [5, 5]).length = le32At s.src 1) ∧
    (let s := start 0x14 [2, 0, 0, 0, 0] [] 0 []
     regionFault (rolesOf .cblkDec) s = none ∧ 5 ≤ s.srcLen ∧ le32At s.src 1 ≤ s.dstLen ∧ s.src 0 = 2 ∧
      lzwDecode s.cfg.lzw s.src 5 (s.srcLen - 5) (le32At s.src 1) = ([], .ok 0)) := by decide +kernel

theorem witness_CblkUnsupportedTypes :
    ∀ k ∈ [3, 4, 255],
      let s := start 0x14 [k, 0, 0, 0, 0] [] 0 []
      regionFault (rolesOf .cblkDec) s = none ∧ 5 ≤ s.srcLen ∧ (s.src 0).toNat = k := by decide +kernel

theorem witness_CblkLengthFaults :
    (let s := start 0x14 [0, 0, 0, 0] [] 0 []
     regionFault (rolesOf .cblkDec) s = none ∧ s.srcLen < 5) ∧
    (let s := start 0x14 [2, 1, 0, 0, 0] [] 0 []
     regionFault (rolesOf .cblkDec) s = none ∧ 5 ≤ s.srcLen ∧ (s.src 0).toNat < 3 ∧ s.dstLen < le32At s.src 1) ∧
    (let s := start 0x14 [0, 1, 0, 0, 0] [] 1 []
     regionFault (rolesOf .cblkDec) s = none ∧ 5 ≤ s.srcLen ∧ le32At s.src 1 ≤ s.dstLen ∧ s.src 0 = 0 ∧
      s.srcLen < 5 + le32At s.src 1) ∧
    (let s := start 0x14 [1, 3, 0, 0, 0, 0x82, 5] [] 3 []
     regionFault (rolesOf .cblkDec) s = none ∧ 5 ≤ s.srcLen ∧ le32At s.src 1 ≤ s.dstLen ∧ s.src 0 = 1 ∧
      rleDecode s.src 5 (s.srcLen - 5) (le32At s.src 1) = (bytes [5, 5], 2) ∧ (bytes [5, 5]).length ≠ le32At s.src 1) ∧
    (let s := start 0x14 [2, 1, 0, 0, 0, 0x41] [] 1 []
     regionFault (rolesOf .cblkDec) s = none ∧ 5 ≤ s.srcLen ∧ le32At s.src 1 ≤ s.dstLen ∧ s.src 0 = 2 ∧
      lzwDecode s.cfg.lzw s.src 5 (s.srcLen - 5) (le32At s.src 1) = ([], .exhausted 0)) ∧
    (let s := start 0x14 [2, 5, 0, 0, 0, 0x41, 0x04, 0x02] [] 5 []
     regionFault (rolesOf .cblkDec) s = none ∧ 5 ≤ s.srcLen ∧ le32At s.src 1 ≤ s.dstLen ∧ s.src 0 = 2 ∧
      lzwDecode s.cfg.lzw s.src 5 (s.srcLen - 5) (le32At s.src 1) = (bytes [0x41], .badCode 1 0x101 0x102)) := by decide +kernel

/-- With and without the trailing marker; 4 and 8 bits. -/
theorem witness_ScnDepthAndMarker :
    scnStandard (bytes [5, 2, 0, 0, 3, 1]) 2 2 = (bytes [5, 5, 3, 0], .ok false false) ∧
    scnStandard (bytes [0x10, 2, 0, 0, 3, 1, 0, 0]) 2 2 = (bytes [0x10, 0x10, 3, 0], .ok true true) := by decide +kernel
theorem witness_ScnPixels :
    scnStandard (bytes [0x10, 2, 0, 0, 3, 1, 0, 0]) 2 2 = (bytes [0x10, 0x10, 3, 0], .ok true true) := by decide +kernel

/-- The last frame, whose end is the end of `SRC`, and a frame before it. -/
theorem witness_ScnDecRuns :
    ∀ c ∈ [(0, 0, 2), (1, 2, 4)],
      let s := start 0x12 [5, 2, 0x10, 1] [0, 0, 0, 0, 2, 0, 0, 0] 2 [(6, 2), (7, 1), (9, c.1)]
      regionFault (rolesOf .scnDec) s = none ∧ 0 < s.width ∧ 0 < s.height ∧ s.auxLen % 4 = 0 ∧ s.arg < s.auxLen / 4 ∧
      s.width * s.height ≤ s.dstLen ∧ sle32At s.aux (4 * s.arg) = (c.2.1 : Nat) ∧
      (if s.arg + 1 < s.auxLen / 4 then sle32At s.aux (4 * s.arg + 4) else (s.srcLen : Int)) = (c.2.2 : Nat) ∧
      c.2.1 < c.2.2 ∧ c.2.2 ≤ s.srcLen ∧
      scnDecode s.cfg.scn ((List.range (c.2.2 - c.2.1)).map fun j => s.src (c.2.1 + j)) s.width s.height =
        (if c.1 = 0 then bytes [5, 5] else bytes [0x10, 0], .ok (decide (c.1 = 1)) false) := by decide +kernel

theorem witness_ScnDecFaults :
    (∀ ops ∈ [[(6, 0), (7, 1)], [(6, 1), (7, 0)]],
      regionFault (rolesOf .scnDec) (start 0x12 [5, 2] [0, 0, 0, 0] 2 ops) = none) ∧
    (let s := start 0x12 [5, 2] [0, 0, 0, 0, 0] 2 [(6, 2), (7, 1)]
     regionFault (rolesOf .scnDec) s = none ∧ s.width ≠ 0 ∧ s.height ≠ 0 ∧ s.auxLen % 4 ≠ 0) ∧
    (let s := start 0x12 [5, 2] [0, 0, 0, 0] 2 [(6, 2), (7, 1), (9, 1)]
     regionFault (rolesOf .scnDec) s = none ∧ s.width ≠ 0 ∧ s.height ≠ 0 ∧ s.auxLen % 4 = 0 ∧ s.auxLen / 4 ≤ s.arg) ∧
    (let s := start 0x12 [5, 2] [0, 0, 0, 0] 1 [(6, 2), (7, 1)]
     regionFault (rolesOf .scnDec) s = none ∧ s.width ≠ 0 ∧ s.height ≠ 0 ∧ s.auxLen % 4 = 0 ∧ s.arg < s.auxLen / 4 ∧
      s.dstLen < s.width * s.height) ∧
    (∀ c ∈ [[0xFF, 0xFF, 0xFF, 0xFF, 2, 0, 0, 0], [1, 0, 0, 0, 0, 0, 0, 0], [0, 0, 0, 0, 3, 0, 0, 0]],
      let s := start 0x12 [5, 2] c 2 [(6, 2), (7, 1)]
      regionFault (rolesOf .scnDec) s = none ∧ s.width ≠ 0 ∧ s.height ≠ 0 ∧ s.auxLen % 4 = 0 ∧ s.arg < s.auxLen / 4 ∧
      s.width * s.height ≤ s.dstLen ∧ s.arg + 1 < s.auxLen / 4 ∧
      (sle32At s.aux (4 * s.arg) < 0 ∨ sle32At s.aux (4 * s.arg + 4) < sle32At s.aux (4 * s.arg) ∨
        sle32At s.aux (4 * s.arg + 4) > s.srcLen)) ∧
    (let s := start 0x12 [5, 2] [2, 0, 0, 0] 2 [(6, 2), (7, 1)]
     regionFault (rolesOf .scnDec) s = none ∧ s.width ≠ 0 ∧ s.height ≠ 0 ∧ s.auxLen % 4 = 0 ∧ s.arg < s.auxLen / 4 ∧
      s.width * s.height ≤ s.dstLen ∧ ¬ s.arg + 1 < s.auxLen / 4 ∧ sle32At s.aux (4 * s.arg) = s.srcLen) ∧
    (let s := start 0x12 [5] [0, 0, 0, 0] 2 [(6, 2), (7, 1)]
     regionFault (rolesOf .scnDec) s = none ∧ s.width ≠ 0 ∧ s.height ≠ 0 ∧ s.auxLen % 4 = 0 ∧ s.arg < s.auxLen / 4 ∧
      s.width * s.height ≤ s.dstLen ∧ ¬ s.arg + 1 < s.auxLen / 4 ∧ sle32At s.aux (4 * s.arg) = 0 ∧ s.srcLen = 1 ∧
      scnDecode s.cfg.scn ((List.range 1).map fun j => s.src (0 + j)) s.width s.height = (bytes [0, 0], .bad 0 1 5)) := by
  decide +kernel

theorem witness_BmkLayout :
    bmkStandard (reader [0x94, 0, 0xAA, 0xBB, 0xCC]) 5 9 = (bytes [0xAA, 0xAA, 0xAA, 0xBB, 0xBB, 0xCC, 0xCC, 0xCC, 0xCC], .ok 5) := by
  decide +kernel

theorem witness_BmkDecRuns :
    (let s := start 0x13 [0x80, 7] [] 1 []
     regionFault (rolesOf .bmkDec) s = none ∧ bmkDecode s.cfg.bmk s.src s.srcLen s.dstLen = (bytes [7], .ok 2)) ∧
    (let s := start 0x13 [0x80] [] 9 []
     regionFault (rolesOf .bmkDec) s = none ∧ bmkDecode s.cfg.bmk s.src s.srcLen s.dstLen = ([], .truncated 2)) ∧
    (let s := start 0x13 [0xE0, 7, 8] [] 3 []
     regionFault (rolesOf .bmkDec) s = none ∧ bmkDecode s.cfg.bmk s.src s.srcLen s.dstLen = (bytes [7, 8], .exhausted 3 2)) := by
  decide +kernel

/-- `SRC` is one empty chunk of identifier `AAA:`. -/
def oneChunk (idw : Nat) : State := start 0x20 [0x41, 0x41, 0x41, 0x3A, 0, 0, 0, 0] [] 0 [(9, idw)]

/-- Sought and found, and sought and not there. -/
theorem witness_ChkFindFindsFirst :
    ∀ w ∈ [0x3A414141, 0x3A424242], regionFault (rolesOf .chkFind) (oneChunk w) = none ∧ r120Ok (oneChunk w).opr[9] ∧
      (∀ o, Visited (oneChunk w) o → o + 8 ≤ (oneChunk w).srcLen →
        (∀ p, Visited (oneChunk w) p → p < o → le32At (oneChunk w).src p ≠ (oneChunk w).arg) →
        o + 8 + (oneChunk w).chunkLenAt o ≤ (oneChunk w).srcLen) := by
  intro w hw
  have h : regionFault (rolesOf .chkFind) (oneChunk w) = none ∧ r120Ok (oneChunk w).opr[9] ∧ (oneChunk w).srcLen = 8 ∧
      (oneChunk w).chunkLenAt 0 = 0 := by
    fin_cases hw <;> decide +kernel
  refine ⟨h.1, h.2.1, fun o _ ho _ => ?_⟩
  have : o = 0 := by omega
  subst this
  omega

theorem witness_ChkFindFaults :
    (regionFault (rolesOf .chkFind) (oneChunk 0x41414141) = none ∧ ¬ r120Ok (oneChunk 0x41414141).opr[9]) ∧
    (let s := start 0x20 [0x41, 0x41, 0x41, 0x3A, 1, 0, 0, 0] [] 0 [(9, 0x3A424242)]
     regionFault (rolesOf .chkFind) s = none ∧ r120Ok s.opr[9] ∧ Visited s 0 ∧ 0 + 8 ≤ s.srcLen ∧
      (∀ p, Visited s p → p < 0 → le32At s.src p ≠ s.arg) ∧ s.srcLen < 0 + 8 + s.chunkLenAt 0) :=
  ⟨by decide +kernel, by decide +kernel, by decide +kernel, .start, by decide +kernel, fun _ _ h => absurd h (by omega),
    by decide +kernel⟩

theorem witness_ChkLenRuns :
    (let s := start 0x21 [0x41, 0x41, 0x41, 0x3A, 0, 0, 0] [] 0 []
     regionFault (rolesOf .chkLen) s = none ∧ s.srcLen < s.arg + 8) ∧
    (let s := start 0x21 [0x41, 0x80, 0x41, 0x3A, 0, 0, 0, 0] [] 0 []
     regionFault (rolesOf .chkLen) s = none ∧ s.arg + 8 ≤ s.srcLen ∧ ¬ (s.src (s.arg + 1)).toNat < 0x80) ∧
    (∀ n ∈ [0, 1],
      let s := start 0x21 [0x41, 0x41, 0x7F, 0x3A, n, 0, 0, 0x80] [] 0 []
      regionFault (rolesOf .chkLen) s = none ∧ s.arg + 8 ≤ s.srcLen ∧ (s.src s.arg).toNat < 0x80 ∧
      (s.src (s.arg + 1)).toNat < 0x80 ∧ (s.src (s.arg + 2)).toNat < 0x80 ∧ s.src (s.arg + 3) = 0x3A ∧
      s.arg + 8 + s.chunkLenAt s.arg = s.srcLen + n) := by decide +kernel

theorem witness_ChkWrapRuns :
    (let s := start 0x22 [7] [] 9 [(9, 0x41414141)]
     regionFault (rolesOf .chkWrap) s = none ∧ ¬ r120Ok s.opr[9]) ∧
    (let s := { start 0x22 [] [] 0 [(0, 0), (1, 0x80000000), (9, 0x3A414141)] with
       cfg := { Config.standard with memSize := 2 ^ 31 } }
     regionFault (rolesOf .chkWrap) s = none ∧ r120Ok s.opr[9] ∧ 0x7FFFFFFF < s.srcLen) ∧
    (∀ n ∈ [8, 9],
      let s := start 0x22 [7] [] n [(9, 0x3A414141)]
      regionFault (rolesOf .chkWrap) s = none ∧ r120Ok s.opr[9] ∧ s.srcLen ≤ 0x7FFFFFFF ∧ s.dstLen = n ∧
      8 + s.srcLen = 9) := by decide +kernel

theorem witness_WrappedChunkIsFound :
    let s := start 0x22 [7] [] 9 [(9, 0x3A414141)]
    let t := ran .chkWrap s
    (∀ n ∈ [0x3A414141, 0],
      let u := withOps t [(0, 0x400), (1, 9), (9, n)]
      regionFault (rolesOf .chkWrap) s = none ∧ t.phase = .done ∧ u.srcBase = s.dstBase ∧ u.srcLen = t.res[0].toNat ∧
      regionFault (rolesOf .chkFind) u = none ∧ (u.opr[9] = s.opr[9] ∨ u.opr[9] = 0)) ∧
    exec .chkWrap s = .next t ∧ ∀ n a, (withOps t [(0, 0x400), (1, 9), (9, n)]).byteAt a = t.byteAt a :=
  ⟨by decide +kernel, exec_ran .., fun _ => byteAt_withOps _ _⟩

theorem witness_InfGetRuns :
    (let s := start 0x23 [1] [] 0 []
     regionFault (rolesOf .infGet) s = none ∧ s.srcLen < 2) ∧
    (let s := start 0x23 [1, 0, 4, 0, 4] [] 0 []
     regionFault (rolesOf .infGet) s = none ∧ 2 ≤ s.srcLen ∧ s.srcLen < 2 + 4 * le16At s.src 0) ∧
    (∀ k ∈ [0, 1],
      let s := start 0x23 [1, 0, 4, 0, 4, 0] [] 0 [(9, k)]
      regionFault (rolesOf .infGet) s = none ∧ 2 ≤ s.srcLen ∧ 2 + 4 * le16At s.src 0 ≤ s.srcLen ∧ le16At s.src 0 = 1 ∧
      s.arg = k) := by decide +kernel

theorem witness_PixUnpackRuns :
    let s := start 0x0130 [0xA5, 1, 0xFF] [] 18 [(6, 9), (7, 1), (8, 2)]
    legalBpp 1 = true ∧ regionFault (rolesOf (.pixUnpack 1 false)) s = none ∧ ceilDiv (s.width * 1) 8 ≤ s.stride ∧
      (if s.width > 0 ∧ s.height > 0 then (s.height - 1) * s.stride + ceilDiv (s.width * 1) 8 else 0) ≤ s.srcLen ∧
      s.width * s.height ≤ s.dstLen := by decide +kernel

theorem witness_PixPackRuns :
    let s := start 0x1431 [15, 0, 1] [] 2 [(6, 3), (7, 1)]
    legalBpp 4 = true ∧ regionFault (rolesOf (.pixPack 4 true)) s = none ∧ s.width * s.height ≤ s.srcLen ∧
      ceilDiv (s.width * 4) 8 * s.height ≤ s.dstLen ∧ ∀ i, i < s.width * s.height → (s.src i).toNat < 2 ^ 4 := by decide +kernel

theorem witness_PackThenUnpackIsIdentity :
    let s := start 0x1431 [15, 0, 1] [] 2 [(6, 3), (7, 1)]
    let t := ran (.pixPack 4 true) s
    let u := withOps t [(0, 0x400), (1, 2), (2, 0x500), (3, 3), (8, 2)]
    (legalBpp 4 = true ∧ t.phase = .done ∧ u.srcBase = s.dstBase ∧ u.srcLen = t.res[0].toNat ∧ u.stride = t.res[2].toNat ∧
      u.width = s.width ∧ u.height = s.height ∧ s.width * s.height ≤ u.dstLen ∧
      regionFault (rolesOf (.pixUnpack 4 true)) u = none) ∧
    exec (.pixPack 4 true) s = .next t ∧ ∀ a, u.byteAt a = t.byteAt a :=
  ⟨by decide +kernel, exec_ran .., byteAt_withOps _ _⟩

theorem witness_PixRowFaults :
    legalBpp 4 = true ∧
    (let s := start 0x0430 [1, 2] [] 6 [(6, 3), (7, 2), (8, 1)]
     regionFault (rolesOf (.pixUnpack 4 false)) s = none ∧ s.stride < ceilDiv (s.width * 4) 8) ∧
    (let s := start 0x0430 [1, 2, 3] [] 6 [(6, 3), (7, 2), (8, 2)]
     regionFault (rolesOf (.pixUnpack 4 false)) s = none ∧ ceilDiv (s.width * 4) 8 ≤ s.stride ∧ s.width > 0 ∧ s.height > 0 ∧
      s.srcLen < (s.height - 1) * s.stride + ceilDiv (s.width * 4) 8) ∧
    (let s := start 0x0430 [1, 2, 3, 4] [] 5 [(6, 3), (7, 2), (8, 2)]
     regionFault (rolesOf (.pixUnpack 4 false)) s = none ∧ ceilDiv (s.width * 4) 8 ≤ s.stride ∧
      (s.height - 1) * s.stride + ceilDiv (s.width * 4) 8 ≤ s.srcLen ∧ s.dstLen < s.width * s.height) ∧
    (let s := start 0x0431 [1, 2] [] 2 [(6, 3), (7, 1)]
     regionFault (rolesOf (.pixPack 4 false)) s = none ∧ s.srcLen < s.width * s.height) ∧
    (let s := start 0x0431 [1, 2, 3] [] 1 [(6, 3), (7, 1)]
     regionFault (rolesOf (.pixPack 4 false)) s = none ∧ s.width * s.height ≤ s.srcLen ∧
      s.dstLen < ceilDiv (s.width * 4) 8 * s.height) ∧
    (let s := start 0x0431 [1, 2, 16] [] 2 [(6, 3), (7, 1)]
     regionFault (rolesOf (.pixPack 4 false)) s = none ∧ s.width * s.height ≤ s.srcLen ∧
      ceilDiv (s.width * 4) 8 * s.height ≤ s.dstLen ∧ 2 < s.width * s.height ∧ 2 ^ 4 ≤ (s.src 2).toNat ∧
      ∀ j, j < 2 → (s.src j).toNat < 2 ^ 4) := by decide +kernel

theorem witness_PixMergeRuns :
    (let s := start 0x32 [1, 2] [3] 2 []
     regionFault (rolesOf .pixMerge) s = none ∧ s.auxLen ≠ s.srcLen) ∧
    (let s := start 0x32 [1, 2] [3, 4] 1 []
     regionFault (rolesOf .pixMerge) s = none ∧ s.auxLen = s.srcLen ∧ s.dstLen < s.srcLen) ∧
    (let s := start 0x32 [15, 16] [15, 16] 2 []
     regionFault (rolesOf .pixMerge) s = none ∧ s.auxLen = s.srcLen ∧ s.srcLen ≤ s.dstLen ∧ 1 < s.srcLen ∧
      (∀ j, j < 1 → (s.src j).toNat ≤ 15 ∧ (s.aux j).toNat ≤ 15) ∧ 15 < (s.src 1).toNat) ∧
    (let s := start 0x32 [15, 15] [15, 16] 2 []
     regionFault (rolesOf .pixMerge) s = none ∧ s.auxLen = s.srcLen ∧ s.srcLen ≤ s.dstLen ∧ 1 < s.srcLen ∧
      (∀ j, j < 1 → (s.src j).toNat ≤ 15 ∧ (s.aux j).toNat ≤ 15) ∧ (s.src 1).toNat ≤ 15 ∧ 15 < (s.aux 1).toNat) ∧
    (let s := start 0x32 [15, 0] [0, 15] 2 []
     regionFault (rolesOf .pixMerge) s = none ∧ s.auxLen = s.srcLen ∧ s.srcLen ≤ s.dstLen ∧
      ∀ j, j < s.srcLen → (s.src j).toNat ≤ 15 ∧ (s.aux j).toNat ≤ 15) := by decide +kernel

theorem witness_PixSplitRuns :
    (let s := start 0x33 [1, 2] [] 1 [(5, 2)]
     regionFault (rolesOf .pixSplit) s = none ∧ s.dstLen < s.srcLen) ∧
    (let s := start 0x33 [1, 2] [] 2 [(5, 1)]
     regionFault (rolesOf .pixSplit) s = none ∧ s.srcLen ≤ s.dstLen ∧ s.auxLen < s.srcLen) ∧
    (let s := start 0x33 [1, 2] [] 2 [(5, 2)]
     regionFault (rolesOf .pixSplit) s = none ∧ s.srcLen ≤ s.dstLen ∧ s.srcLen ≤ s.auxLen) := by decide +kernel

theorem witness_SplitAndMergeAreInverse :
    (let s := start 0x33 [0xA1, 0xFF] [] 2 [(5, 2)]
     let t := ran .pixSplit s
     let u := withOps t [(0, 0x400), (2, 0x500)]
     (t.phase = .done ∧ u.srcBase = s.dstBase ∧ u.auxBase = s.auxBase ∧ u.srcLen = s.srcLen ∧ u.auxLen = s.srcLen ∧
      s.srcLen ≤ u.dstLen ∧ regionFault (rolesOf .pixMerge) u = none) ∧
     exec .pixSplit s = .next t ∧ ∀ a, u.byteAt a = t.byteAt a) ∧
    (let s := start 0x32 [15, 0] [0, 15] 2 []
     let t := ran .pixMerge s
     let u := withOps t [(0, 0x400), (2, 0x500)]
     (t.phase = .done ∧ u.srcBase = s.dstBase ∧ u.srcLen = s.srcLen ∧ s.srcLen ≤ u.dstLen ∧ s.srcLen ≤ u.auxLen ∧
      regionFault (rolesOf .pixSplit) u = none) ∧
     exec .pixMerge s = .next t ∧ ∀ a, u.byteAt a = t.byteAt a) :=
  ⟨⟨by decide +kernel, exec_ran .., byteAt_withOps _ _⟩, ⟨by decide +kernel, exec_ran .., byteAt_withOps _ _⟩⟩

theorem witness_DedupAnalysisIsFirstOccurrence :
    dedupAnalyse (reader [1, 2, 3, 4, 3, 4, 1, 2]) 2 2 2 1 4 = ([bytes [1, 2], bytes [3, 4]], [0, 1, 1, 0]) := by decide +kernel

/-- A 4 by 2 image of two different 2 by 1 tiles. -/
def twoTiles : State :=
  start 0x40 [1, 2, 3, 4, 3, 4, 1, 2] [] 4 [(5, 12), (6, 4), (7, 2), (8, 4), (10, 2), (11, 1)]

theorem witness_TileDedupRuns :
    let s := twoTiles
    let uniq := [bytes [1, 2], bytes [3, 4]]
    regionFault (rolesOf .tileDedup) s = none ∧ 0 < s.blkw ∧ 0 < s.blkh ∧ s.width ≤ s.stride ∧ s.width % s.blkw = 0 ∧
      s.height % s.blkh = 0 ∧ s.width / s.blkw ≤ 65535 ∧ s.height / s.blkh ≤ 65535 ∧
      (s.height - 1) * s.stride + s.width ≤ s.srcLen ∧
      dedupAnalyse s.src (s.width / s.blkw) (s.height / s.blkh) s.blkw s.blkh s.stride = (uniq, [0, 1, 1, 0]) ∧ 0 < uniq.length ∧
      uniq.length ≤ 32767 ∧ 4 + 2 * (s.width / s.blkw) * (s.height / s.blkh) ≤ s.auxLen ∧
      uniq.length * s.blkw * s.blkh ≤ s.dstLen := by decide +kernel

/-- The shape of the image and the count of its tiles, as `TileDedupFaults` names them. -/
def shaped (s : State) : Bool :=
  decide (regionFault (rolesOf .tileDedup) s = none ∧ 0 < s.blkw ∧ 0 < s.blkh ∧ s.width ≤ s.stride ∧ s.width % s.blkw = 0 ∧
    s.height % s.blkh = 0 ∧ s.width / s.blkw ≤ 65535 ∧ s.height / s.blkh ≤ 65535)
def tiles (s : State) : Nat := (dedupAnalyse s.src (s.width / s.blkw) (s.height / s.blkh) s.blkw s.blkh s.stride).1.length

theorem witness_TileDedupFaults :
    (∀ ops ∈ [[(10, 0)], [(11, 0)], [(8, 3)], [(6, 3)], [(7, 3), (11, 2)], [(6, 65536), (8, 65536), (10, 1)], [(7, 65536)]],
      regionFault (rolesOf .tileDedup) (withOps twoTiles ops) = none) ∧
    (withOps twoTiles [(10, 0)]).blkw = 0 ∧ (withOps twoTiles [(11, 0)]).blkh = 0 ∧
    (withOps twoTiles [(8, 3)]).stride < (withOps twoTiles [(8, 3)]).width ∧
    (withOps twoTiles [(6, 3)]).width % (withOps twoTiles [(6, 3)]).blkw ≠ 0 ∧
    (withOps twoTiles [(7, 3), (11, 2)]).height % (withOps twoTiles [(7, 3), (11, 2)]).blkh ≠ 0 ∧
    (let s := withOps twoTiles [(6, 65536), (8, 65536), (10, 1)]
     s.width ≤ s.stride ∧ s.width % s.blkw = 0 ∧ s.height % s.blkh = 0 ∧ 65535 < s.width / s.blkw) ∧
    (let s := withOps twoTiles [(7, 65536)]
     s.width ≤ s.stride ∧ s.width % s.blkw = 0 ∧ s.height % s.blkh = 0 ∧ s.width / s.blkw ≤ 65535 ∧ 65535 < s.height / s.blkh) ∧
    (let s := withOps twoTiles [(1, 7)]
     shaped s = true ∧ s.srcLen < (s.height - 1) * s.stride + s.width) ∧
    (let s := withOps twoTiles [(6, 0)]
     shaped s = true ∧ tiles s = 0) ∧
    (let s := withOps twoTiles [(5, 11)]
     shaped s = true ∧ (s.height - 1) * s.stride + s.width ≤ s.srcLen ∧ tiles s = 2 ∧
      s.auxLen < 4 + 2 * (s.width / s.blkw) * (s.height / s.blkh)) ∧
    (let s := withOps twoTiles [(3, 3)]
     shaped s = true ∧ (s.height - 1) * s.stride + s.width ≤ s.srcLen ∧ tiles s = 2 ∧
      4 + 2 * (s.width / s.blkw) * (s.height / s.blkh) ≤ s.auxLen ∧ s.dstLen < tiles s * s.blkw * s.blkh) := by decide +kernel

/-- Byte `j` of an image whose 2 by 1 tiles are all different: the tile's number, low byte first. -/
def pairByte (j : Nat) : Byte := BitVec.ofNat 8 (if j % 2 = 0 then j / 2 else j / 512)

/-- A 65536 by 1 image of 32768 different 2 by 1 tiles, at address 0. -/
def manyTiles : State :=
  State.storeBytes { State.reset with opr := #v[0, 65536, 0x20000, 0, 0x20000, 0, 65536, 1, 65536, 0, 2, 1] } 0
    ((List.range 65536).map pairByte)

theorem manyTiles_src (j : Nat) (h : j < 65536) : manyTiles.src j = pairByte j := by
  show manyTiles.byteAt (0 + j) = _
  rw [manyTiles, byteAt_storeBytes_inside _ _ _ _ (by simpa using h)]
  simp

/-- A walk over tiles that are all different keeps every one of them. -/
theorem dedup_all_different (tiles : Nat → List Byte) (n : Nat) (h : ∀ i j, i < n → j < n → tiles i = tiles j → i = j) :
    ((List.range n).foldl (fun acc i => dedupTile acc (tiles i)) ([], [])).1.length = n := by
  induction n with
  | zero => rfl
  | succ n ih =>
    have hs := (dedupFold_spec tiles n).2 (tiles n)
    rw [List.range_succ, List.foldl_append, List.foldl_cons, List.foldl_nil, dedupTile, if_neg, List.length_append]
    · rw [ih fun i j hi hj => h i j (by omega) (by omega)]; rfl
    · intro hm
      obtain ⟨i, hi, he⟩ := hs hm
      have := h i n (by omega) (by omega) he
      omega

/-- The first count of tiles that is too many. -/
theorem witness_TileDedupFaults_too_many :
    (regionFault (rolesOf .tileDedup) manyTiles = none ∧ 0 < manyTiles.blkw ∧ 0 < manyTiles.blkh ∧
      manyTiles.width ≤ manyTiles.stride ∧ manyTiles.width % manyTiles.blkw = 0 ∧ manyTiles.height % manyTiles.blkh = 0 ∧
      manyTiles.width / manyTiles.blkw ≤ 65535 ∧ manyTiles.height / manyTiles.blkh ≤ 65535 ∧
      (manyTiles.height - 1) * manyTiles.stride + manyTiles.width ≤ manyTiles.srcLen) ∧
    tiles manyTiles = 32768 := by
  refine ⟨by decide +kernel, dedup_all_different _ 32768 fun i j hi hj he => ?_⟩
  have ht : ∀ i, i < 32768 →
      tileAt manyTiles.src 2 1 65536 (i / 1) (i % 1) = [pairByte (2 * i), pairByte (2 * i + 1)] := by
    intro i hi
    simp only [tileAt, sliceOf, Nat.mod_one, Nat.div_one, List.range_succ, List.range_zero]
    simp only [List.nil_append, List.flatMap_cons, List.flatMap_nil, List.map_append, List.map_cons, List.map_nil, List.append_nil]
    rw [manyTiles_src _ (by omega), manyTiles_src _ (by omega)]
    simp [Nat.mul_comm]
  have he' := (ht i hi).symm.trans (he.trans (ht j hj))
  simp only [List.cons.injEq, and_true, pairByte] at he'
  have h0 := congrArg BitVec.toNat he'.1
  have h1 := congrArg BitVec.toNat he'.2
  simp only [BitVec.toNat_ofNat] at h0 h1
  rw [if_pos (by omega), if_pos (by omega)] at h0
  rw [if_neg (by omega), if_neg (by omega)] at h1
  omega

/-- Two 2 by 1 tiles and a matrix of 2 by 1 cells. -/
def twoCells (i j : Nat) : State :=
  start 0x41 [1, 2, 3, 4] [2, 0, 1, 0, i, 0, j, j] 4 [(9, 2), (10, 2), (11, 1)]

theorem witness_TileExpandRuns :
    let s := twoCells 1 0
    let cells := le16At s.aux 0 * le16At s.aux 2
    regionFault (rolesOf .tileExpand) s = none ∧ 0 < s.blkw ∧ 0 < s.blkh ∧ 4 ≤ s.auxLen ∧ 4 + 2 * cells ≤ s.auxLen ∧
      s.arg ≤ cells ∧ s.srcLen = s.arg * s.blkw * s.blkh ∧ cells * s.blkw * s.blkh ≤ s.dstLen ∧
      ∀ i, i < cells → 0 ≤ sle16At s.aux (4 + 2 * i) ∧ sle16At s.aux (4 + 2 * i) < s.arg := by decide +kernel

theorem witness_TileExpandFaults :
    (∀ ops ∈ [[(10, 0)], [(11, 0)], [(5, 3)], [(5, 7)], [(9, 3)], [(1, 3)], [(3, 3)]],
      regionFault (rolesOf .tileExpand) (withOps (twoCells 1 0) ops) = none) ∧
    (withOps (twoCells 1 0) [(10, 0)]).blkw = 0 ∧ (withOps (twoCells 1 0) [(11, 0)]).blkh = 0 ∧
    (withOps (twoCells 1 0) [(5, 3)]).auxLen < 4 ∧
    (let s := withOps (twoCells 1 0) [(5, 7)]
     4 ≤ s.auxLen ∧ s.auxLen < 4 + 2 * (le16At s.aux 0 * le16At s.aux 2)) ∧
    (let s := withOps (twoCells 1 0) [(9, 3)]
     4 + 2 * (le16At s.aux 0 * le16At s.aux 2) ≤ s.auxLen ∧ le16At s.aux 0 * le16At s.aux 2 < s.arg) ∧
    (let s := withOps (twoCells 1 0) [(1, 3)]
     4 + 2 * (le16At s.aux 0 * le16At s.aux 2) ≤ s.auxLen ∧ s.arg ≤ le16At s.aux 0 * le16At s.aux 2 ∧
      s.srcLen ≠ s.arg * s.blkw * s.blkh) ∧
    (let s := withOps (twoCells 1 0) [(3, 3)]
     4 + 2 * (le16At s.aux 0 * le16At s.aux 2) ≤ s.auxLen ∧ s.arg ≤ le16At s.aux 0 * le16At s.aux 2 ∧
      s.srcLen = s.arg * s.blkw * s.blkh ∧ s.dstLen < le16At s.aux 0 * le16At s.aux 2 * s.blkw * s.blkh) ∧
    (∀ c ∈ [(twoCells 1 2, 514), (twoCells 1 0xFF, -1)],
      let s := c.1
      regionFault (rolesOf .tileExpand) s = none ∧ 0 < s.blkw ∧ 0 < s.blkh ∧
      4 + 2 * (le16At s.aux 0 * le16At s.aux 2) ≤ s.auxLen ∧ s.arg ≤ le16At s.aux 0 * le16At s.aux 2 ∧
      s.srcLen = s.arg * s.blkw * s.blkh ∧ le16At s.aux 0 * le16At s.aux 2 * s.blkw * s.blkh ≤ s.dstLen ∧
      1 < le16At s.aux 0 * le16At s.aux 2 ∧ sle16At s.aux (4 + 2 * 1) = c.2 ∧
      ∀ j, j < 1 → 0 ≤ sle16At s.aux (4 + 2 * j) ∧ sle16At s.aux (4 + 2 * j) < s.arg) := by decide +kernel

theorem witness_DedupExpandIdempotent :
    let s := twoTiles
    let t := ran .tileDedup s
    let u := withOps t [(0, 0x400), (1, 4), (2, 0x500), (3, 8), (5, 12), (9, 2)]
    let v := ran .tileExpand u
    let x := withOps v [(0, 0x500), (1, 8), (2, 0x600), (3, 4), (4, 0x700), (8, 4)]
    let y := ran .tileDedup x
    (t.phase = .done ∧ u.srcBase = s.dstBase ∧ u.srcLen = t.res[1].toNat ∧ u.auxBase = s.auxBase ∧
      u.auxLen = t.res[2].toNat ∧ u.arg = t.res[0].toNat ∧ u.blkw = s.blkw ∧ u.blkh = s.blkh ∧
      s.width * s.height ≤ u.dstLen ∧ regionFault (rolesOf .tileExpand) u = none ∧
      x.srcBase = u.dstBase ∧ x.srcLen = v.res[0].toNat ∧ x.width = s.width ∧ x.height = s.height ∧
      x.stride = s.width ∧ x.blkw = s.blkw ∧ x.blkh = s.blkh ∧ t.res[1].toNat ≤ x.dstLen ∧ t.res[2].toNat ≤ x.auxLen ∧
      regionFault (rolesOf .tileDedup) x = none) ∧
    exec .tileDedup s = .next t ∧ exec .tileExpand u = .next v ∧ exec .tileDedup x = .next y ∧
    (∀ a, u.byteAt a = t.byteAt a) ∧ ∀ a, x.byteAt a = v.byteAt a :=
  ⟨by decide +kernel, exec_ran .., exec_ran .., exec_ran .., byteAt_withOps _ _, byteAt_withOps _ _⟩

end Sys2Proof.Tests
end

/-! ## The machine's invariant: every step keeps it

`Inv` is kept in two layers: the part about `MEM` (`MemOk`), which only stores of bytes can touch, and the part about the registers,
which the operation that ends the step sets. -/

section

namespace Sys2Proof.Machine

/-! ### `MEM` stays canonical and inside `MEM_SIZE` (R6, R39, R50, R59) -/

/-- The part of `Inv` about the configuration and `MEM`. -/
def MemOk (s : State) : Prop :=
  s.cfg.wf = true ∧ Memory.wf s.mem ∧ ∀ c ∈ s.mem, c.1 < s.cfg.memSize

theorem Inv.memOk {s : State} (h : Inv s) : MemOk s := by
  obtain ⟨hcfg, hwf, hbelow, -⟩ := h
  exact ⟨hcfg, hwf, hbelow⟩

theorem MemOk.congr {s t : State} (h : MemOk s) (hc : t.cfg = s.cfg) (hm : t.mem = s.mem) : MemOk t := by
  unfold MemOk; rw [hc, hm]; exact h

/-- Bytes stored inside `MEM` keep it canonical and inside. -/
theorem MemOk.storeBytes {s : State} (h : MemOk s) {a : Nat} {bs : List Byte} (hb : bs = [] ∨ a + bs.length ≤ s.cfg.memSize) :
    MemOk (s.storeBytes a bs) := by
  obtain ⟨hcfg, hwf, hbelow⟩ := h
  exact ⟨hcfg, Memory.wf_writeList hwf a bs, Memory.below_writeList hbelow a bs hb⟩

theorem MemOk.finish {s : State} (h : MemOk s) (r0 r1 r2 r3 : Nat) (short : Option Bool) {out outAux : List Byte}
    (hd : out = [] ∨ s.dstBase + out.length ≤ s.cfg.memSize) (hx : outAux = [] ∨ s.auxBase + outAux.length ≤ s.cfg.memSize) :
    MemOk (finish r0 r1 r2 r3 short out outAux s) :=
  ((h.storeBytes hd).storeBytes (s := s.storeBytes s.dstBase out) hx).congr rfl rfl

theorem MemOk.scrambleDst {s : State} (h : MemOk s) {n : Nat} (hn : s.dstBase + n ≤ s.cfg.memSize) : MemOk (scrambleDst n s) :=
  (h.storeBytes (bs := (List.range n).map (Config.midStreamByte s.draws)) (Or.inr (by simpa using hn))).congr rfl rfl

/-! ### The shared operations of the engine keep the invariant -/

/-- Taking a fault that some command raises, with `SHORT` clear since acceptance (R241, R262). -/
theorem takeFault_inv {e : ErrCode} (i0 i1 i2 : Int) {s : State} (hm : MemOk s) (hs : s.short = false) (he : e ∈ raisedCodes) :
    Inv (takeFault e i0 i1 i2 s) := by
  obtain ⟨hcfg, hwf, hbelow⟩ := hm
  exact ⟨hcfg, hwf, hbelow, by simp, by simp, fun _ => ⟨List.mem_map_of_mem he, rfl, hs, rfl⟩⟩

/-- A command that ends without fault leaves the fault record as empty as it was while `BUSY` (R33, R34). -/
theorem finish_inv (r0 r1 r2 r3 : Nat) (short : Option Bool) {out outAux : List Byte} {s : State} (hi : Inv s)
    (hp : s.phase ≠ .fault) (hd : out = [] ∨ s.dstBase + out.length ≤ s.cfg.memSize)
    (hx : outAux = [] ∨ s.auxBase + outAux.length ≤ s.cfg.memSize) : Inv (finish r0 r1 r2 r3 short out outAux s) := by
  obtain ⟨hcfg, hwf, hbelow⟩ := hi.memOk.finish r0 r1 r2 r3 short hd hx
  obtain ⟨-, -, -, -, hrecord, -⟩ := hi
  exact ⟨hcfg, hwf, hbelow, by simp, fun _ => hrecord hp, by simp⟩

theorem inv_short_of_busy {s : State} (hi : Inv s) (hp : s.phase = .busy) : s.short = false := by
  obtain ⟨-, -, -, hbusy, -⟩ := hi
  obtain ⟨-, hshort, -⟩ := hbusy hp
  exact hshort

theorem raisedCodes_of_midCodes {e : ErrCode} (h : e ∈ midCodes) : e ∈ raisedCodes := by
  revert h; cases e <;> decide

/-- After the region check the bytes for an `OUT` region, no more than its length, lie inside `MEM` (R58, R59). -/
theorem out_inside {ro : Roles} {s : State} (hr : regionFault ro s = none) {r : Region} {n : Nat} (ho : r ∈ ro.out)
    (hn : n ≤ s.len r) : s.base r + n ≤ s.cfg.memSize := by
  have := regionFault_inside hr (r := r) (by simp [Roles.uses, ho])
  omega

/-- The output bytes of a command lie inside `MEM`, or there are none since the region is not an `OUT` region. -/
theorem output_inside {ro : Roles} {s : State} (hr : regionFault ro s = none) {r : Region} {bs : List Byte}
    (hn : bs.length ≤ s.len r) (ho : r ∉ ro.out → bs = []) : bs = [] ∨ s.base r + bs.length ≤ s.cfg.memSize := by
  by_cases h : r ∈ ro.out
  · exact Or.inr (out_inside hr h hn)
  · exact Or.inl (ho h)

/-- Whatever verdict a command's rule may answer after a passed region check, the state it leaves keeps the invariant. -/
theorem conclude_inv {i : Instr} {s : State} {v : Verdict} (hi : Inv s) (hp : s.phase = .busy)
    (hr : regionFault (rolesOf i) s = none) (hk : v.keeps i s) : Inv (conclude v s) := by
  have hs := inv_short_of_busy hi hp
  cases v with
  | done r0 r1 r2 r3 short out outAux =>
    obtain ⟨hlen, hlenAux, hdst, haux, -⟩ := hk
    exact finish_inv r0 r1 r2 r3 short hi (by simp [hp]) (output_inside hr (r := .dst) hlen hdst)
      (output_inside hr (r := .aux) hlenAux haux)
  | preFault e i0 i1 i2 => exact takeFault_inv i0 i1 i2 hi.memOk hs hk
  | midFault e i0 i1 i2 n =>
    obtain ⟨he, hn, -, ho⟩ := hk
    have hm : MemOk (scrambleDst n s) := hi.memOk.scrambleDst (out_inside hr ho hn)
    exact takeFault_inv i0 i1 i2 hm hs (raisedCodes_of_midCodes he)

theorem badCommand_inv (w : Word) {s : State} (hi : Inv s) (hp : s.phase = .busy) : Inv (badCommand w s) :=
  takeFault_inv _ _ _ hi.memOk (inv_short_of_busy hi hp) (by decide)

/-- Every command but `ACK`, run from `BUSY`, keeps the invariant. -/
theorem exec_inv {i : Instr} {s t : State} (ha : i ≠ .ack) (hi : Inv s) (hp : s.phase = .busy) (h : exec i s = .next t) : Inv t := by
  rcases exec_cases i s ha with ⟨-, h'⟩ | ⟨i0, i1, i2, -, -, h'⟩ | ⟨-, hr, h'⟩ <;> rw [h'] at h <;> cases h
  · exact badCommand_inv _ hi hp
  · exact takeFault_inv _ _ _ hi.memOk (inv_short_of_busy hi hp) (by decide)
  · exact conclude_inv hi hp hr (ruleOf_keeps i s)

theorem engineStep_inv {s t : State} (hi : Inv s) (hp : s.phase = .busy) (h : engineStep s = .next t) : Inv t := by
  rcases engineStep_cases s with h' | ⟨i, -, ha, h'⟩ <;> rw [h'] at h
  · cases h; exact badCommand_inv _ hi hp
  · exact exec_inv ha hi hp h

/-! ### The host's operations and reset keep the invariant -/

theorem acknowledge_inv {s : State} (hi : Inv s) : Inv (acknowledge s) := by
  obtain ⟨hcfg, hwf, hbelow⟩ := hi.memOk
  exact ⟨hcfg, hwf, hbelow, by simp, by simp, by simp⟩

theorem accept_inv {w : Word} {s : State} (hi : Inv s) (hw : w ≠ ackWord) (hp : s.phase ≠ .fault) : Inv (accept w s) := by
  obtain ⟨hcfg, hwf, hbelow, -, hrecord, -⟩ := hi
  exact ⟨hcfg, hwf, hbelow, fun _ => ⟨rfl, rfl, hw⟩, fun _ => hrecord hp, by simp⟩

theorem hardReset_inv {s : State} (hi : Inv s) : Inv (hardReset s) := by
  obtain ⟨hcfg, -⟩ := hi
  exact ⟨hcfg, reset_mem_wf, by simp, by simp, by simp, by simp⟩

theorem storeBytes_inv {s : State} (hi : Inv s) {a : Nat} {bs : List Byte} (hb : a + bs.length ≤ s.cfg.memSize) :
    Inv (s.storeBytes a bs) := by
  obtain ⟨hcfg, hwf, hbelow⟩ := hi.memOk.storeBytes (Or.inr hb)
  obtain ⟨-, -, -, hregs⟩ := hi
  exact ⟨hcfg, hwf, hbelow, hregs⟩

/-- `Inv` does not look at the operand registers, `OVR`, the agenda or what the host has read. -/
theorem inv_of_host_fields {s : State} (hi : Inv s) (opr : Vector Word 12) (ovr : Bool) (agenda : List Event) (seen : Observation) :
    Inv { s with opr := opr, ovr := ovr, agenda := agenda, seen := seen } := hi

theorem popped_inv {s : State} (hi : Inv s) : Inv s.popped := inv_of_host_fields hi s.opr s.ovr s.agenda.tail s.seen

theorem overrun_inv {s : State} (hi : Inv s) : Inv s.overrun := inv_of_host_fields hi s.opr true s.agenda s.seen

/-! ### Every step -/

/-- Settles O19, by the kind of the step: each operation that a step can be keeps the invariant. -/
theorem invKeptByEveryStep : Obligations.InvKeptByEveryStep := by
  intro s t hi h
  have hpop : Inv s.popped := popped_inv hi
  cases step_kind h with
  | engine u hu _ hp hrun =>
    rcases hu with rfl | rfl
    · exact engineStep_inv hi hp hrun
    · exact engineStep_inv hpop hp hrun
  | cmdBusy w _ _ h => subst h; exact overrun_inv hpop
  | ack _ _ h => subst h; exact acknowledge_inv hpop
  | cmdFault w _ _ _ h => subst h; exact overrun_inv hpop
  | accept w _ hw hp h =>
    have hp' : s.phase ≠ .fault := by rcases hp with hp | hp <;> simp [hp]
    subst h; exact accept_inv hpop hw hp'
  | oprBusy k v _ _ h => subst h; exact overrun_inv hpop
  | opr k v _ _ h => subst h; exact inv_of_host_fields hpop (s.opr.set k v) s.ovr s.agenda.tail s.seen
  | reset _ h => subst h; exact hardReset_inv hpop
  | poke a bs _ _ hm h => subst h; exact storeBytes_inv hpop hm
  | quiet _ _ _ _ hq =>
    obtain ⟨agenda, seen, rfl⟩ := hq
    exact inv_of_host_fields hi s.opr s.ovr agenda seen

end Sys2Proof.Machine
end

/-! ## A command depends on its inputs only

What a command's rule reads lies inside its `IN` regions: each reader, decoder and image builder gives the same answer on two byte
readers that agree there (`AgreeBelow`), so each rule answers the same verdict, and the two runs end alike. -/

section

namespace Sys2Proof.Machine

/-- Two byte readers (R10) cannot be told apart by a reader of their first `n` bytes. -/
def AgreeBelow (n : Nat) (r q : Nat → Byte) : Prop :=
  ∀ j : Nat, j < n → r j = q j

theorem AgreeBelow.mono {m n : Nat} {r q : Nat → Byte} (h : AgreeBelow n r q) (hm : m ≤ n) : AgreeBelow m r q :=
  fun j hj => h j (Nat.lt_of_lt_of_le hj hm)

/-- Two runs that make the same check agree when they agree after it passed. -/
theorem check_congr {α : Sort*} {c : Prop} [Decidable c] {a x y : α} (h : ¬ c → x = y) :
    (if c then a else x) = if c then a else y :=
  if_ctx_congr Iff.rfl (fun _ => rfl) h

/-! ### The readers of R10 -/

theorem sliceOf_congr {n a c : Nat} {r q : Nat → Byte} (h : AgreeBelow n r q) (ha : a + c ≤ n) :
    sliceOf r a c = sliceOf q a c :=
  List.map_congr_left fun j hj => h (a + j) (by have := List.mem_range.1 hj; omega)

theorem le16At_congr {n j : Nat} {r q : Nat → Byte} (h : AgreeBelow n r q) (hj : j + 2 ≤ n) : le16At r j = le16At q j := by
  unfold le16At; rw [h j (by omega), h (j + 1) (by omega)]

theorem le32At_congr {n j : Nat} {r q : Nat → Byte} (h : AgreeBelow n r q) (hj : j + 4 ≤ n) : le32At r j = le32At q j := by
  unfold le32At; rw [h j (by omega), h (j + 1) (by omega), h (j + 2) (by omega), h (j + 3) (by omega)]

theorem sle16At_congr {n j : Nat} {r q : Nat → Byte} (h : AgreeBelow n r q) (hj : j + 2 ≤ n) : sle16At r j = sle16At q j := by
  unfold sle16At; rw [le16At_congr h hj]

theorem sle32At_congr {n j : Nat} {r q : Nat → Byte} (h : AgreeBelow n r q) (hj : j + 4 ≤ n) : sle32At r j = sle32At q j := by
  unfold sle32At; rw [le32At_congr h hj]

/-! ### The decoders read inside their source -/

/-- The RLE loop reads no byte at or beyond `p0 + plen` (R141). -/
theorem rleGroups_congr {r q : Nat → Byte} {p0 plen : Nat} (h : AgreeBelow (p0 + plen) r q) (fuel s room : Nat) :
    rleGroups r p0 plen fuel s room = rleGroups q p0 plen fuel s room := by
  induction fuel generalizing s room with
  | zero => rfl
  | succ fuel ih =>
    unfold rleGroups
    refine check_congr fun hs => ?_
    rw [h (p0 + s) (by omega)]
    refine if_ctx_congr Iff.rfl (fun _ => ?_) fun _ => ?_
    · refine check_congr fun hend => ?_
      simp only [h (p0 + s + 1) (by omega), ih]
    · simp only
      rw [sliceOf_congr h (by omega), ih]

theorem rleDecode_congr {r q : Nat → Byte} {p0 plen : Nat} (h : AgreeBelow (p0 + plen) r q) (n : Nat) :
    rleDecode r p0 plen n = rleDecode q p0 plen n :=
  rleGroups_congr h plen 0 n

/-- A code is read from the source bytes that hold its bits (R146). -/
theorem lzwCodeAt_congr {r q : Nat → Byte} {p0 plen pos w : Nat} (h : AgreeBelow (p0 + plen) r q) (hw : pos + w ≤ 8 * plen) :
    lzwCodeAt r p0 pos w = lzwCodeAt q p0 pos w := by
  unfold lzwCodeAt
  refine congrArg List.sum (List.map_congr_left fun j hj => ?_)
  have := List.mem_range.1 hj
  unfold lzwBit
  rw [h (p0 + (pos + j) / 8) (by omega)]

/-- The LZW loop reads no byte at or beyond `p0 + plen` (R148). -/
theorem lzwCodes_congr {r q : Nat → Byte} {p0 plen : Nat} (h : AgreeBelow (p0 + plen) r q) (n fuel width : Nat)
    (table : List (List Byte)) (prev : Option Nat) (pos room : Nat) :
    lzwCodes r p0 plen n fuel width table prev pos room = lzwCodes q p0 plen n fuel width table prev pos room := by
  induction fuel generalizing width table prev pos room with
  | zero => rfl
  | succ fuel ih =>
    unfold lzwCodes
    refine check_congr fun _ => check_congr fun hpos => ?_
    rw [lzwCodeAt_congr h (by omega)]
    simp only [ih]

/-- Under every variant the LZW decode depends on the encoded bytes only (R146, U5). -/
theorem lzwDecode_congr (v : LzwVariant) {r q : Nat → Byte} {p0 plen : Nat} (h : AgreeBelow (p0 + plen) r q) (n : Nat) :
    lzwDecode v r p0 plen n = lzwDecode v q p0 plen n := by
  cases v with
  | standard => exact lzwCodes_congr h n ..
  | replaced id => unfold lzwDecode; simp only [sliceOf_congr h (Nat.le_refl (p0 + plen))]

theorem lzwVerdict_congr (v : LzwVariant) {r q : Nat → Byte} {p0 plen : Nat} (h : AgreeBelow (p0 + plen) r q) (n t : Nat) :
    lzwVerdict v r p0 plen n t = lzwVerdict v q p0 plen n t := by
  unfold lzwVerdict; rw [lzwDecode_congr v h]

/-- The bitmask loop reads the mask bytes of its bits and literals inside the source (R181, R182). -/
theorem bmkBits_congr {r q : Nat → Byte} {srcLen : Nat} (h : AgreeBelow srcLen r q) (left i lp : Nat) (prev : Byte)
    (hm : i + left ≤ 8 * srcLen) : bmkBits r srcLen left i lp prev = bmkBits q srcLen left i lp prev := by
  induction left generalizing i lp prev with
  | zero => rfl
  | succ left ih =>
    have hbit : bmkMaskBit r i = bmkMaskBit q i := by unfold bmkMaskBit; rw [h (i / 8) (by omega)]
    unfold bmkBits
    rw [hbit]
    refine if_ctx_congr Iff.rfl (fun _ => check_congr fun hlp => ?_) fun _ => ?_
    · rw [h lp (by omega), ih _ _ _ (by omega)]
    · rw [ih _ _ _ (by omega)]

/-- Under every layout the bitmask decode depends on the source bytes only (R181, U7). -/
theorem bmkDecode_congr (g : BmkGrammar) {r q : Nat → Byte} {srcLen : Nat} (h : AgreeBelow srcLen r q) (n : Nat) :
    bmkDecode g r srcLen n = bmkDecode g q srcLen n := by
  cases g with
  | standard =>
    unfold bmkDecode bmkStandard
    refine check_congr fun hm => bmkBits_congr h n 0 _ 0 ?_
    simp only [ceilDiv] at hm; omega
  | replaced id => unfold bmkDecode; simp only [sliceOf_congr h (Nat.le_of_eq (Nat.zero_add srcLen))]

/-! ### The image builders and the scans read inside their source -/

theorem range_map_congr {α : Type} {n : Nat} {f g : Nat → α} (h : ∀ i, i < n → f i = g i) :
    (List.range n).map f = (List.range n).map g :=
  List.map_congr_left fun i hi => h i (List.mem_range.1 hi)

theorem range_flatMap_congr {α : Type} {n : Nat} {f g : Nat → List α} (h : ∀ i, i < n → f i = g i) :
    (List.range n).flatMap f = (List.range n).flatMap g :=
  List.flatMap_congr fun i hi => h i (List.mem_range.1 hi)

/-- The check of both nibble planes reads `n` bytes of each (R199). -/
theorem nibbleFault_congr {n : Nat} {low low' high high' : Nat → Byte} (hl : AgreeBelow n low low')
    (hh : AgreeBelow n high high') : nibbleFault low high n = nibbleFault low' high' n := by
  unfold nibbleFault
  rw [← List.head?_filterMap, ← List.head?_filterMap]
  refine congrArg List.head? (List.filterMap_congr fun i hi => ?_)
  have hi := List.mem_range.1 hi
  rw [hl i hi, hh i hi]

/-- The pixels of `h` packed rows lie in the bytes that `rowsNeed` counts (R192). -/
theorem unpackedImage_congr {w h st bpp : Nat} {r q : Nat → Byte} (hb : 0 < bpp)
    (hr : AgreeBelow (rowsNeed w h st (minStride w bpp)) r q) (be : Bool) :
    unpackedImage r w h st bpp be = unpackedImage q w h st bpp be := by
  refine range_flatMap_congr fun y hy => range_map_congr fun x hx => ?_
  have hrow : y * st ≤ (h - 1) * st := Nat.mul_le_mul_right st (by omega)
  have hcol : (x + 1) * bpp ≤ w * bpp := Nat.mul_le_mul_right bpp hx
  rw [Nat.succ_mul] at hcol
  unfold packedPixel
  rw [hr (y * st + x * bpp / 8) (by rw [rowsNeed, if_pos ⟨by omega, by omega⟩, minStride, ceilDiv]; omega)]

theorem packedRow_congr {pos w : Nat} {r q : Nat → Byte} (h : AgreeBelow (pos + w) r q) (m bpp : Nat) (be : Bool) :
    packedRow r pos w m bpp be = packedRow q pos w m bpp be := by
  refine List.foldl_ext _ _ _ fun row x hx => ?_
  rw [h (pos + x) (by have := List.mem_range.1 hx; omega)]

theorem packedImage_congr {w h : Nat} {r q : Nat → Byte} (hr : AgreeBelow (w * h) r q) (m bpp : Nat) (be : Bool) :
    packedImage r w h m bpp be = packedImage q w h m bpp be := by
  refine range_flatMap_congr fun y hy => packedRow_congr (hr.mono ?_) m bpp be
  calc y * w + w = (y + 1) * w := (Nat.succ_mul y w).symm
    _ ≤ h * w := Nat.mul_le_mul_right w hy
    _ = w * h := Nat.mul_comm h w

theorem firstAbove_congr {n : Nat} {r q : Nat → Byte} (h : AgreeBelow n r q) (limit : Nat) :
    firstAbove r limit n = firstAbove q limit n :=
  List.find?_congr fun i hi => by rw [h i (List.mem_range.1 hi)]

/-- A tile of the matrix lies in the bytes that `rowsNeed` counts for its image (R210, R212). -/
theorem tileAt_congr {mw mh bw bh pitch col row : Nat} {r q : Nat → Byte}
    (h : AgreeBelow (rowsNeed (mw * bw) (mh * bh) pitch (mw * bw)) r q) (hcol : col < mw) (hrow : row < mh) :
    tileAt r bw bh pitch col row = tileAt q bw bh pitch col row := by
  refine range_flatMap_congr fun y hy => range_map_congr fun x hx => h _ ?_
  have hx' : (col + 1) * bw ≤ mw * bw := Nat.mul_le_mul_right bw hcol
  have hy' : (row + 1) * bh ≤ mh * bh := Nat.mul_le_mul_right bh hrow
  rw [Nat.succ_mul] at hx' hy'
  have hline : (row * bh + y) * pitch ≤ (mh * bh - 1) * pitch := Nat.mul_le_mul_right pitch (by omega)
  rw [rowsNeed, if_pos ⟨by omega, by omega⟩]
  omega

/-- The tile walk reads no byte beyond its image (R214). -/
theorem dedupAnalyse_congr {mw mh bw bh pitch : Nat} {r q : Nat → Byte}
    (h : AgreeBelow (rowsNeed (mw * bw) (mh * bh) pitch (mw * bw)) r q) :
    dedupAnalyse r mw mh bw bh pitch = dedupAnalyse q mw mh bw bh pitch := by
  refine List.foldl_ext _ _ _ fun acc i hi => ?_
  have hi := List.mem_range.1 hi
  have hmh : 0 < mh := Nat.pos_of_ne_zero fun h0 => by simp [h0] at hi
  rw [tileAt_congr h (Nat.div_lt_of_lt_mul (by rwa [Nat.mul_comm])) (Nat.mod_lt i hmh)]

theorem mtxIndex_congr {cells i : Nat} {r q : Nat → Byte} (h : AgreeBelow (4 + 2 * cells) r q) (hi : i < cells) :
    mtxIndex r i = mtxIndex q i :=
  sle16At_congr h (by omega)

theorem badTileIndex_congr {cells : Nat} {r q : Nat → Byte} (h : AgreeBelow (4 + 2 * cells) r q) (n : Nat) :
    badTileIndex r n cells = badTileIndex q n cells :=
  List.find?_congr fun i hi => by rw [mtxIndex_congr h (List.mem_range.1 hi)]

/-- After the index check every index names one of the `n` tiles (R218). -/
theorem mtxIndex_lt {mtx : Nat → Byte} {n cells i : Nat} (h : badTileIndex mtx n cells = none) (hi : i < cells) :
    0 ≤ mtxIndex mtx i ∧ mtxIndex mtx i < n := by
  have := List.find?_eq_none.1 h i (List.mem_range.2 hi)
  simp only [decide_eq_true_eq, not_or] at this
  omega

/-- After the index check the composite reads only the matrix and the tile store (R218). -/
theorem composite_congr {store store' mtx mtx' : Nat → Byte} {n mw mh bw bh : Nat} (hs : AgreeBelow (n * bw * bh) store store')
    (hm : AgreeBelow (4 + 2 * (mw * mh)) mtx mtx') (hi : badTileIndex mtx n (mw * mh) = none) :
    composite store mtx mw mh bw bh = composite store' mtx' mw mh bw bh := by
  refine range_flatMap_congr fun y hy => range_map_congr fun x hx => ?_
  have hbw : 0 < bw := Nat.pos_of_ne_zero fun h0 => by simp [h0] at hx
  have hbh : 0 < bh := Nat.pos_of_ne_zero fun h0 => by simp [h0] at hy
  have hcol : x / bw < mw := Nat.div_lt_of_lt_mul (by rwa [Nat.mul_comm])
  have hrow : y / bh < mh := Nat.div_lt_of_lt_mul (by rwa [Nat.mul_comm])
  have hcell : x / bw * mh + y / bh < mw * mh := by
    have := Nat.mul_le_mul_right mh (Nat.succ_le_of_lt hcol)
    rw [Nat.succ_mul] at this
    omega
  obtain ⟨h0, hn⟩ := mtxIndex_lt hi hcell
  unfold compositePixel
  simp only [← mtxIndex_congr hm hcell]
  refine hs _ ?_
  generalize mtxIndex mtx (x / bw * mh + y / bh) = k at h0 hn ⊢
  have hx' := Nat.mod_lt x hbw
  have hline : (y % bh + 1) * bw ≤ bh * bw := Nat.mul_le_mul_right bw (Nat.mod_lt y hbh)
  have htile : (k.toNat + 1) * (bw * bh) ≤ n * (bw * bh) := Nat.mul_le_mul_right _ (by omega)
  rw [Nat.succ_mul] at hline htile
  rw [Nat.mul_comm bh bw] at hline
  rw [Nat.mul_assoc, Nat.mul_assoc]
  omega

/-! ### What two states that a command cannot tell apart share (R22, R57) -/

section
variable {i : Instr} {s u : State}

theorem SameInputs.cfg_eq (h : SameInputs i s u) : s.cfg = u.cfg := And.left h

theorem SameInputs.opr_eq (h : SameInputs i s u) (k : Fin 12) (hk : k ∈ operandsOf i) : s.opr[k] = u.opr[k] :=
  have ⟨_, hops, _⟩ := h
  hops k hk

theorem SameInputs.srcBase_eq (h : SameInputs i s u) (hk : (operandsOf i).contains 0 = true) : s.srcBase = u.srcBase :=
  congrArg BitVec.toNat (h.opr_eq 0 (List.mem_of_elem_eq_true hk))
theorem SameInputs.srcLen_eq (h : SameInputs i s u) (hk : (operandsOf i).contains 1 = true) : s.srcLen = u.srcLen :=
  congrArg BitVec.toNat (h.opr_eq 1 (List.mem_of_elem_eq_true hk))
theorem SameInputs.dstBase_eq (h : SameInputs i s u) (hk : (operandsOf i).contains 2 = true) : s.dstBase = u.dstBase :=
  congrArg BitVec.toNat (h.opr_eq 2 (List.mem_of_elem_eq_true hk))
theorem SameInputs.dstLen_eq (h : SameInputs i s u) (hk : (operandsOf i).contains 3 = true) : s.dstLen = u.dstLen :=
  congrArg BitVec.toNat (h.opr_eq 3 (List.mem_of_elem_eq_true hk))
theorem SameInputs.auxBase_eq (h : SameInputs i s u) (hk : (operandsOf i).contains 4 = true) : s.auxBase = u.auxBase :=
  congrArg BitVec.toNat (h.opr_eq 4 (List.mem_of_elem_eq_true hk))
theorem SameInputs.auxLen_eq (h : SameInputs i s u) (hk : (operandsOf i).contains 5 = true) : s.auxLen = u.auxLen :=
  congrArg BitVec.toNat (h.opr_eq 5 (List.mem_of_elem_eq_true hk))
theorem SameInputs.width_eq (h : SameInputs i s u) (hk : (operandsOf i).contains 6 = true) : s.width = u.width :=
  congrArg BitVec.toNat (h.opr_eq 6 (List.mem_of_elem_eq_true hk))
theorem SameInputs.height_eq (h : SameInputs i s u) (hk : (operandsOf i).contains 7 = true) : s.height = u.height :=
  congrArg BitVec.toNat (h.opr_eq 7 (List.mem_of_elem_eq_true hk))
theorem SameInputs.stride_eq (h : SameInputs i s u) (hk : (operandsOf i).contains 8 = true) : s.stride = u.stride :=
  congrArg BitVec.toNat (h.opr_eq 8 (List.mem_of_elem_eq_true hk))
theorem SameInputs.arg_eq (h : SameInputs i s u) (hk : (operandsOf i).contains 9 = true) : s.arg = u.arg :=
  congrArg BitVec.toNat (h.opr_eq 9 (List.mem_of_elem_eq_true hk))
theorem SameInputs.blkw_eq (h : SameInputs i s u) (hk : (operandsOf i).contains 10 = true) : s.blkw = u.blkw :=
  congrArg BitVec.toNat (h.opr_eq 10 (List.mem_of_elem_eq_true hk))
theorem SameInputs.blkh_eq (h : SameInputs i s u) (hk : (operandsOf i).contains 11 = true) : s.blkh = u.blkh :=
  congrArg BitVec.toNat (h.opr_eq 11 (List.mem_of_elem_eq_true hk))

/-- The identifier word of `ARG`, as the register holds it. -/
theorem SameInputs.argWord_eq (h : SameInputs i s u) (hk : (operandsOf i).contains 9 = true) : s.opr[9] = u.opr[9] :=
  h.opr_eq 9 (List.mem_of_elem_eq_true hk)

theorem SameInputs.src_agree (h : SameInputs i s u) (hr : (rolesOf i).inn.contains .src = true)
    (hk : (operandsOf i).contains 1 = true) : AgreeBelow u.srcLen s.src u.src :=
  have ⟨_, _, hbytes⟩ := h
  fun j hj => hbytes .src (List.mem_of_elem_eq_true hr) j (by rwa [State.len, h.srcLen_eq hk])

theorem SameInputs.aux_agree (h : SameInputs i s u) (hr : (rolesOf i).inn.contains .aux = true)
    (hk : (operandsOf i).contains 5 = true) : AgreeBelow u.auxLen s.aux u.aux :=
  have ⟨_, _, hbytes⟩ := h
  fun j hj => hbytes .aux (List.mem_of_elem_eq_true hr) j (by rwa [State.len, h.auxLen_eq hk])

end

/-! ### Each command's rule answers the same on states it cannot tell apart -/

section
variable {s u : State}

theorem rleDecRule_congr (h : SameInputs .rleDec s u) : rleDecRule s = rleDecRule u := by
  unfold rleDecRule
  rw [h.srcLen_eq rfl, h.dstLen_eq rfl, rleDecode_congr ((h.src_agree rfl rfl).mono (by omega))]

theorem lzwDecRule_congr (h : SameInputs .lzwDec s u) : lzwDecRule s = lzwDecRule u := by
  unfold lzwDecRule
  rw [h.cfg_eq, h.srcLen_eq rfl, h.dstLen_eq rfl, lzwVerdict_congr _ ((h.src_agree rfl rfl).mono (by omega))]

theorem bmkDecRule_congr (h : SameInputs .bmkDec s u) : bmkDecRule s = bmkDecRule u := by
  unfold bmkDecRule
  rw [h.cfg_eq, h.srcLen_eq rfl, h.dstLen_eq rfl, bmkDecode_congr _ (h.src_agree rfl rfl)]

theorem cblkDecRule_congr (h : SameInputs .cblkDec s u) : cblkDecRule s = cblkDecRule u := by
  unfold cblkDecRule
  rw [h.srcLen_eq rfl, h.dstLen_eq rfl]
  refine check_congr fun hlen => ?_
  have hin : AgreeBelow (5 + (u.srcLen - 5)) s.src u.src := (h.src_agree rfl rfl).mono (by omega)
  simp only [hin 0 (by omega), le32At_congr hin (show 1 + 4 ≤ _ by omega)]
  refine check_congr fun _ => check_congr fun _ => check_congr fun _ => ?_
  congr 1
  · unfold cblkRaw
    rw [h.srcLen_eq rfl]
    exact check_congr fun hp => by rw [sliceOf_congr hin (by omega)]
  · congr 1
    · unfold cblkRle; rw [rleDecode_congr hin]
    · unfold cblkLzw; rw [h.cfg_eq, lzwVerdict_congr _ hin]

/-- A chunk header inside `SRC` is read alike (R121). -/
theorem withLength_congr {o : Nat} {k k' : Nat → Nat → Verdict} (hlen : s.srcLen = u.srcLen)
    (hs : AgreeBelow u.srcLen s.src u.src) (ho : o + 8 ≤ u.srcLen) (hk : ∀ l f, k l f = k' l f) : withLength s o k = withLength u o k' := by
  unfold withLength
  simp only [hlen, le32At_congr hs (show o + 4 + 4 ≤ _ by omega), hk]

/-- The chunk scan reads only headers that lie inside `SRC` (R122). -/
theorem chkScan_congr (hlen : s.srcLen = u.srcLen) (harg : s.arg = u.arg) (hs : AgreeBelow u.srcLen s.src u.src) (fuel o : Nat) :
    chkScan s fuel o = chkScan u fuel o := by
  induction fuel generalizing o with
  | zero => rfl
  | succ fuel ih =>
    unfold chkScan
    rw [hlen]
    refine check_congr fun ho => withLength_congr hlen hs (by omega) fun l f => ?_
    rw [le32At_congr hs (by omega), harg, ih]

theorem chkFindRule_congr (h : SameInputs .chkFind s u) : chkFindRule s = chkFindRule u := by
  unfold chkFindRule
  rw [h.argWord_eq rfl, h.arg_eq rfl, h.srcLen_eq rfl, chkScan_congr (h.srcLen_eq rfl) (h.arg_eq rfl) (h.src_agree rfl rfl)]

theorem chkLenRule_congr (h : SameInputs .chkLen s u) : chkLenRule s = chkLenRule u := by
  have hs := h.src_agree rfl rfl
  unfold chkLenRule
  rw [h.arg_eq rfl, h.srcLen_eq rfl]
  refine check_congr fun ho => ?_
  rw [hs _ (by omega), hs (u.arg + 1) (by omega), hs (u.arg + 2) (by omega), hs (u.arg + 3) (by omega),
    le32At_congr hs (by omega), withLength_congr (h.srcLen_eq rfl) hs (by omega) fun _ _ => rfl]

theorem chkWrapRule_congr (h : SameInputs .chkWrap s u) : chkWrapRule s = chkWrapRule u := by
  unfold chkWrapRule
  rw [h.argWord_eq rfl, h.arg_eq rfl, h.srcLen_eq rfl, h.dstLen_eq rfl]
  simp only [sliceOf_congr (h.src_agree rfl rfl) (show 0 + u.srcLen ≤ _ by omega)]

theorem infGetRule_congr (h : SameInputs .infGet s u) : infGetRule s = infGetRule u := by
  have hs := h.src_agree rfl rfl
  unfold infGetRule
  rw [h.arg_eq rfl, h.srcLen_eq rfl]
  refine check_congr fun _ => ?_
  have hcount : le16At s.src 0 = le16At u.src 0 := le16At_congr hs (by omega)
  simp only [hcount]
  refine check_congr fun _ => check_congr fun _ => ?_
  rw [le16At_congr hs (j := 2 + 2 * u.arg) (by omega), le16At_congr hs (j := 2 + 2 * le16At u.src 0 + 2 * u.arg) (by omega)]

theorem pixUnpackRule_congr {bpp : BitVec 4} {be : Bool} (hb : 0 < bpp.toNat) (h : SameInputs (.pixUnpack bpp be) s u) :
    pixUnpackRule bpp.toNat be s = pixUnpackRule bpp.toNat be u := by
  unfold pixUnpackRule
  rw [h.width_eq rfl, h.height_eq rfl, h.stride_eq rfl, h.srcLen_eq rfl, h.dstLen_eq rfl]
  refine check_congr fun _ => check_congr fun hneed => check_congr fun _ => ?_
  rw [unpackedImage_congr hb ((h.src_agree rfl rfl).mono (by omega))]

theorem pixPackRule_congr {bpp : BitVec 4} {be : Bool} (h : SameInputs (.pixPack bpp be) s u) :
    pixPackRule bpp.toNat be s = pixPackRule bpp.toNat be u := by
  unfold pixPackRule
  rw [h.width_eq rfl, h.height_eq rfl, h.srcLen_eq rfl, h.dstLen_eq rfl]
  refine check_congr fun hneed => check_congr fun _ => ?_
  have hin : AgreeBelow (u.width * u.height) s.src u.src := (h.src_agree rfl rfl).mono (by omega)
  rw [firstAbove_congr hin, packedImage_congr hin]
  cases hfind : firstAbove u.src (pixMask bpp.toNat) (u.width * u.height) with
  | none => rfl
  | some i =>
    have hi := List.mem_range.1 (List.mem_of_find?_eq_some hfind)
    simp only [hin i hi]

theorem pixMergeRule_congr (h : SameInputs .pixMerge s u) : pixMergeRule s = pixMergeRule u := by
  have hs := h.src_agree rfl rfl
  unfold pixMergeRule
  rw [h.srcLen_eq rfl, h.auxLen_eq rfl, h.dstLen_eq rfl]
  refine check_congr fun hlen => check_congr fun _ => ?_
  have hx : AgreeBelow u.srcLen s.aux u.aux := (h.aux_agree rfl rfl).mono (by omega)
  rw [nibbleFault_congr hs hx, range_map_congr fun i hi => by rw [hs i hi, hx i hi]]

theorem pixSplitRule_congr (h : SameInputs .pixSplit s u) : pixSplitRule s = pixSplitRule u := by
  have hs := h.src_agree rfl rfl
  unfold pixSplitRule
  rw [h.srcLen_eq rfl, h.auxLen_eq rfl, h.dstLen_eq rfl]
  refine check_congr fun _ => check_congr fun _ => ?_
  rw [range_map_congr fun i hi => congrArg lowNibble (hs i hi), range_map_congr fun i hi => congrArg highNibble (hs i hi)]

theorem scnFrame_congr (hc : s.cfg = u.cfg) {start stop : Nat} (hs : AgreeBelow u.srcLen s.src u.src) (h1 : start ≤ stop)
    (h2 : stop ≤ u.srcLen) (w h : Nat) : scnFrame s w h start stop = scnFrame u w h start stop := by
  unfold scnFrame
  rw [hc, sliceOf_congr hs (by omega)]

/-- The ends of the frames are read inside `AUX`, the last one is the end of `SRC` (R171). -/
theorem scnFrameEnd_congr (hlen : s.srcLen = u.srcLen) (hx : AgreeBelow u.auxLen s.aux u.aux) (k : Nat) :
    scnFrameEnd s k (u.auxLen / 4) = scnFrameEnd u k (u.auxLen / 4) := by
  unfold scnFrameEnd
  rw [hlen]
  exact if_ctx_congr Iff.rfl (fun hk => sle32At_congr hx (by omega)) fun _ => rfl

theorem scnDecRule_congr (h : SameInputs .scnDec s u) : scnDecRule s = scnDecRule u := by
  unfold scnDecRule
  rw [h.width_eq rfl, h.height_eq rfl, h.arg_eq rfl, h.auxLen_eq rfl, h.srcLen_eq rfl, h.dstLen_eq rfl]
  refine check_congr fun _ => check_congr fun _ => check_congr fun _ => check_congr fun hk => check_congr fun _ => ?_
  simp only [scnFrameEnd_congr (h.srcLen_eq rfl) (h.aux_agree rfl rfl),
    sle32At_congr (h.aux_agree rfl rfl) (show 4 * u.arg + 4 ≤ _ by omega)]
  exact check_congr fun hr => check_congr fun _ => scnFrame_congr h.cfg_eq (h.src_agree rfl rfl) (by omega) (by omega) _ _

theorem tileStore_congr (ha : s.auxLen = u.auxLen) (hd : s.dstLen = u.dstLen) (mw mh bw bh : Nat) (uniq : List (List Byte))
    (idx : List Nat) : tileStore s mw mh bw bh uniq idx = tileStore u mw mh bw bh uniq idx := by
  unfold tileStore; rw [ha, hd]

theorem tileDedupRule_congr (h : SameInputs .tileDedup s u) : tileDedupRule s = tileDedupRule u := by
  unfold tileDedupRule
  rw [h.width_eq rfl, h.height_eq rfl, h.stride_eq rfl, h.blkw_eq rfl, h.blkh_eq rfl, h.srcLen_eq rfl]
  refine check_congr fun _ => check_congr fun _ => check_congr fun _ => check_congr fun hw => check_congr fun hh => ?_
  refine check_congr fun _ => check_congr fun _ => check_congr fun hneed => ?_
  have hwidth : u.width / u.blkw * u.blkw = u.width := Nat.div_mul_cancel (Nat.dvd_of_mod_eq_zero (by omega))
  have hheight : u.height / u.blkh * u.blkh = u.height := Nat.div_mul_cancel (Nat.dvd_of_mod_eq_zero (by omega))
  simp only [dedupAnalyse_congr (mw := u.width / u.blkw) (mh := u.height / u.blkh) (pitch := u.stride)
    ((h.src_agree rfl rfl).mono (by rw [hwidth, hheight]; omega)), tileStore_congr (h.auxLen_eq rfl) (h.dstLen_eq rfl)]

theorem tileCompose_congr (h : SameInputs .tileExpand s u) (n bw bh mw mh : Nat) :
    tileCompose s n bw bh mw mh = tileCompose u n bw bh mw mh := by
  unfold tileCompose
  rw [h.auxLen_eq rfl, h.srcLen_eq rfl, h.dstLen_eq rfl]
  refine check_congr fun haux => check_congr fun _ => check_congr fun hsrc => check_congr fun _ => ?_
  have hm : AgreeBelow (4 + 2 * (mw * mh)) s.aux u.aux := (h.aux_agree rfl rfl).mono (by omega)
  have hs : AgreeBelow (n * bw * bh) s.src u.src := (h.src_agree rfl rfl).mono (by omega)
  rw [← badTileIndex_congr hm]
  cases hbad : badTileIndex s.aux n (mw * mh) with
  | none => simp only [composite_congr hs hm hbad]
  | some i =>
    have hi := List.mem_range.1 (List.mem_of_find?_eq_some hbad)
    simp only [mtxIndex_congr hm hi]

theorem tileExpandRule_congr (h : SameInputs .tileExpand s u) : tileExpandRule s = tileExpandRule u := by
  unfold tileExpandRule
  rw [h.blkw_eq rfl, h.blkh_eq rfl, h.auxLen_eq rfl, h.arg_eq rfl]
  refine check_congr fun _ => check_congr fun _ => check_congr fun haux => ?_
  rw [le16At_congr (h.aux_agree rfl rfl) (j := 0) (by omega), le16At_congr (h.aux_agree rfl rfl) (j := 2) (by omega),
    tileCompose_congr h]

end

/-- A legal `BPP` is not 0 (R94). -/
theorem legalBpp_pos {bpp : BitVec 4} (h : legalBpp bpp = true) : 0 < bpp.toNat := by
  revert bpp; decide

/-- A command's rule is a function of what R22 and R57 let it read. -/
theorem ruleOf_congr {i : Instr} {s u : State} (hw : i.wf = true) (h : SameInputs i s u) : ruleOf i s = ruleOf i u := by
  cases i with
  | nop => rfl
  | ack => rfl
  | rleDec => exact rleDecRule_congr h
  | lzwDec => exact lzwDecRule_congr h
  | scnDec => exact scnDecRule_congr h
  | bmkDec => exact bmkDecRule_congr h
  | cblkDec => exact cblkDecRule_congr h
  | chkFind => exact chkFindRule_congr h
  | chkLen => exact chkLenRule_congr h
  | chkWrap => exact chkWrapRule_congr h
  | infGet => exact infGetRule_congr h
  | pixUnpack bpp be => exact pixUnpackRule_congr (legalBpp_pos hw) h
  | pixPack bpp be => exact pixPackRule_congr h
  | pixMerge => exact pixMergeRule_congr h
  | pixSplit => exact pixSplitRule_congr h
  | tileDedup => exact tileDedupRule_congr h
  | tileExpand => exact tileExpandRule_congr h

/-! ### The complete step on states that a command cannot tell apart -/

/-- The base and length registers of a region (R21, R56). -/
def Region.regs : Region → Fin 12 × Fin 12
  | .src => (0, 1)
  | .dst => (2, 3)
  | .aux => (4, 5)

theorem base_eq_opr (s : State) (r : Region) : s.base r = (s.opr[r.regs.1]).toNat := by
  cases r <;> rfl

theorem len_eq_opr (s : State) (r : Region) : s.len r = (s.opr[r.regs.2]).toNat := by
  cases r <;> rfl

/-- The tables of R22 and R57 agree: the base and length registers of a region that a command uses are operands of it. -/
theorem operandsOf_of_uses {i : Instr} {r : Region} (hr : (rolesOf i).uses r = true) :
    r.regs.1 ∈ operandsOf i ∧ r.regs.2 ∈ operandsOf i := by
  cases i <;> cases r <;> simp_all [operandsOf, rolesOf, Roles.uses, Region.regs]

theorem SameInputs.base_eq {i : Instr} {s u : State} (h : SameInputs i s u) {r : Region} (hr : (rolesOf i).uses r = true) :
    s.base r = u.base r := by
  rw [base_eq_opr, base_eq_opr, h.opr_eq _ (operandsOf_of_uses hr).1]

theorem SameInputs.len_eq {i : Instr} {s u : State} (h : SameInputs i s u) {r : Region} (hr : (rolesOf i).uses r = true) :
    s.len r = u.len r := by
  rw [len_eq_opr, len_eq_opr, h.opr_eq _ (operandsOf_of_uses hr).2]

theorem outOfMem_congr {i : Instr} {s u : State} (h : SameInputs i s u) (r : Region) :
    outOfMem (rolesOf i) s r = outOfMem (rolesOf i) u r := by
  unfold outOfMem
  cases hr : (rolesOf i).uses r with
  | false => rfl
  | true => rw [h.cfg_eq, h.base_eq hr, h.len_eq hr]

theorem overlap_congr {i : Instr} {s u : State} (h : SameInputs i s u) (a b : Region) :
    overlap (rolesOf i) s a b = overlap (rolesOf i) u a b := by
  unfold overlap
  cases ha : (rolesOf i).uses a with
  | false => rfl
  | true =>
    cases hb : (rolesOf i).uses b with
    | false => rfl
    | true => rw [h.base_eq ha, h.len_eq ha, h.base_eq hb, h.len_eq hb]

theorem regionFault_congr {i : Instr} {s u : State} (h : SameInputs i s u) :
    regionFault (rolesOf i) s = regionFault (rolesOf i) u := by
  unfold regionFault; simp only [outOfMem_congr h, overlap_congr h]

/-- Storing the same bytes at the same place keeps a byte equal in two states. -/
theorem byteAt_storeBytes_congr {s u : State} {k : Nat} (h : s.byteAt k = u.byteAt k) (a : Nat) (bs : List Byte) :
    (s.storeBytes a bs).byteAt k = (u.storeBytes a bs).byteAt k := by
  by_cases hin : a ≤ k ∧ k < a + bs.length
  · obtain ⟨j, rfl⟩ := Nat.exists_eq_add_of_le hin.1
    rw [byteAt_storeBytes_inside s a bs j (by omega), byteAt_storeBytes_inside u a bs j (by omega)]
  · rw [byteAt_storeBytes_outside s a bs k (by omega), byteAt_storeBytes_outside u a bs k (by omega), h]

/-- So does storing the output of a command, which is empty where the region is not an `OUT` region. -/
theorem byteAt_storeOut_congr {i : Instr} {s u s' u' : State} (h : SameInputs i s u) {k : Nat} (hk : s'.byteAt k = u'.byteAt k)
    {r : Region} {bs : List Byte} (ho : r ∉ (rolesOf i).out → bs = []) :
    (s'.storeBytes (s.base r) bs).byteAt k = (u'.storeBytes (u.base r) bs).byteAt k := by
  by_cases hr : r ∈ (rolesOf i).out
  · rw [h.base_eq (by simp [Roles.uses, hr])]
    exact byteAt_storeBytes_congr hk _ bs
  · rw [ho hr]; exact hk

/-- What the two-run statement says of the states that two runs end in. -/
def SameOutcome (s u t v : State) : Prop :=
  t.phase = v.phase ∧ t.res = v.res ∧
    (t.phase = .fault → t.fcode = v.fcode ∧ t.finfo0 = v.finfo0 ∧ t.finfo1 = v.finfo1 ∧ t.finfo2 = v.finfo2) ∧
    (t.phase = .done → ∀ a : Nat, s.byteAt a = u.byteAt a → t.byteAt a = v.byteAt a)

theorem takeFault_sameOutcome (e : ErrCode) (i0 i1 i2 : Int) (s u s' u' : State) :
    SameOutcome s u (takeFault e i0 i1 i2 s') (takeFault e i0 i1 i2 u') :=
  ⟨rfl, rfl, fun _ => ⟨rfl, rfl, rfl, rfl⟩, by simp⟩

theorem conclude_sameOutcome {i : Instr} {s u : State} {v : Verdict} (h : SameInputs i s u) (hk : v.keeps i s) :
    SameOutcome s u (conclude v s) (conclude v u) := by
  cases v with
  | done r0 r1 r2 r3 short out outAux =>
    obtain ⟨-, -, hdst, haux, -⟩ := hk
    refine ⟨rfl, rfl, by simp [conclude], fun _ a ha => ?_⟩
    simp only [conclude, byteAt_finish]
    exact byteAt_storeOut_congr (r := .aux) h (byteAt_storeOut_congr (r := .dst) h ha hdst) haux
  | preFault e i0 i1 i2 => exact takeFault_sameOutcome ..
  | midFault e i0 i1 i2 n => exact takeFault_sameOutcome ..

/-- Two runs of a command on states that it cannot tell apart end alike. -/
theorem exec_sameOutcome {i : Instr} {s u t v : State} (ha : i ≠ .ack) (h : SameInputs i s u) (ht : exec i s = .next t)
    (hv : exec i u = .next v) : SameOutcome s u t v := by
  rcases exec_cases i s ha with ⟨hw, h'⟩ | ⟨i0, i1, i2, hw, hr, h'⟩ | ⟨hw, hr, h'⟩ <;> rw [h'] at ht <;> cases ht
  · rw [exec_not_wf i u hw] at hv; cases hv
    exact takeFault_sameOutcome ..
  · rw [exec_wf i u hw ha, complete_of_region_fault (regionFault_congr h ▸ hr)] at hv; cases hv
    exact takeFault_sameOutcome ..
  · rw [exec_of_region_ok hw ha (regionFault_congr h ▸ hr), ← ruleOf_congr hw h] at hv; cases hv
    exact conclude_sameOutcome h (ruleOf_keeps i s)

/-- Settles O25: the region check and the rule read only what the two states share, and an `OUT` region lies at the same place in
both. -/
theorem commandDependsOnItsInputsOnly : Obligations.CommandDependsOnItsInputsOnly := by
  intro i s u t v ha h ht hv
  obtain ⟨hphase, hres, hrecord, hbytes⟩ := exec_sameOutcome ha h ht hv
  refine ⟨hphase, hres, hrecord, fun hd r hr j _ hj => ?_⟩
  rw [← h.base_eq (by simp [Roles.uses, hr])] at hj ⊢
  exact hbytes hd _ hj

end Sys2Proof.Machine
end

/-! ## The registers, the flags and `MEM` as the host sees them

Each clause about a step with a known cause follows from one lemma that says what that step leaves; each clause that says
"nothing else changes it" goes through the kinds of step (`step_kind`). -/

section

namespace Sys2Proof.Machine

/-! ### Register access (R28, R36) -/

theorem readReg_x (s : State) (k : Fin 16) : readReg s (4 * k.val) = s.x k := by
  have hdiv : 4 * k.val / 4 = k.val := by omega
  simp [readReg, hdiv]

/-- An unmapped offset reads 0. -/
theorem readReg_unmapped (s : State) {off : Nat} (h : off % 4 ≠ 0 ∨ 0x60 ≤ off) : readReg s off = 0 := by
  unfold readReg
  by_cases h4 : off % 4 ≠ 0
  · rw [if_pos h4]
  · have h60 : 0x60 ≤ off := by omega
    rw [if_neg h4, dif_neg (by omega)]
    iterate 8 rw [if_neg (by omega)]

/-- A host write takes effect at `CMD` and at the operand registers only. -/
theorem writeReg_discarded (s : State) (v : Word) {off : Nat} (hcmd : off ≠ 0x40) (h : off % 4 ≠ 0 ∨ 48 ≤ off) :
    writeReg off v s = .next s := by
  rcases writeReg_cases off v s with ⟨h0, -⟩ | ⟨k, h0, -⟩ | ⟨-, -, h1⟩
  · exact absurd h0 hcmd
  · omega
  · exact h1

theorem writeReg_cmd (w : Word) (s : State) : writeReg 0x40 w s = writeCmd w s := rfl

theorem writeReg_operand (k : Fin 12) (v : Word) (s : State) : writeReg (4 * k.val) v s = .next (writeOperand k v s) := by
  rcases writeReg_cases (4 * k.val) v s with ⟨h, -⟩ | ⟨j, h, h1⟩ | ⟨-, h, -⟩
  · omega
  · obtain rfl : k = j := Fin.ext (by omega)
    exact h1
  · exact absurd rfl (h k)

/-- The bits of `STATUS`, from the lowest field up (R28). -/
theorem statusWord_bit (s : State) (i : Nat) :
    s.statusWord.getLsbD i =
      if i < 2 then s.phase.bits.getLsbD i else if i = 2 then s.short else if i = 3 then s.ovr else if i = 4 then s.fsticky
      else false := by
  show BitVec.getLsbD (w := 27 + 1 + 1 + 1 + 2) (0#27 ++ BitVec.ofBool s.fsticky ++ BitVec.ofBool s.ovr ++ BitVec.ofBool s.short
    ++ s.phase.bits) i = _
  simp only [BitVec.getLsbD_append, BitVec.getLsbD_ofBool, BitVec.getLsbD_zero]
  grind

/-- The fields of `STATUS` (R28). -/
theorem statusWord_fields (s : State) :
    s.statusWord.extractLsb' 0 2 = s.phase.bits ∧ s.statusWord.getLsbD 2 = s.short ∧ s.statusWord.getLsbD 3 = s.ovr ∧
      s.statusWord.getLsbD 4 = s.fsticky ∧ s.statusWord.extractLsb' 5 27 = 0 := by
  refine ⟨?_, statusWord_bit s 2, statusWord_bit s 3, statusWord_bit s 4, ?_⟩
  · refine BitVec.eq_of_getLsbD_eq fun i hi => ?_
    simp [statusWord_bit, hi]
  · refine BitVec.eq_of_getLsbD_eq fun i hi => ?_
    rw [BitVec.getLsbD_extractLsb', statusWord_bit]
    grind
/-! ### What the engine's step leaves in the flags and the operand registers -/

/-- The faults the engine can take set `FSTICKY`; a completed command leaves it (R32). -/
theorem conclude_fsticky (v : Verdict) (s : State) :
    (conclude v s).fsticky = true ↔ s.fsticky = true ∨ (conclude v s).phase = .fault := by
  cases v <;> simp [conclude]

theorem exec_fsticky {i : Instr} {s t : State} (ha : i ≠ .ack) (h : exec i s = .next t) :
    t.fsticky = true ↔ s.fsticky = true ∨ t.phase = .fault := by
  rcases exec_cases i s ha with ⟨-, h'⟩ | ⟨i0, i1, i2, -, -, h'⟩ | ⟨-, -, h'⟩ <;> rw [h'] at h <;> cases h
  · simp [badCommand]
  · simp
  · exact conclude_fsticky _ s

theorem engineStep_fsticky {s t : State} (h : engineStep s = .next t) :
    t.fsticky = true ↔ s.fsticky = true ∨ t.phase = .fault := by
  rcases engineStep_cases s with h' | ⟨i, -, ha, h'⟩ <;> rw [h'] at h
  · cases h; simp [badCommand]
  · exact exec_fsticky ha h

/-- A command that faults, and every command but `RLE.DEC`, leaves `SHORT` (R30). -/
theorem exec_short {i : Instr} {s t : State} (ha : i ≠ .ack) (h : exec i s = .next t)
    (hn : ¬ (i = .rleDec ∧ t.phase = .done)) : t.short = s.short := by
  rcases exec_cases i s ha with ⟨-, h'⟩ | ⟨i0, i1, i2, -, -, h'⟩ | ⟨-, -, h'⟩ <;> rw [h'] at h <;> cases h
  · rfl
  · rfl
  · have hk := ruleOf_keeps i s
    revert hn hk
    cases ruleOf i s with
    | done r0 r1 r2 r3 short out outAux =>
      intro hn hk
      obtain ⟨-, -, -, -, hshort⟩ := hk
      have hi : i ≠ .rleDec := fun hi => hn ⟨hi, rfl⟩
      simp [conclude, hshort hi]
    | preFault e i0 i1 i2 => intro _ _; rfl
    | midFault e i0 i1 i2 n => intro _ _; rfl

/-- A completed `RLE.DEC` sets `SHORT` iff it delivered fewer bytes than `DST_LEN` (R30, R142). -/
theorem exec_rleDec_short {s t : State} (h : exec .rleDec s = .next t) (hd : t.phase = .done) :
    t.short = true ↔ t.res[0].toNat < s.dstLen := by
  rcases exec_cases .rleDec s (by simp) with ⟨-, h'⟩ | ⟨i0, i1, i2, -, -, h'⟩ | ⟨-, -, h'⟩ <;> rw [h'] at h <;> cases h
  · cases hd
  · cases hd
  · have hlen : (rleDecode s.src 0 s.srcLen s.dstLen).1.length < 2 ^ 32 :=
      Nat.lt_of_le_of_lt (rleDecode_length ..) (dstLen_lt s)
    simp only [ruleOf, rleDecRule, conclude, finish_short, finish_res, Option.getD_some, shortFlag, decide_eq_true_eq]
    show _ ↔ (BitVec.ofNat 32 _).toNat < s.dstLen
    rw [toNat_ofNat32 hlen]

theorem engineStep_short {s t : State} (h : engineStep s = .next t) (hn : ¬ (decode s.cmd = .ok .rleDec ∧ t.phase = .done)) :
    t.short = s.short := by
  rcases engineStep_cases s with h' | ⟨i, hi, ha, h'⟩ <;> rw [h'] at h
  · cases h; rfl
  · exact exec_short ha h fun hr => hn ⟨hr.1 ▸ hi, hr.2⟩

theorem engineStep_opr {s t : State} (h : engineStep s = .next t) : t.opr = s.opr := by
  obtain ⟨-, hopr, -⟩ := engineStep_frame h
  exact hopr

theorem engineStep_ovr {s t : State} (h : engineStep s = .next t) : t.ovr = s.ovr := by
  obtain ⟨-, -, -, hovr, -⟩ := engineStep_frame h
  exact hovr

/-! ### Steps with a known cause -/

/-- A command other than `ACK` is accepted (R230). -/
theorem step_accept {s : State} {w : Word} (hn : NextCmd s w) (hw : w ≠ ackWord) (hp : s.phase = .idle ∨ s.phase = .done) :
    step s = .next (accept w s.popped) := by
  rw [step_writeReg hn, writeReg_cmd]
  rcases hp with hp | hp <;> simp [writeCmd, hw, hp]

/-- An `ACK` is accepted (R232). -/
theorem step_ack {s : State} (hn : NextCmd s ackWord) (hp : s.phase ≠ .busy) : step s = .next (acknowledge s.popped) := by
  rw [step_writeReg hn, writeReg_cmd]
  simp [writeCmd, execAck, hp]

theorem step_reset {s : State} (hn : NextReset s) : step s = .next (hardReset s.popped) := step_head hn

/-- Every `CMD` write while `BUSY` is discarded (R31, R230). -/
theorem step_cmd_busy {s : State} {w : Word} (hn : NextCmd s w) (hp : s.phase = .busy) : step s = .next s.popped.overrun := by
  rw [step_writeReg hn, writeReg_cmd]
  simp [writeCmd, execAck, hp]

/-- A command other than `ACK` is discarded in `FAULT` (R31, R230). -/
theorem step_cmd_fault {s : State} {w : Word} (hn : NextCmd s w) (hw : w ≠ ackWord) (hp : s.phase = .fault) :
    step s = .next s.popped.overrun := by
  rw [step_writeReg hn, writeReg_cmd]
  simp [writeCmd, hw, hp]

theorem step_operand {s : State} {k : Fin 12} {v : Word} (hn : NextOperand s k v) :
    step s = .next (writeOperand k v s.popped) := by
  rw [step_writeReg hn, writeReg_operand]

/-- An operand write while `BUSY` is discarded (R23, R31). -/
theorem step_operand_busy {s : State} {k : Fin 12} {v : Word} (hn : NextOperand s k v) (hp : s.phase = .busy) :
    step s = .next s.popped.overrun := by
  rw [step_operand hn]
  simp [writeOperand, hp]

/-- Whichever way the engine gets its turn, its step runs, from the state itself or with its turn taken off the agenda (R233). -/
theorem step_of_engineMoves {s : State} (hp : s.phase = .busy) (hm : EngineMoves s) :
    ∃ u, (u = s ∨ u = s.popped) ∧ step s = engineStep u := by
  rcases hm with h | h | h
  · exact ⟨s, Or.inl rfl, step_engine hp h⟩
  · exact ⟨s.popped, Or.inr rfl, by rw [step_head h]; simp [happen, engineTurn, hp]⟩
  · refine ⟨s, Or.inl rfl, ?_⟩
    rw [step_head h]
    simp only [happen]
    rw [if_pos (show s.popped.phase = .busy from hp), wait_stays h]


/-- A step leaves one state. -/
theorem step_unique {s t u : State} (ht : step s = .next t) (hu : step s = .next u) : t = u :=
  Host.Outcome.next.inj (ht.symm.trans hu)

/-! ### The flag rules over every step (R29 to R32) -/

/-- Settles O11: each transition by the step that makes it, the closing clause by the kind of the step. -/
theorem phaseTransitionsComplete : Obligations.PhaseTransitionsComplete := by
  intro s t h
  refine ⟨fun w hn hw hp => ?_, fun hp hm => ?_, fun hn hp => ?_, fun hn => ?_, fun hacc heng hack hres => ?_⟩
  · rw [step_unique h (step_accept hn hw hp)]; rfl
  · obtain ⟨u, -, hu⟩ := step_of_engineMoves hp hm
    exact engineStep_phase (hu ▸ h)
  · rw [step_unique h (step_ack hn hp)]; rfl
  · rw [step_unique h (step_reset hn)]; rfl
  · cases step_kind h with
    | engine u _ hm hp _ => exact absurd ⟨hp, hm⟩ heng
    | cmdBusy w _ _ h => subst h; rfl
    | ack hn hp _ => exact absurd ⟨hn, hp⟩ hack
    | cmdFault w _ _ _ h => subst h; rfl
    | accept w hn hw hp _ => exact absurd ⟨w, hn, hw, hp⟩ hacc
    | oprBusy k v _ _ h => subst h; rfl
    | opr k v _ _ h => subst h; rfl
    | reset hn _ => exact absurd hn hres
    | poke a bs _ _ _ h => subst h; rfl
    | quiet _ _ _ _ hq => obtain ⟨ag, se, rfl⟩ := hq; rfl

/-- Settles O12: `SHORT` of the engine's step is what the command's rule answers for it; every other step is read off its kind. -/
theorem shortFlagRule : Obligations.ShortFlagRule := by
  intro s t h
  refine ⟨fun w hn hw hp => ?_, fun hp hm hd hdone => ?_, fun hp hm hn => ?_, fun hn => ?_, fun hacc heng hres => ?_⟩
  · rw [step_unique h (step_accept hn hw hp)]; rfl
  · obtain ⟨u, hu, hrun⟩ := step_of_engineMoves hp hm
    rw [hrun] at h
    rcases hu with rfl | rfl
    · exact exec_rleDec_short (engineStep_of_decode hd (by simp) ▸ h) hdone
    · exact exec_rleDec_short (s := s.popped) (engineStep_of_decode (s := s.popped) hd (by simp) ▸ h) hdone
  · obtain ⟨u, hu, hrun⟩ := step_of_engineMoves hp hm
    rw [hrun] at h
    rcases hu with rfl | rfl
    · exact engineStep_short h hn
    · exact engineStep_short (s := s.popped) h hn
  · rw [step_unique h (step_reset hn)]; rfl
  · cases step_kind h with
    | engine u _ hm hp _ => exact absurd ⟨hp, hm⟩ heng
    | cmdBusy w _ _ h => subst h; rfl
    | ack _ _ h => subst h; rfl
    | cmdFault w _ _ _ h => subst h; rfl
    | accept w hn hw hp _ => exact absurd ⟨w, hn, hw, hp⟩ hacc
    | oprBusy k v _ _ h => subst h; rfl
    | opr k v _ _ h => subst h; rfl
    | reset hn _ => exact absurd hn hres
    | poke a bs _ _ _ h => subst h; rfl
    | quiet _ _ _ _ hq => obtain ⟨ag, se, rfl⟩ := hq; rfl

/-- Settles O13: the discarded writes set `OVR` and nothing else; `ACK` and reset clear it; no other kind of step touches it. -/
theorem ovrFlagRule : Obligations.OvrFlagRule := by
  intro s t h
  refine ⟨?_, ?_, fun hbusy hfault hack hres => ?_⟩
  · rintro (⟨hp, ⟨w, hn⟩ | ⟨k, v, hn⟩⟩ | ⟨hp, w, hn, hw⟩)
    · exact step_unique h (step_cmd_busy hn hp)
    · exact step_unique h (step_operand_busy hn hp)
    · exact step_unique h (step_cmd_fault hn hw hp)
  · rintro (⟨hp, hn⟩ | hn)
    · rw [step_unique h (step_ack hn hp)]; rfl
    · rw [step_unique h (step_reset hn)]; rfl
  · cases step_kind h with
    | engine u hu _ _ hrun =>
      rcases hu with rfl | rfl
      · exact engineStep_ovr hrun
      · exact engineStep_ovr (s := s.popped) hrun
    | cmdBusy w hn hp _ => exact absurd ⟨hp, Or.inl ⟨w, hn⟩⟩ hbusy
    | ack hn hp _ => exact absurd ⟨hp, hn⟩ hack
    | cmdFault w hn hw hp _ => exact absurd ⟨hp, w, hn, hw⟩ hfault
    | accept w _ _ _ h => subst h; rfl
    | oprBusy k v hn hp _ => exact absurd ⟨hp, Or.inr ⟨k, v, hn⟩⟩ hbusy
    | opr k v _ _ h => subst h; rfl
    | reset hn _ => exact absurd hn hres
    | poke a bs _ _ _ h => subst h; rfl
    | quiet _ _ _ _ hq => obtain ⟨ag, se, rfl⟩ := hq; rfl

/-- A step that leaves `FSTICKY` and does not enter `FAULT` follows R32. -/
theorem fsticky_iff_of_not_entered {s t : State} (hf : t.fsticky = s.fsticky) (hp : t.phase = .fault → s.phase = .fault) :
    t.fsticky = true ↔ s.fsticky = true ∨ (s.phase ≠ .fault ∧ t.phase = .fault) := by
  rw [hf]
  exact ⟨Or.inl, fun h => h.resolve_right fun ⟨hs, ht⟩ => hs (hp ht)⟩

/-- Settles O14: only the engine's step, from `BUSY`, enters `FAULT`. -/
theorem fstickyRule : Obligations.FstickyRule := by
  intro s t h
  refine ⟨fun hn => by rw [step_unique h (step_reset hn)]; rfl, fun hres => ?_⟩
  cases step_kind h with
  | engine u hu _ hp hrun =>
    have hs : s.phase ≠ .fault := by simp [hp]
    simp only [ne_eq, hs, not_false_eq_true, true_and]
    rcases hu with rfl | rfl
    · exact engineStep_fsticky hrun
    · exact engineStep_fsticky (s := s.popped) hrun
  | cmdBusy w _ _ h => subst h; exact fsticky_iff_of_not_entered rfl id
  | ack _ _ h => subst h; exact fsticky_iff_of_not_entered rfl (by simp)
  | cmdFault w _ _ _ h => subst h; exact fsticky_iff_of_not_entered rfl id
  | accept w _ _ _ h => subst h; exact fsticky_iff_of_not_entered rfl (by simp)
  | oprBusy k v _ _ h => subst h; exact fsticky_iff_of_not_entered rfl id
  | opr k v _ _ h => subst h; exact fsticky_iff_of_not_entered rfl id
  | reset hn _ => exact absurd hn hres
  | poke a bs _ _ _ h => subst h; exact fsticky_iff_of_not_entered rfl id
  | quiet _ _ _ _ hq => obtain ⟨ag, se, rfl⟩ := hq; exact fsticky_iff_of_not_entered rfl id

/-! ### The registers and `MEM` as the host sees them (R23, R36, R39, R42) -/

/-- Settles O15. -/
theorem operandRegistersChangeOnlyByHost : Obligations.OperandRegistersChangeOnlyByHost := by
  refine ⟨readReg_x, fun s k v hn => ?_, fun s k v h12 h16 hn => ?_, fun s t h hopr hres => ?_⟩
  · rw [step_operand hn, writeOperand, apply_ite Host.Outcome.next, apply_ite Host.Outcome.next]; rfl
  · rw [step_writeReg hn]
    exact writeReg_discarded _ v (by omega) (by omega)
  · cases step_kind h with
    | engine u hu _ _ hrun =>
      rcases hu with rfl | rfl
      · exact engineStep_opr hrun
      · exact engineStep_opr (s := s.popped) hrun
    | cmdBusy w _ _ h => subst h; rfl
    | ack _ _ h => subst h; rfl
    | cmdFault w _ _ _ h => subst h; rfl
    | accept w _ _ _ h => subst h; rfl
    | oprBusy k v hn _ _ => exact absurd ⟨k, v, hn⟩ hopr
    | opr k v hn _ _ => exact absurd ⟨k, v, hn⟩ hopr
    | reset hn _ => exact absurd hn hres
    | poke a bs _ _ _ h => subst h; rfl
    | quiet _ _ _ _ hq => obtain ⟨ag, se, rfl⟩ := hq; rfl

/-- Settles O16: one lemma for each half of the map, the fields of `STATUS`, and the offsets that are not written. -/
theorem registerMap : Obligations.RegisterMap := by
  intro s
  obtain ⟨hstate, hshort, hovr, hsticky, hzero⟩ := statusWord_fields s
  refine ⟨readReg_x s, rfl, rfl, rfl, rfl, rfl, rfl, rfl, rfl, hstate, hshort, hovr, hsticky, hzero,
    fun off h => ?_, fun v off h => ?_⟩
  · exact ⟨readReg_unmapped s h, fun v => writeReg_discarded s v (by omega) (by omega)⟩
  · simp only [List.mem_cons, List.not_mem_nil, or_false] at h
    exact writeReg_discarded s v (by omega) (by omega)

/-- A host access to `MEM` inside it and outside `BUSY` takes effect (R39, R42). -/
theorem hostMem_ok {s : State} {a n : Nat} {access : State → State} (hp : s.phase ≠ .busy) (hm : a + n ≤ s.cfg.memSize) :
    hostMem a n s access = .next (access s) := by
  rw [hostMem, if_neg hp, if_neg (by omega)]

theorem hostMem_busy {s : State} {a n : Nat} {access : State → State} (hp : s.phase = .busy) :
    hostMem a n s access = .refused .hostMemWhileBusy := by
  rw [hostMem, if_pos hp]

theorem hostMem_beyond {s : State} {a n : Nat} {access : State → State} (hp : s.phase ≠ .busy) (hm : a + n > s.cfg.memSize) :
    hostMem a n s access = .refused .noSuchAddress := by
  rw [hostMem, if_neg hp, if_pos hm]

theorem step_poke {s : State} {a : Nat} {bs : List Byte} (h : s.agenda.head? = some (.poke a bs)) :
    step s = hostMem a bs.length s.popped fun s => s.storeBytes a bs :=
  step_head h

theorem step_peek {s : State} {a n : Nat} (h : s.agenda.head? = some (.peek a n)) :
    step s = hostMem a n s.popped fun s => { s with seen := .mem a (s.bytesAt a n) } :=
  step_head h

/-- Settles O17: both accesses are `hostMem`, which takes effect or refuses; what a `POKE` stores is what the bytes then
read as. -/
theorem hostMemoryAccess : Obligations.HostMemoryAccess := by
  intro s a bytes n
  refine ⟨fun h hp hm => ?_, fun h hp hm => ?_, fun h hp => ?_, fun h hp hm => ?_, fun h hp hm => ?_⟩
  · refine ⟨_, by rw [step_poke h, hostMem_ok (s := s.popped) hp hm], fun j hj => ?_, fun k hk => ?_, rfl⟩
    · exact (byteAt_storeBytes_inside s.popped a bytes j hj).trans (List.getD_eq_getElem _ _ hj).symm
    · exact byteAt_storeBytes_outside s.popped a bytes k (hk (a, bytes.length) (by simp))
  · rw [step_peek h, hostMem_ok (s := s.popped) hp hm]; rfl
  · rcases h with h | h
    · rw [step_poke h, hostMem_busy (s := s.popped) hp]
    · rw [step_peek h, hostMem_busy (s := s.popped) hp]
  · rw [step_poke h, hostMem_beyond (s := s.popped) hp hm]
  · rw [step_peek h, hostMem_beyond (s := s.popped) hp hm]

/-! ### Reset (R45, R280) -/

/-- The registers that a reset clears, as the host reads them. -/
theorem hardReset_x (s : State) (k : Fin 16) : (hardReset s).x k = 0 := by
  unfold State.x
  split <;> simp

theorem hardReset_statusWord (s : State) : (hardReset s).statusWord = 0 := by
  show State.reset.statusWord = 0
  decide

/-- Nothing has written a byte since the reset, so each reads as the free byte of its new epoch (log 1). -/
theorem hardReset_byteAt (s : State) (a : Nat) : (hardReset s).byteAt a = Config.resetByte (s.memEpoch + 1) a := rfl

/-- Settles O10. -/
theorem resetLeaves : Obligations.ResetLeaves := by
  refine ⟨hardReset_x State.reset, rfl, hardReset_statusWord State.reset, rfl, rfl, rfl, rfl, rfl, fun s hn => ?_⟩
  exact ⟨_, step_reset hn, hardReset_x _, rfl, hardReset_statusWord _, rfl, rfl, rfl, rfl, rfl, rfl, rfl, hardReset_byteAt _⟩

/-- Settles O18: the default configuration is legal, no byte of `MEM` is listed, and `IDLE` promises only an empty
fault record. -/
theorem invAtReset : Obligations.InvAtReset :=
  ⟨by decide, reset_mem_wf, by simp [State.reset], by simp [State.reset], fun _ => ⟨rfl, rfl, rfl, rfl⟩,
    by simp [State.reset]⟩

end Sys2Proof.Machine

end

/-! ## The frame of every command

A rule's output goes to the `OUT` regions of the table of R57 and fits them (`ruleOf_keeps`), so an address outside all of them is
outside every store that the command ends with. -/

section

namespace Sys2Proof.Machine

/-- The address lies in no `OUT` region of the command (R57). -/
def OutsideOut (i : Instr) (s : State) (a : Nat) : Prop :=
  ∀ r ∈ (rolesOf i).out, a < s.base r ∨ s.base r + s.len r ≤ a

theorem unchangedOutside_out_iff (i : Instr) (s t : State) :
    UnchangedOutside s t ((rolesOf i).out.map fun r => (s.base r, s.len r)) ↔ ∀ a, OutsideOut i s a → t.byteAt a = s.byteAt a := by
  simp [UnchangedOutside, OutsideOut]

/-- Storing output that fits its region, and is empty where that is not an `OUT` region, leaves every byte outside the `OUT` regions. -/
theorem byteAt_storeOut_outside {i : Instr} {s : State} {a : Nat} (ha : OutsideOut i s a) (s' : State) {r : Region} {bs : List Byte}
    (hlen : bs.length ≤ s.len r) (ho : r ∉ (rolesOf i).out → bs = []) :
    (s'.storeBytes (s.base r) bs).byteAt a = s'.byteAt a := by
  by_cases hr : r ∈ (rolesOf i).out
  · have := ha r hr
    exact byteAt_storeBytes_outside s' _ bs a (by omega)
  · rw [ho hr]; rfl

/-- Whatever verdict a command's rule may answer, the state it leaves differs in `MEM` inside the `OUT` regions only. -/
theorem conclude_outside {i : Instr} {s : State} {v : Verdict} (hk : v.keeps i s) {a : Nat} (ha : OutsideOut i s a) :
    (conclude v s).byteAt a = s.byteAt a := by
  cases v with
  | done r0 r1 r2 r3 short out outAux =>
    obtain ⟨hlen, hlenAux, hdst, haux, -⟩ := hk
    calc (conclude (.done r0 r1 r2 r3 short out outAux) s).byteAt a
      _ = ((s.storeBytes s.dstBase out).storeBytes s.auxBase outAux).byteAt a := byteAt_finish ..
      _ = (s.storeBytes s.dstBase out).byteAt a := byteAt_storeOut_outside (r := .aux) ha _ hlenAux haux
      _ = s.byteAt a := byteAt_storeOut_outside (r := .dst) ha _ hlen hdst
  | preFault e i0 i1 i2 => exact byteAt_takeFault ..
  | midFault e i0 i1 i2 n =>
    obtain ⟨-, hn, -, ho⟩ := hk
    have hdst : a < s.dstBase ∨ s.dstBase + s.dstLen ≤ a := ha .dst ho
    calc (conclude (.midFault e i0 i1 i2 n) s).byteAt a
      _ = (scrambleDst n s).byteAt a := byteAt_takeFault ..
      _ = s.byteAt a := byteAt_scrambleDst_outside n s a (by omega)

theorem exec_outside {i : Instr} {s t : State} (hi : i ≠ .ack) (h : exec i s = .next t) {a : Nat} (ha : OutsideOut i s a) :
    t.byteAt a = s.byteAt a := by
  rcases exec_cases i s hi with ⟨-, h'⟩ | ⟨i0, i1, i2, -, -, h'⟩ | ⟨-, -, h'⟩ <;> rw [h'] at h <;> cases h
  · exact byteAt_takeFault ..
  · exact byteAt_takeFault ..
  · exact conclude_outside (ruleOf_keeps i s) ha

/-- Settles O20. -/
theorem engineStepFrame : Obligations.EngineStepFrame := by
  intro i s hi
  obtain ⟨t, ht⟩ := exec_next i s
  exact ⟨t, ht, exec_phase hi ht, exec_frame hi ht, (unchangedOutside_out_iff i s t).2 fun _ => exec_outside hi ht⟩

end Sys2Proof.Machine

end

/-! ## The region check, test by test

Each test of R58 is one conditional that answers its fault or nothing, and `Option.or` goes on to the next test after nothing. -/

section

namespace Sys2Proof.Machine

theorem outOfMem_eq_ite (ro : Roles) (s : State) (r : Region) :
    outOfMem ro s r =
      if ro.uses r = true ∧ s.base r + s.len r > s.cfg.memSize then some ((r.num <<< 4) ||| r.num, s.base r, s.len r) else none := by
  simp only [outOfMem, Bool.and_eq_true, decide_eq_true_eq]

theorem overlap_eq_ite (ro : Roles) (s : State) (a b : Region) :
    overlap ro s a b =
      if ro.uses a = true ∧ ro.uses b = true ∧ (a ∈ ro.out ∨ b ∈ ro.out) ∧ s.len a > 0 ∧ s.len b > 0 ∧
          s.base a < s.base b + s.len b ∧ s.base b < s.base a + s.len a then
        some (0x100 ||| (a.num <<< 4) ||| b.num, s.base b, s.len b)
      else none := by
  simp only [overlap, Bool.and_eq_true, Bool.or_eq_true, decide_eq_true_eq, and_assoc]

/-- A test that answers nothing leaves the answer to the next one. -/
theorem ite_some_none_or {α : Type} (c : Prop) [Decidable c] (x : α) (y : Option α) :
    (if c then some x else none).or y = if c then some x else y := by
  split <;> rfl

/-- A command whose region check fails uses a region, so it is not `ACK`. -/
theorem not_ack_of_regionFault {i : Instr} {s : State} {p : Nat × Nat × Nat} (h : regionFault (rolesOf i) s = some p) : i ≠ .ack := by
  rintro rfl
  rw [show rolesOf .ack = ⟨[], []⟩ from rfl, regionFault_no_roles] at h
  cases h

/-- Settles O26: the six tests in their order, and the complete step makes them before it looks at the rule. -/
theorem regionCheckFirst : Obligations.RegionCheckFirst := by
  refine ⟨fun ro s => ?_, fun i s i0 i1 i2 hw h => ?_⟩
  · simp only [regionFault, outOfMem_eq_ite, overlap_eq_ite, ite_some_none_or]
    rfl
  · refine ⟨_, ?_, takeFault_preFaulted .region i0 i1 i2 s⟩
    rw [exec_wf i s hw (not_ack_of_regionFault h), complete_of_region_fault h]

end Sys2Proof.Machine

end

/-! ## A chunk that was written is found again

The header of a chunk (R62) reads back as the identifier word and the payload length, whatever reads it (`ReadsChunk`);
`CHK.FIND` and `CHK.LEN` then accept the chunk at offset 0. -/

section

namespace Sys2Proof.Machine

/-! ### Numbers stored and read back (R10) -/

/-- Four bytes that are the bytes of a word, lowest first, read as the word. -/
theorem le32At_of_word {r : Nat → Byte} {j : Nat} {w : Word} (h0 : r j = w.extractLsb' 0 8) (h1 : r (j + 1) = w.extractLsb' 8 8)
    (h2 : r (j + 2) = w.extractLsb' 16 8) (h3 : r (j + 3) = w.extractLsb' 24 8) : le32At r j = w.toNat := by
  have hw := w.isLt
  simp only [le32At, h0, h1, h2, h3, BitVec.extractLsb'_toNat, Nat.shiftRight_eq_div_pow]
  omega

/-- The bytes that `le32` stores read back as the number. -/
theorem le32At_of_le32Bytes {r : Nat → Byte} {j v : Nat} (hv : v < 2 ^ 32)
    (h : ∀ k (hk : k < (le32Bytes v).length), r (j + k) = (le32Bytes v)[k]) : le32At r j = v := by
  have h0 : r j = BitVec.ofNat 8 (v % 256) := h 0 (by simp [le32Bytes])
  have h1 : r (j + 1) = BitVec.ofNat 8 (v / 256 % 256) := h 1 (by simp [le32Bytes])
  have h2 : r (j + 2) = BitVec.ofNat 8 (v / 65536 % 256) := h 2 (by simp [le32Bytes])
  have h3 : r (j + 3) = BitVec.ofNat 8 (v / 16777216 % 256) := h 3 (by simp [le32Bytes])
  simp only [le32At, h0, h1, h2, h3, BitVec.toNat_ofNat]
  omega

/-! ### The identifier word (R120) -/

/-- A byte of a word is below `0x80` when its top bit is clear. -/
theorem extractByte_lt_of_top_clear {w : Word} (k : Nat) (h : w.getLsbD (k + 7) = false) : (w.extractLsb' k 8).toNat < 0x80 := by
  have hmsb : (w.extractLsb' k 8).msb = false := by simp [BitVec.msb_eq_getLsbD_last, h]
  have := BitVec.msb_eq_false_iff_two_mul_lt.1 hmsb
  omega

/-! ### A chunk in memory (R62) -/

/-- The bytes from offset 0 of a reader are the chunk with this identifier word and payload (R62). -/
def ReadsChunk (r : Nat → Byte) (idw : Word) (payload : List Byte) : Prop :=
  ∀ j (h : j < (chunkBytes idw payload).length), r j = (chunkBytes idw payload)[j]

section

variable {r : Nat → Byte} {idw : Word} {payload : List Byte}

theorem ReadsChunk.ident (h : ReadsChunk r idw payload) :
    r 0 = idw.extractLsb' 0 8 ∧ r 1 = idw.extractLsb' 8 8 ∧ r 2 = idw.extractLsb' 16 8 ∧ r 3 = 0x3A :=
  ⟨h 0 (by simp [chunkBytes]), h 1 (by simp [chunkBytes]), h 2 (by simp [chunkBytes]), h 3 (by simp [chunkBytes])⟩

theorem ReadsChunk.identWord (h : ReadsChunk r idw payload) (hid : r120Ok idw) : le32At r 0 = idw.toNat := by
  obtain ⟨h0, h1, h2, h3⟩ := h.ident
  obtain ⟨hsep, -⟩ := hid
  exact le32At_of_word h0 h1 h2 (h3.trans hsep.symm)

theorem ReadsChunk.identAscii (h : ReadsChunk r idw payload) (hid : r120Ok idw) :
    (r 0).toNat < 0x80 ∧ (r 1).toNat < 0x80 ∧ (r 2).toNat < 0x80 := by
  obtain ⟨h0, h1, h2, -⟩ := h.ident
  obtain ⟨-, htop0, htop1, htop2⟩ := hid
  rw [h0, h1, h2]
  exact ⟨extractByte_lt_of_top_clear 0 htop0, extractByte_lt_of_top_clear 8 htop1, extractByte_lt_of_top_clear 16 htop2⟩

theorem ReadsChunk.lengthField (h : ReadsChunk r idw payload) (hn : payload.length < 2 ^ 32) : le32At r 4 = payload.length := by
  refine le32At_of_le32Bytes hn fun k hk => ?_
  have hlen : k < 4 := hk
  rw [h (4 + k) (by rw [chunkBytes_length]; omega)]
  simp only [chunkBytes, List.append_assoc]
  rw [List.getElem_append_right (by simp)]
  simp [List.getElem_append_left, hk]

end

/-! ### Looking for the chunk -/

section

variable {s : State} {idw : Word} {payload : List Byte}

/-- `read_length(0)` at the chunk (R121): the payload's length, flag 0. -/
theorem withLength_of_readsChunk (h : ReadsChunk s.src idw payload) (hn : payload.length < 2 ^ 31)
    (hs : 8 + payload.length ≤ s.srcLen) (k : Nat → Nat → Verdict) : withLength s 0 k = k payload.length 0 := by
  have hfield : le32At s.src (0 + 4) = payload.length := h.lengthField (by omega)
  have hlen : chunkLen payload.length = payload.length := Nat.mod_eq_of_lt hn
  have hflag : chunkFlag payload.length = 0 := Nat.div_eq_of_lt hn
  simp only [withLength, hfield, hlen, hflag]
  rw [if_neg (by omega)]

theorem chkFindRule_of_readsChunk (h : ReadsChunk s.src s.opr[9] payload) (hid : r120Ok s.opr[9]) (hn : payload.length < 2 ^ 31)
    (hs : 8 + payload.length ≤ s.srcLen) : chkFindRule s = .done 1 0 payload.length 0 none [] [] := by
  have hok : idwOk s.opr[9] = true := (idwOk_iff _).2 hid
  have hword : le32At s.src 0 = s.arg := h.identWord hid
  simp only [chkFindRule, hok, chkScan, withLength_of_readsChunk h hn hs, hword]
  rw [if_neg (by simp), if_neg (by omega), if_pos trivial]

theorem chkLenRule_of_readsChunk (h : ReadsChunk s.src idw payload) (hid : r120Ok idw) (harg : s.arg = 0)
    (hn : payload.length < 2 ^ 31) (hs : 8 + payload.length ≤ s.srcLen) :
    chkLenRule s = .done 1 0 payload.length 0 none [] [] := by
  obtain ⟨h0, h1, h2⟩ := h.identAscii hid
  obtain ⟨-, -, -, hsep⟩ := h.ident
  have hascii : ¬ ((s.src 0).toNat ≥ 0x80 ∨ (s.src (0 + 1)).toNat ≥ 0x80 ∨ (s.src (0 + 2)).toNat ≥ 0x80 ∨ s.src (0 + 3) ≠ 0x3A) := by
    simpa [hsep] using And.intro h0 (And.intro h1 h2)
  simp only [chkLenRule, harg, withLength_of_readsChunk h hn hs]
  rw [if_neg (by omega), if_neg hascii]

/-- A command that answers `(1, 0, n, 0)` and writes nothing completes with these results. -/
theorem exec_found {i : Instr} {n : Nat} (hw : i.wf = true) (ha : i ≠ .ack) (hr : regionFault (rolesOf i) s = none)
    (hn : n < 2 ^ 31) (h : ruleOf i s = .done 1 0 n 0 none [] []) : ∃ v, exec i s = .next v ∧ Completed s v 1 0 n 0 := by
  obtain ⟨v, hv, hc, -⟩ := exec_done_nothing hw ha hr h (by decide) (by decide) (by omega) (by decide)
  exact ⟨v, hv, hc⟩

end

/-! ### Writing the chunk -/

/-- Everything the rule of `CHK.WRAP` can answer (R126). -/
theorem chkWrapRule_cases (s : State) :
    (∃ e i0 i1 i2, chkWrapRule s = .preFault e i0 i1 i2) ∨
    (r120Ok s.opr[9] ∧ s.srcLen < 2 ^ 31 ∧ 8 + s.srcLen ≤ s.dstLen ∧
      chkWrapRule s = .done (8 + s.srcLen) 0 0 0 none (chunkBytes s.opr[9] (sliceOf s.src 0 s.srcLen)) []) := by
  unfold chkWrapRule
  split
  · exact Or.inl ⟨_, _, _, _, rfl⟩
  · next hid =>
    simp only
    split
    · exact Or.inl ⟨_, _, _, _, rfl⟩
    · split
      · exact Or.inl ⟨_, _, _, _, rfl⟩
      · exact Or.inr ⟨(idwOk_iff _).1 (by simpa using hid), by omega, by omega, rfl⟩

/-- What a `CHK.WRAP` that completed checked, returned and wrote. -/
theorem exec_chkWrap_done {s t : State} (hr : regionFault (rolesOf .chkWrap) s = none) (h : exec .chkWrap s = .next t)
    (hd : t.phase = .done) :
    r120Ok s.opr[9] ∧ s.srcLen < 2 ^ 31 ∧ t.res[0].toNat = 8 + s.srcLen ∧
      ReadsChunk (fun j => t.byteAt (s.dstBase + j)) s.opr[9] (sliceOf s.src 0 s.srcLen) := by
  rcases chkWrapRule_cases s with ⟨e, i0, i1, i2, hv⟩ | ⟨hid, hn, -, hv⟩
  · rw [exec_of_region_ok rfl (by simp) hr, show ruleOf .chkWrap s = _ from hv] at h
    cases h; cases hd
  · obtain ⟨t', h', ⟨-, -, ⟨hres, -⟩, -⟩, -, hbytes, -⟩ :=
      exec_done rfl (by simp) hr hv (by omega) (by decide) (by decide) (by decide)
    rw [h] at h'; cases h'
    exact ⟨hid, hn, hres, hbytes⟩

/-- Settles O46: the second command reads the chunk that the first one wrote, since `SRC` lies where `DST` lay. -/
theorem wrappedChunkIsFound : Obligations.WrappedChunkIsFound := by
  intro s t u hr h hd hmem hbase hlen hru
  obtain ⟨hid, hn, hres, hchunk⟩ := exec_chkWrap_done hr h hd
  have hread : ReadsChunk u.src s.opr[9] (sliceOf s.src 0 s.srcLen) := fun j hj => by
    rw [← hchunk j hj, State.src, hbase, hmem]
  have hpayload : (sliceOf s.src 0 s.srcLen).length = s.srcLen := sliceOf_length ..
  have hfit : 8 + (sliceOf s.src 0 s.srcLen).length ≤ u.srcLen := by omega
  refine ⟨fun hsame => ?_, fun hzero => ?_⟩
  · rw [← hsame] at hread hid
    have hrule := chkFindRule_of_readsChunk hread hid (by omega) hfit
    exact exec_found rfl (by simp) hru hn (hpayload ▸ hrule)
  · have harg : u.arg = 0 := by simp [State.arg, hzero]
    have hrule := chkLenRule_of_readsChunk hread hid harg (by omega) hfit
    exact exec_found rfl (by simp) hru hn (hpayload ▸ hrule)

end Sys2Proof.Machine

end

/-! ## The command word: decoding and encoding are inverse

What `decode` accepts is said once, over the three fields and the zero bits (`decode_ok_iff`). The 31 legal words are the encodings of
the 31 well-formed commands (`legalCommands`), so a claim about every legal word is a claim about a list. -/

section

namespace Sys2Proof.Machine

/-! ### What decodes (R92, R94, R96, R98) -/

theorem formatC_ne_formatP {op : BitVec 8} {i : Instr} (h : formatC op = some i) : op ≠ 0x30 ∧ op ≠ 0x31 := by
  constructor <;> rintro rfl <;> cases h

/-- Everything the decoder accepts: no bit above 12, and a format-P command with a legal depth or a format-C command with clean
fields. -/
theorem decode_ok_iff (w : Word) (i : Instr) :
    decode w = .ok i ↔ zeroField w = 0 ∧
      ((opField w = 0x30 ∧ legalBpp (bppField w) = true ∧ i = .pixUnpack (bppField w) (beField w)) ∨
        (opField w = 0x31 ∧ legalBpp (bppField w) = true ∧ i = .pixPack (bppField w) (beField w)) ∨
        (formatC (opField w) = some i ∧ bppField w = 0 ∧ beField w = false)) := by
  constructor
  · intro h
    unfold decode at h
    split at h
    · cases h
    next hzero =>
    refine ⟨not_not.1 hzero, ?_⟩
    split at h
    · next hop =>
      split at h
      · next hlegal => cases h; exact Or.inl ⟨hop, hlegal, rfl⟩
      · cases h
    split at h
    · next hop =>
      split at h
      · next hlegal => cases h; exact Or.inr (Or.inl ⟨hop, hlegal, rfl⟩)
      · cases h
    split at h
    · cases h
    · next hc =>
      split at h
      · next hclean => cases h; exact Or.inr (Or.inr ⟨hc, hclean⟩)
      · cases h
  · rintro ⟨hzero, ⟨hop, hlegal, rfl⟩ | ⟨hop, hlegal, rfl⟩ | ⟨hc, hclean⟩⟩
    · simp [decode, hzero, hop, hlegal]
    · simp [decode, hzero, hop, hlegal]
    · obtain ⟨hunpack, hpack⟩ := formatC_ne_formatP hc
      rw [decode, if_neg (not_not.2 hzero), if_neg hunpack, if_neg hpack]
      simp only [hc, if_pos hclean]

/-- A word that decodes is the encoding of its command, which is well formed. -/
theorem wf_and_encode_of_decode {w : Word} {i : Instr} (h : decode w = .ok i) : i.wf = true ∧ encode i = w := by
  obtain ⟨hzero, hcase⟩ := (decode_ok_iff w i).1 h
  have hw := word_eq_formatP w hzero
  rcases hcase with ⟨hop, hlegal, rfl⟩ | ⟨hop, hlegal, rfl⟩ | ⟨hc, hbpp, hbe⟩
  · rw [hop] at hw; exact ⟨hlegal, hw.symm⟩
  · rw [hop] at hw; exact ⟨hlegal, hw.symm⟩
  · obtain ⟨hwf, henc⟩ := formatC_word hc
    rw [hbpp, hbe] at hw
    exact ⟨hwf, henc.trans hw.symm⟩

/-- The word of a format-P command with a legal depth decodes to it. -/
theorem decode_formatP {bpp : BitVec 4} (hlegal : legalBpp bpp = true) (be : Bool) :
    decode (formatP 0x30 bpp be) = .ok (.pixUnpack bpp be) ∧ decode (formatP 0x31 bpp be) = .ok (.pixPack bpp be) := by
  constructor
  · obtain ⟨hop, hbpp, hbe, hzero⟩ := formatP_fields 0x30 bpp be
    exact (decode_ok_iff _ _).2 ⟨hzero, Or.inl ⟨hop, by rwa [hbpp], by rw [hbpp, hbe]⟩⟩
  · obtain ⟨hop, hbpp, hbe, hzero⟩ := formatP_fields 0x31 bpp be
    exact (decode_ok_iff _ _).2 ⟨hzero, Or.inr (Or.inl ⟨hop, by rwa [hbpp], by rw [hbpp, hbe]⟩)⟩

/-- A well-formed command is decoded from its encoding. -/
theorem decode_encode {i : Instr} (hwf : i.wf = true) : decode (encode i) = .ok i := by
  cases i with
  | pixUnpack bpp be => exact (decode_formatP hwf be).1
  | pixPack bpp be => exact (decode_formatP hwf be).2
  | _ => rfl

/-- Settles O1: the decoder accepts encodings of well-formed commands only, and decodes each to the command it came from. -/
theorem decodeIffEncode : Obligations.DecodeIffEncode := by
  intro w i
  refine ⟨wf_and_encode_of_decode, ?_⟩
  rintro ⟨hwf, rfl⟩
  exact decode_encode hwf

/-! ### The legal words (R92, R96) -/

/-- The legal operands of a format-P command: the four depths with each bit order (R94). -/
def formatPOperands : List (BitVec 4 × Bool) :=
  [(1, false), (2, false), (4, false), (8, false), (1, true), (2, true), (4, true), (8, true)]

/-- The 31 well-formed commands, in the order in which R92 lists their words. -/
def legalCommands : List Instr :=
  [.nop, .ack, .rleDec, .lzwDec, .scnDec, .bmkDec, .cblkDec, .chkFind, .chkLen, .chkWrap, .infGet, .pixMerge, .pixSplit, .tileDedup,
    .tileExpand] ++
  formatPOperands.map (fun p => .pixUnpack p.1 p.2) ++ formatPOperands.map (fun p => .pixPack p.1 p.2)

theorem mem_formatPOperands {bpp : BitVec 4} (hlegal : legalBpp bpp = true) (be : Bool) : (bpp, be) ∈ formatPOperands := by
  rcases legalBpp_cases hlegal with rfl | rfl | rfl | rfl <;> cases be <;> decide

theorem mem_legalCommands_iff (i : Instr) : i ∈ legalCommands ↔ i.wf = true := by
  constructor
  · have hall : ∀ j ∈ legalCommands, j.wf = true := by decide
    exact hall i
  · intro hwf
    cases i with
    | pixUnpack bpp be =>
      exact List.mem_append_left _ (List.mem_append_right _ (List.mem_map_of_mem (mem_formatPOperands hwf be)))
    | pixPack bpp be => exact List.mem_append_right _ (List.mem_map_of_mem (mem_formatPOperands hwf be))
    | _ => decide

theorem legalWords_eq_map_encode : legalWords = legalCommands.map encode := by decide

/-- Settles O2: a word decodes when it is the encoding of a well-formed command, and the listed words are those encodings. -/
theorem legalWordsAreExactlyTheListed : Obligations.LegalWordsAreExactlyTheListed := by
  intro w
  calc (∃ i, decode w = .ok i)
    _ ↔ ∃ i, i.wf = true ∧ encode i = w := exists_congr (decodeIffEncode w)
    _ ↔ ∃ i ∈ legalCommands, encode i = w := by simp only [mem_legalCommands_iff]
    _ ↔ w ∈ legalWords := by rw [legalWords_eq_map_encode, List.mem_map]

/-- Settles O3, by evaluating the decoder on each word. -/
theorem sampleWordsDecode : Obligations.SampleWordsDecode :=
  ⟨rfl, rfl, rfl, rfl, rfl, rfl, rfl, rfl, rfl, rfl⟩

/-! ### The legality check in the engine's step (R97) -/

/-- The opcodes that the check of R97 lists: every allocated one but that of `ACK`. -/
def engineOps : List (BitVec 8) :=
  [0x00, 0x10, 0x11, 0x12, 0x13, 0x14, 0x20, 0x21, 0x22, 0x23, 0x30, 0x31, 0x32, 0x33, 0x40, 0x41]

/-- Each of them that is not of format P has a command of format C, and that is not `ACK`. -/
theorem formatC_of_mem_engineOps {op : BitVec 8} (h : op ∈ engineOps) (hP : ¬ (op = 0x30 ∨ op = 0x31)) :
    ∃ i, formatC op = some i ∧ i ≠ .ack := by
  have hall : ∀ o ∈ engineOps, ¬ (o = 0x30 ∨ o = 0x31) → (formatC o).isSome = true ∧ formatC o ≠ some .ack := by decide
  obtain ⟨hsome, hack⟩ := hall op h hP
  obtain ⟨i, hi⟩ := Option.isSome_iff_exists.1 hsome
  exact ⟨i, hi, fun hia => hack (hia ▸ hi)⟩

theorem legalBpp_of_mem {bpp : BitVec 4} (h : bpp ∈ [(1 : BitVec 4), 2, 4, 8]) : legalBpp bpp = true := by
  simpa [legalBpp, or_assoc] using h

/-- The words that pass the check of R97 are the words of the commands that the engine runs: all but `ACK` (log 10). -/
theorem not_r97Illegal_iff (w : Word) : ¬ r97Illegal w ↔ ∃ i, decode w = .ok i ∧ i ≠ .ack := by
  constructor
  · intro h
    obtain ⟨hhead, hfields⟩ := not_or.1 h
    obtain ⟨hzero, hop⟩ := not_or.1 hhead
    have hzero : zeroField w = 0 := not_not.1 hzero
    have hop : opField w ∈ engineOps := not_not.1 hop
    split_ifs at hfields with hP
    · have hlegal : legalBpp (bppField w) = true := legalBpp_of_mem (not_not.1 hfields)
      rcases hP with hP | hP
      · exact ⟨_, (decode_ok_iff w _).2 ⟨hzero, Or.inl ⟨hP, hlegal, rfl⟩⟩, by simp⟩
      · exact ⟨_, (decode_ok_iff w _).2 ⟨hzero, Or.inr (Or.inl ⟨hP, hlegal, rfl⟩)⟩, by simp⟩
    · obtain ⟨i, hc, hack⟩ := formatC_of_mem_engineOps hop hP
      obtain ⟨hbpp, hbe⟩ := not_or.1 hfields
      exact ⟨i, (decode_ok_iff w i).2 ⟨hzero, Or.inr (Or.inr ⟨hc, not_not.1 hbpp, Bool.eq_false_iff.2 hbe⟩)⟩, hack⟩
  · rintro ⟨i, hdec, hack⟩
    obtain ⟨hwf, rfl⟩ := wf_and_encode_of_decode hdec
    have hall : ∀ j ∈ legalCommands, j ≠ .ack → ¬ r97Illegal (encode j) := by decide
    exact hall i ((mem_legalCommands_iff i).2 hwf) hack

/-- A word that fails the check of R97 faults in the engine's step. -/
theorem engineStep_of_r97Illegal {s : State} (h : r97Illegal s.cmd) : engineStep s = .next (badCommand s.cmd s) := by
  rcases engineStep_cases s with hbad | ⟨i, hdec, hack, -⟩
  · exact hbad
  · exact absurd h ((not_r97Illegal_iff s.cmd).2 ⟨i, hdec, hack⟩)

/-- Fault information that is a register word is stored as it is (R34, R235). -/
theorem finfoWord_toNat (w : Word) : finfoWord w.toNat = w := by
  have hlt := w.isLt
  have hsat : sat32 w.toNat = w.toNat := min_eq_left (by omega)
  have hpos : ¬ (w.toNat : Int) < 0 := by omega
  rw [finfoWord, if_neg hpos, Int.toNat_natCast, hsat, BitVec.ofNat_toNat, BitVec.setWidth_eq]

theorem badCommand_preFaulted (w : Word) (s : State) : PreFaulted s (badCommand w s) .badCmd 0 0 w.toNat :=
  takeFault_preFaulted ..

/-- Settles O4: the engine's step of an empty agenda is the fault of a word that fails the check, and otherwise the command. -/
theorem illegalWordFaultsBadCmd : Obligations.IllegalWordFaultsBadCmd := by
  intro s hphase hagenda
  rw [step_engine hphase hagenda]
  constructor
  · intro h
    exact ⟨_, engineStep_of_r97Illegal h, badCommand_preFaulted s.cmd s, finfoWord_toNat s.cmd⟩
  · intro h
    obtain ⟨i, hdec, hack⟩ := (not_r97Illegal_iff s.cmd).1 h
    obtain ⟨hwf, -⟩ := wf_and_encode_of_decode hdec
    exact ⟨i, hdec, hwf, hack, engineStep_of_decode hdec hack⟩

/-- An ill-formed command faults with its word, and no byte of `MEM` changes (log 11). -/
theorem exec_not_wf_preFaulted {i : Instr} (hwf : i.wf = false) (s : State) :
    ∃ t, exec i s = .next t ∧ PreFaulted s t .badCmd 0 0 (encode i).toNat :=
  ⟨_, exec_not_wf i s hwf, badCommand_preFaulted ..⟩

/-- Settles O5: with an illegal depth neither command is well formed. -/
theorem illFormedBppFaultsBadCmd : Obligations.IllFormedBppFaultsBadCmd :=
  fun bpp be s hillegal =>
    ⟨exec_not_wf_preFaulted (i := .pixUnpack bpp be) hillegal s, exec_not_wf_preFaulted (i := .pixPack bpp be) hillegal s⟩

end Sys2Proof.Machine

end

/-! ## The chunk and table commands

What each rule answers is said once per outcome, in the order of its checks. For `CHK.FIND` the outcomes of the scan are collected in
`ScanVerdict`; the statements about it then need only that the visited offsets stand in a row (`Visited.end_le_of_lt`). -/

section

namespace Sys2Proof.Machine

section

variable {s : State} {o p : Nat}

/-! ### The length field (R62, R121) -/

theorem chunkLenAt_lt (s : State) (o : Nat) : s.chunkLenAt o < 2 ^ 31 := Nat.mod_lt _ (by decide)

theorem chunkFlagAt_lt (s : State) (o : Nat) : le32At s.src (o + 4) / 2 ^ 31 < 2 ^ 32 :=
  Nat.lt_of_le_of_lt (Nat.div_le_self ..) (le32At_lt ..)

theorem withLength_of_fits (h : o + 8 + s.chunkLenAt o ≤ s.srcLen) (k : Nat → Nat → Verdict) :
    withLength s o k = k (s.chunkLenAt o) (le32At s.src (o + 4) / 2 ^ 31) :=
  if_neg (Nat.not_lt.2 h)

theorem withLength_of_overruns (h : s.srcLen < o + 8 + s.chunkLenAt o) (k : Nat → Nat → Verdict) :
    withLength s o k = .preFault .chunkCorrupt o (o + 8 + s.chunkLenAt o : Nat) s.srcLen :=
  if_pos h

/-! ### The identifier word check of `CHK.FIND` and `CHK.WRAP` (R120) -/

theorem not_idwOk_iff (w : Word) : (!idwOk w) = true ↔ ¬ r120Ok w := by
  rw [← idwOk_iff, Bool.not_eq_true', Bool.eq_false_iff]

theorem chkFindRule_of_bad_ident (h : ¬ r120Ok s.opr[9]) : chkFindRule s = .preFault .param 9 0 s.arg :=
  if_pos ((not_idwOk_iff _).2 h)

theorem chkWrapRule_of_bad_ident (h : ¬ r120Ok s.opr[9]) : chkWrapRule s = .preFault .param 9 0 s.arg :=
  if_pos ((not_idwOk_iff _).2 h)

/-! ### The visited offsets (R122, R123) -/

theorem Visited.le_srcLen (h : Visited s o) : o ≤ s.srcLen := by
  cases h with
  | start => exact Nat.zero_le _
  | next q _ _ hfits => exact hfits

theorem Visited.lt_word (h : Visited s o) : o < 2 ^ 32 := Nat.lt_of_le_of_lt h.le_srcLen (srcLen_lt s)

/-- Visited chunks do not overlap: a visited offset beyond another one lies at or beyond the end of its chunk. -/
theorem Visited.end_le_of_lt (hp : Visited s p) (ho : Visited s o) (h : o < p) : o + 8 + s.chunkLenAt o ≤ p := by
  induction p using Nat.strong_induction_on generalizing o with
  | _ p ih =>
    cases hp with
    | start => omega
    | next q hq _ _ =>
      rcases Nat.lt_trichotomy o q with hlt | rfl | hgt
      · have := ih q (by omega) hq ho hlt
        omega
      · exact Nat.le_refl _
      · have := ih o h ho hq hgt
        omega

/-- No header is visited beyond one that overruns the buffer. -/
theorem Visited.le_of_overruns (hp : Visited s p) (ho : Visited s o) (h : s.srcLen < o + 8 + s.chunkLenAt o) : p ≤ o := by
  by_contra hlt
  have hend := hp.end_le_of_lt ho (by omega)
  have hin := hp.le_srcLen
  omega

/-- The scan comes to the offset `o`: it is visited, and no visited header before it has the identifier word `ARG`. -/
def ScanReaches (s : State) (o : Nat) : Prop :=
  Visited s o ∧ ∀ p, Visited s p → p < o → le32At s.src p ≠ s.arg

theorem scanReaches_zero (s : State) : ScanReaches s 0 := ⟨.start, fun p _ hp => absurd hp (Nat.not_lt_zero p)⟩

/-- A header that fits and does not match sends the scan on to the end of its chunk. -/
theorem ScanReaches.next (h : ScanReaches s o) (hroom : o + 8 ≤ s.srcLen) (hfits : o + 8 + s.chunkLenAt o ≤ s.srcLen)
    (hne : le32At s.src o ≠ s.arg) : ScanReaches s (o + 8 + s.chunkLenAt o) := by
  obtain ⟨ho, hbefore⟩ := h
  refine ⟨.next o ho hroom hfits, fun p hp hlt => ?_⟩
  rcases Nat.lt_trichotomy p o with hpo | rfl | hop
  · exact hbefore p hp hpo
  · exact hne
  · have := hp.end_le_of_lt ho hop
    omega

/-! ### `CHK.FIND` (R122) -/

/-- The three ways a scan of chunk headers ends: at a header that overruns the buffer, at the first match, or where fewer than
8 bytes are left. -/
inductive ScanVerdict (s : State) : Verdict → Prop where
  | corrupt (o : Nat) (hreach : ScanReaches s o) (hroom : o + 8 ≤ s.srcLen) (hover : s.srcLen < o + 8 + s.chunkLenAt o) :
      ScanVerdict s (.preFault .chunkCorrupt o (o + 8 + s.chunkLenAt o : Nat) s.srcLen)
  | found (o : Nat) (hreach : ScanReaches s o) (hfits : o + 8 + s.chunkLenAt o ≤ s.srcLen) (hmatch : le32At s.src o = s.arg) :
      ScanVerdict s (.done 1 o (s.chunkLenAt o) (le32At s.src (o + 4) / 2 ^ 31) none [] [])
  | stopped (o : Nat) (hreach : ScanReaches s o) (hend : s.srcLen < o + 8) : ScanVerdict s (.done 0 o 0 0 none [] [])

/-- A scan with enough rounds left for the bytes beyond `o` ends in one of these ways. -/
theorem chkScan_verdict {fuel : Nat} (hreach : ScanReaches s o) (hfuel : s.srcLen < o + 8 * fuel) :
    ScanVerdict s (chkScan s fuel o) := by
  induction fuel generalizing o with
  | zero => exact .stopped o hreach (by omega)
  | succ fuel ih =>
    rw [chkScan]
    split
    · next hend => exact .stopped o hreach hend
    · next hroom =>
      rcases Nat.lt_or_ge s.srcLen (o + 8 + s.chunkLenAt o) with hover | hfits
      · rw [withLength_of_overruns hover]
        exact .corrupt o hreach (by omega) hover
      · rw [withLength_of_fits hfits]
        split
        · next hmatch => exact .found o hreach hfits hmatch
        · next hne => exact ih (hreach.next (by omega) hfits hne) (by omega)

theorem chkFindRule_verdict (hid : r120Ok s.opr[9]) : ScanVerdict s (chkFindRule s) := by
  rw [chkFindRule, if_neg fun hbad => (not_idwOk_iff _).1 hbad hid]
  exact chkScan_verdict (scanReaches_zero s) (by omega)

/-- At most one visited header overruns the buffer, so the scan can end at no other offset (R121). -/
theorem chkFindRule_of_overruns (hid : r120Ok s.opr[9]) (hreach : ScanReaches s o) (hroom : o + 8 ≤ s.srcLen)
    (hover : s.srcLen < o + 8 + s.chunkLenAt o) :
    chkFindRule s = .preFault .chunkCorrupt o (o + 8 + s.chunkLenAt o : Nat) s.srcLen := by
  obtain ⟨ho, hbefore⟩ := hreach
  have hv := chkFindRule_verdict hid
  generalize chkFindRule s = v at hv ⊢
  cases hv with
  | corrupt q hreach _ hqover =>
    obtain ⟨hq, -⟩ := hreach
    obtain rfl : q = o := Nat.le_antisymm (hq.le_of_overruns ho hover) (ho.le_of_overruns hq hqover)
    rfl
  | found q hreach hfits hmatch =>
    obtain ⟨hq, -⟩ := hreach
    rcases Nat.lt_or_eq_of_le (hq.le_of_overruns ho hover) with hlt | rfl
    · exact absurd hmatch (hbefore q hq hlt)
    · omega
  | stopped q hreach hend =>
    obtain ⟨hq, -⟩ := hreach
    have := hq.le_of_overruns ho hover
    omega

end

/-- Settles O42: the scan ends in one of the ways of `ScanVerdict`, and no reached header overruns the buffer. -/
theorem chkFindFindsFirst : Obligations.ChkFindFindsFirst := by
  intro s hr hid hfit
  have hv := chkFindRule_verdict hid
  generalize hrule : chkFindRule s = v at hv
  cases hv with
  | corrupt o hreach hroom hover =>
    obtain ⟨ho, hbefore⟩ := hreach
    exact absurd (hfit o ho hroom hbefore) (Nat.not_le.2 hover)
  | found o hreach hfits hmatch =>
    obtain ⟨ho, hbefore⟩ := hreach
    have hchunk := chunkLenAt_lt s o
    obtain ⟨t, ht, hc, hmem, hshort⟩ :=
      exec_done_nothing (i := .chkFind) rfl (by simp) hr hrule (by decide) ho.lt_word (by omega) (chunkFlagAt_lt s o)
    exact ⟨t, ht, hmem, hshort, Or.inl ⟨o, ho, by omega, hmatch, hbefore, hc⟩⟩
  | stopped o hreach hend =>
    obtain ⟨ho, hbefore⟩ := hreach
    obtain ⟨t, ht, hc, hmem, hshort⟩ :=
      exec_done_nothing (i := .chkFind) rfl (by simp) hr hrule (by decide) ho.lt_word (by decide) (by decide)
    exact ⟨t, ht, hmem, hshort, Or.inr ⟨o, ho, hend, fun p hp hroom => hbefore p hp (by omega), hc⟩⟩

/-- Settles O43: the identifier word is checked first, and the first header that overruns ends the scan. -/
theorem chkFindFaults : Obligations.ChkFindFaults := fun _ hr =>
  ⟨fun hid => exec_preFault rfl (by simp) hr (chkFindRule_of_bad_ident hid),
    fun _ hid ho hroom hbefore hover => exec_preFault rfl (by simp) hr (chkFindRule_of_overruns hid ⟨ho, hbefore⟩ hroom hover)⟩

section

variable {s : State}

/-! ### `CHK.LEN` (R124) -/

/-- The four bytes at `o` are an identifier: three bytes below `0x80`, then the separator (R62, R124). -/
def IdentAt (s : State) (o : Nat) : Prop :=
  (s.src o).toNat < 0x80 ∧ (s.src (o + 1)).toNat < 0x80 ∧ (s.src (o + 2)).toNat < 0x80 ∧ s.src (o + 3) = 0x3A

/-- The check that `CHK.LEN` makes fails exactly when there is no identifier. -/
theorem not_identAt_iff (s : State) (o : Nat) :
    ¬ IdentAt s o ↔
      (s.src o).toNat ≥ 0x80 ∨ (s.src (o + 1)).toNat ≥ 0x80 ∨ (s.src (o + 2)).toNat ≥ 0x80 ∨ s.src (o + 3) ≠ 0x3A := by
  simp only [IdentAt, not_and_or, Nat.not_lt, ge_iff_le, ne_eq]

theorem chkLenRule_of_truncated (h : s.srcLen < s.arg + 8) :
    chkLenRule s = .preFault .truncated s.arg 8 (s.srcLen - min s.arg s.srcLen : Nat) :=
  if_pos h

theorem chkLenRule_of_not_ident (hroom : s.arg + 8 ≤ s.srcLen) (h : ¬ IdentAt s s.arg) :
    chkLenRule s = .preFault .chunkId s.arg 0 (le32At s.src s.arg) := by
  rw [chkLenRule, if_neg (Nat.not_lt.2 hroom), if_pos ((not_identAt_iff s s.arg).1 h)]

/-- At an identifier `CHK.LEN` reads the length field (R121). -/
theorem chkLenRule_of_ident (hroom : s.arg + 8 ≤ s.srcLen) (h : IdentAt s s.arg) :
    chkLenRule s = withLength s s.arg fun l flag => .done 1 s.arg l flag none [] [] := by
  rw [chkLenRule, if_neg (Nat.not_lt.2 hroom), if_neg fun hbad => (not_identAt_iff s s.arg).2 hbad h]

end

/-- Settles O44: the checks of R124 in their order, then the length field. -/
theorem chkLenRuns : Obligations.ChkLenRuns := by
  intro s hr
  refine ⟨fun hshort => ?_, fun hroom hident => ?_, fun hroom hident hover => ?_, fun hroom hident hfits => ?_⟩
  · exact exec_preFault rfl (by simp) hr (chkLenRule_of_truncated hshort)
  · exact exec_preFault rfl (by simp) hr (chkLenRule_of_not_ident hroom hident)
  · exact exec_preFault rfl (by simp) hr ((chkLenRule_of_ident hroom hident).trans (withLength_of_overruns hover _))
  · have hchunk := chunkLenAt_lt s s.arg
    exact exec_done_nothing rfl (by simp) hr ((chkLenRule_of_ident hroom hident).trans (withLength_of_fits hfits _))
      (by decide) (arg_lt s) (by omega) (chunkFlagAt_lt s s.arg)

section

variable {s : State}

/-! ### `CHK.WRAP` (R126) -/

/-- After the identifier word check `CHK.WRAP` checks the length, then the room for it. -/
theorem chkWrapRule_of_ident (hid : r120Ok s.opr[9]) :
    chkWrapRule s =
      if s.srcLen > 0x7FFFFFFF then .preFault .lenRange 3 0x7FFFFFFF s.srcLen
      else if 8 + s.srcLen > s.dstLen then .preFault .lenRange 1 s.dstLen (8 + s.srcLen : Nat)
      else .done (8 + s.srcLen) 0 0 0 none (chunkBytes s.opr[9] (sliceOf s.src 0 s.srcLen)) [] := by
  rw [chkWrapRule, if_neg fun hbad => (not_idwOk_iff _).1 hbad hid]

/-- The payload follows the 8 bytes of the header (R62). -/
theorem ReadsChunk.payload_eq {r : Nat → Byte} {idw : Word} {payload : List Byte} (h : ReadsChunk r idw payload) (j : Nat)
    (hj : j < payload.length) : r (8 + j) = payload[j] := by
  rw [h (8 + j) (by rw [chunkBytes_length]; omega)]
  simp only [chunkBytes]
  rw [List.getElem_append_right (by simp [le32Bytes])]
  simp [le32Bytes]

end

/-- Settles O45: the checks of R126 in their order; a completed run leaves a chunk in `DST`, which reads back part by part. -/
theorem chkWrapRuns : Obligations.ChkWrapRuns := by
  intro s hr
  refine ⟨fun hid => ?_, fun hid hlong => ?_, fun hid hlen hroom => ?_, fun hid hlen hroom => ?_⟩
  · exact exec_preFault rfl (by simp) hr (chkWrapRule_of_bad_ident hid)
  · exact exec_preFault rfl (by simp) hr ((chkWrapRule_of_ident hid).trans (if_pos hlong))
  · exact exec_preFault rfl (by simp) hr
      ((chkWrapRule_of_ident hid).trans ((if_neg (Nat.not_lt.2 hlen)).trans (if_pos hroom)))
  · have hrule := (chkWrapRule_of_ident hid).trans ((if_neg (Nat.not_lt.2 hlen)).trans (if_neg (Nat.not_lt.2 hroom)))
    obtain ⟨t, ht, hc, hshort, hbytes, hframe⟩ :=
      exec_done (i := .chkWrap) rfl (by simp) hr hrule (by omega) (by decide) (by decide) (by decide)
    have hchunk : ReadsChunk (fun j => t.byteAt (s.dstBase + j)) s.opr[9] (sliceOf s.src 0 s.srcLen) := hbytes
    have hpayload : (sliceOf s.src 0 s.srcLen).length = s.srcLen := sliceOf_length ..
    rw [chunkBytes_length, hpayload] at hframe
    refine ⟨t, ht, hc, hshort, hchunk.identWord hid, (hchunk.lengthField (by omega)).trans hpayload, fun j hj => ?_, hframe⟩
    rw [Nat.add_assoc, hchunk.payload_eq j (by omega), sliceOf_getElem, Nat.zero_add]

section

variable {s : State}

/-! ### `INF.GET` (R130) -/

theorem infGetRule_of_no_count (h : s.srcLen < 2) : infGetRule s = .preFault .truncated 0 2 s.srcLen :=
  if_pos h

/-- With the count in the buffer `INF.GET` checks that the table is there, then the frame number. -/
theorem infGetRule_of_count (h : 2 ≤ s.srcLen) :
    infGetRule s =
      if s.srcLen < 2 + 4 * le16At s.src 0 then .preFault .truncated 2 (4 * le16At s.src 0 : Nat) (s.srcLen - 2 : Nat)
      else if s.arg ≥ le16At s.src 0 then .preFault .param 9 0 s.arg
      else
        .done (le16At s.src 0) (le16At s.src (2 + 2 * s.arg)) (le16At s.src (2 + 2 * le16At s.src 0 + 2 * s.arg)) 0 none [] [] :=
  if_neg (Nat.not_lt.2 h)

theorem le16At_lt_word (r : Nat → Byte) (j : Nat) : le16At r j < 2 ^ 32 :=
  Nat.lt_trans (le16At_lt r j) (by decide)

end

/-- Settles O47: the checks of R130 in their order; every result is a 16-bit number of the table. -/
theorem infGetRuns : Obligations.InfGetRuns := by
  intro s hr
  refine ⟨fun hshort => ?_, fun hcount htable => ?_, fun hcount htable hk => ?_, fun hcount htable hk => ?_⟩
  · exact exec_preFault rfl (by simp) hr (infGetRule_of_no_count hshort)
  · exact exec_preFault rfl (by simp) hr ((infGetRule_of_count hcount).trans (if_pos htable))
  · exact exec_preFault rfl (by simp) hr
      ((infGetRule_of_count hcount).trans ((if_neg (Nat.not_lt.2 htable)).trans (if_pos hk)))
  · exact exec_done_nothing rfl (by simp) hr
      ((infGetRule_of_count hcount).trans ((if_neg (Nat.not_lt.2 htable)).trans (if_neg (Nat.not_le.2 hk))))
      (le16At_lt_word ..) (le16At_lt_word ..) (le16At_lt_word ..) (by decide)

end Sys2Proof.Machine

end

/-! ## The codec commands `RLE.DEC`, `LZW.DEC` and `CBLK.DEC`

One round of the RLE loop and one round of the LZW loop are each said once per branch; bounds and round trips are inductions over the
rounds. What the commands do follows from what the decoders answer; `LZW.DEC` and a type 2 block share `lzwVerdict`. -/

section

namespace Sys2Proof.Machine

/-! ### One round of the RLE loop (R141) -/

section

variable {src : Nat → Byte} {p0 plen : Nat} {fuel s room : Nat}

/-- The loop stops where the output is full or the source is used up. -/
theorem rleGroups_stop (h : room = 0 ∨ plen ≤ s) : rleGroups src p0 plen fuel s room = ([], s) := by
  cases fuel with
  | zero => rfl
  | succ fuel => rw [rleGroups, if_pos h]

/-- A repeat group whose value byte is missing ends the stream. -/
theorem rleGroups_lone_repeat (hroom : room ≠ 0) (hend : s + 1 = plen) (htop : (src (p0 + s)).getLsbD 7 = true) :
    rleGroups src p0 plen (fuel + 1) s room = ([], plen) := by
  rw [rleGroups, if_neg (by omega), ← hend]
  simp only [htop, if_true]

/-- A repeat group. -/
theorem rleGroups_repeat (hroom : room ≠ 0) (hend : s + 1 < plen) (htop : (src (p0 + s)).getLsbD 7 = true) {k : Nat}
    (hk : k = min ((src (p0 + s)).extractLsb' 0 7).toNat room) :
    rleGroups src p0 plen (fuel + 1) s room =
      (List.replicate k (src (p0 + s + 1)) ++ (rleGroups src p0 plen fuel (s + 2) (room - k)).1,
        (rleGroups src p0 plen fuel (s + 2) (room - k)).2) := by
  rw [rleGroups, if_neg (by omega)]
  simp only [htop, if_true, if_neg (show s + 1 ≠ plen by omega), hk]

/-- A literal group. -/
theorem rleGroups_literal (hroom : room ≠ 0) (hend : s < plen) (htop : (src (p0 + s)).getLsbD 7 = false) {k : Nat}
    (hk : k = min ((src (p0 + s)).extractLsb' 0 7).toNat (min (plen - (s + 1)) room)) :
    rleGroups src p0 plen (fuel + 1) s room =
      (sliceOf src (p0 + s + 1) k ++ (rleGroups src p0 plen fuel (s + 1 + k) (room - k)).1,
        (rleGroups src p0 plen fuel (s + 1 + k) (room - k)).2) := by
  rw [rleGroups, if_neg (by omega)]
  simp only [htop, Bool.false_eq_true, if_false, hk]

/-- With enough rounds left the loop stays inside the source, and a loop that does not fill its room used the source up. -/
theorem rleGroups_consumed (hs : s ≤ plen) (hfuel : plen ≤ s + fuel) :
    (rleGroups src p0 plen fuel s room).2 ≤ plen ∧
    ((rleGroups src p0 plen fuel s room).1.length < room → (rleGroups src p0 plen fuel s room).2 = plen) := by
  induction fuel generalizing s room with
  | zero =>
    have hend : s = plen := Nat.le_antisymm hs hfuel
    rw [rleGroups_stop (Or.inr hend.ge)]
    exact ⟨hs, fun _ => hend⟩
  | succ fuel ih =>
    by_cases hstop : room = 0 ∨ plen ≤ s
    · rw [rleGroups_stop hstop]
      exact ⟨hs, fun hlen => by simp only [List.length_nil] at hlen; omega⟩
    · cases htop : (src (p0 + s)).getLsbD 7 with
      | true =>
        rcases Nat.lt_or_ge (s + 1) plen with hvalue | hlone
        · rw [rleGroups_repeat (by omega) hvalue htop rfl]
          obtain ⟨hle, hshort⟩ := ih (s := s + 2) (room := room - min ((src (p0 + s)).extractLsb' 0 7).toNat room)
            (by omega) (by omega)
          refine ⟨hle, fun hlen => hshort ?_⟩
          simp only [List.length_append, List.length_replicate] at hlen
          omega
        · rw [rleGroups_lone_repeat (by omega) (by omega) htop]
          exact ⟨Nat.le_refl _, fun _ => rfl⟩
      | false =>
        rw [rleGroups_literal (by omega) (by omega) htop rfl]
        generalize hk : min ((src (p0 + s)).extractLsb' 0 7).toNat (min (plen - (s + 1)) room) = k
        obtain ⟨hle, hshort⟩ := ih (s := s + 1 + k) (room := room - k) (by omega) (by omega)
        refine ⟨hle, fun hlen => hshort ?_⟩
        simp only [List.length_append, sliceOf_length] at hlen
        omega

end

theorem rleDecode_consumed (src : Nat → Byte) (p0 plen n : Nat) :
    (rleDecode src p0 plen n).2 ≤ plen ∧
    ((rleDecode src p0 plen n).1.length < n → (rleDecode src p0 plen n).2 = plen) :=
  rleGroups_consumed (Nat.zero_le _) (by omega)

/-- Settles O27: the length of the output, and the source offset where the loop ends. -/
theorem rleNeverOverruns : Obligations.RleNeverOverruns := fun src p0 plen n =>
  ⟨rleDecode_length src p0 plen n, rleDecode_consumed src p0 plen n⟩

/-! ### Streams of complete groups (R144) -/

/-- These bytes stand in the source from offset `p` on. -/
def ReadsAt (src : Nat → Byte) (p : Nat) (l : List Byte) : Prop :=
  ∀ j (h : j < l.length), src (p + j) = l[j]

theorem ReadsAt.of_append {src : Nat → Byte} {p : Nat} {a b : List Byte} (h : ReadsAt src p (a ++ b)) :
    ReadsAt src p a ∧ ReadsAt src (p + a.length) b := by
  refine ⟨fun j hj => ?_, fun j hj => ?_⟩
  · rw [h j (by simp only [List.length_append]; omega), List.getElem_append_left hj]
  · rw [Nat.add_assoc, h (a.length + j) (by simp only [List.length_append]; omega),
      List.getElem_append_right (Nat.le_add_right ..)]
    simp only [Nat.add_sub_cancel_left]

theorem ReadsAt.of_cons {src : Nat → Byte} {p : Nat} {b : Byte} {l : List Byte} (h : ReadsAt src p (b :: l)) :
    src p = b ∧ ReadsAt src (p + 1) l := by
  obtain ⟨hb, hl⟩ := ReadsAt.of_append (a := [b]) h
  exact ⟨hb 0 Nat.one_pos, hl⟩

theorem ReadsAt.sliceOf_eq {src : Nat → Byte} {p : Nat} {l : List Byte} (h : ReadsAt src p l) : sliceOf src p l.length = l :=
  List.ext_getElem (sliceOf_length ..) fun j _ hj => by rw [sliceOf_getElem, h j hj]

/-- The two fields of a repeat group's control byte. -/
theorem repeat_control (r : Fin 128) :
    (BitVec.ofNat 8 (0x80 + r.val)).getLsbD 7 = true ∧ ((BitVec.ofNat 8 (0x80 + r.val)).extractLsb' 0 7).toNat = r.val := by
  revert r; decide

/-- The two fields of a literal group's control byte. -/
theorem literal_control (r : Fin 128) :
    (BitVec.ofNat 8 r.val).getLsbD 7 = false ∧ ((BitVec.ofNat 8 r.val).extractLsb' 0 7).toNat = r.val := by
  revert r; decide

@[simp] theorem RleGroup.output_length (g : RleGroup) : g.output.length = g.count := by
  cases g with
  | repeated r v => exact List.length_replicate
  | literal bs => rfl

theorem RleGroup.stream_length_pos (g : RleGroup) : 0 < g.stream.length := by
  cases g <;> exact Nat.succ_pos _

/-- One round on a complete group that the room holds emits the group's output and moves past its stream. -/
theorem rleGroups_of_group {src : Nat → Byte} {p0 plen fuel s room : Nat} {g : RleGroup} (hok : g.ok = true)
    (hreads : ReadsAt src (p0 + s) g.stream) (hend : s + g.stream.length ≤ plen) (hroom : room ≠ 0) (hcount : g.count ≤ room) :
    rleGroups src p0 plen (fuel + 1) s room =
      (g.output ++ (rleGroups src p0 plen fuel (s + g.stream.length) (room - g.count)).1,
        (rleGroups src p0 plen fuel (s + g.stream.length) (room - g.count)).2) := by
  cases g with
  | repeated r v =>
    obtain ⟨hc, hv⟩ := hreads.of_cons
    obtain ⟨hv, -⟩ := hv.of_cons
    obtain ⟨htop, hr⟩ := repeat_control r
    simp only [RleGroup.stream, RleGroup.count, List.length_cons, List.length_nil] at hend hcount ⊢
    rw [rleGroups_repeat hroom (by omega) (by rw [hc]; exact htop) (k := r.val) (by rw [hc, hr]; omega), hv]
    rfl
  | literal bs =>
    obtain ⟨hc, hbs⟩ := hreads.of_cons
    obtain ⟨htop, hr⟩ := literal_control ⟨bs.length, of_decide_eq_true hok⟩
    simp only [RleGroup.stream, RleGroup.count, List.length_cons] at hend hcount ⊢
    rw [rleGroups_literal hroom (by omega) (by rw [hc]; exact htop) (k := bs.length) (by rw [hc, hr]; simp only; omega),
      hbs.sliceOf_eq]
    simp only [RleGroup.output, Nat.add_assoc, Nat.add_comm 1]

/-- Groups without output have zero counts. -/
theorem RleGroup.count_eq_zero {gs : List RleGroup} (h : gs.flatMap RleGroup.output = []) {g : RleGroup} (hg : g ∈ gs) :
    g.count = 0 := by
  rw [← g.output_length, List.flatMap_eq_nil_iff.1 h g hg, List.length_nil]

/-- The loop over a stream of complete groups, with room for exactly their output: it stops early only before groups of count
zero. -/
theorem rleGroups_of_stream {src : Nat → Byte} {p0 plen fuel s : Nat} {gs : List RleGroup} (hok : ∀ g ∈ gs, g.ok = true)
    (hreads : ReadsAt src (p0 + s) (gs.flatMap RleGroup.stream)) (hend : s + (gs.flatMap RleGroup.stream).length = plen)
    (hfuel : plen ≤ s + fuel) :
    (rleGroups src p0 plen fuel s (gs.flatMap RleGroup.output).length).1 = gs.flatMap RleGroup.output ∧
    ((∀ g ∈ gs.getLast?, g.count ≠ 0) → (rleGroups src p0 plen fuel s (gs.flatMap RleGroup.output).length).2 = plen) := by
  induction gs generalizing s fuel with
  | nil =>
    rw [List.flatMap_nil, List.length_nil, rleGroups_stop (Or.inl rfl)]
    exact ⟨rfl, fun _ => hend⟩
  | cons g gs ih =>
    by_cases hout : (g :: gs).flatMap RleGroup.output = []
    · rw [hout, List.length_nil, rleGroups_stop (Or.inl rfl)]
      refine ⟨rfl, fun hlast => ?_⟩
      have hmem := List.getLast?_eq_getLast_of_ne_nil (List.cons_ne_nil g gs)
      exact absurd (RleGroup.count_eq_zero hout (List.getLast_mem _)) (hlast _ hmem)
    · have hroom : ((g :: gs).flatMap RleGroup.output).length ≠ 0 := fun h => hout (List.length_eq_zero_iff.1 h)
      have hpos := g.stream_length_pos
      obtain ⟨hg, hgs⟩ := ReadsAt.of_append (a := g.stream) hreads
      simp only [List.flatMap_cons, List.length_append, RleGroup.output_length] at hend hroom ⊢
      obtain ⟨fuel, rfl⟩ : ∃ f, fuel = f + 1 := ⟨fuel - 1, by omega⟩
      obtain ⟨hbytes, hused⟩ := ih (s := s + g.stream.length) (fuel := fuel) (fun g' hg' => hok g' (List.mem_cons_of_mem _ hg'))
        (by rwa [← Nat.add_assoc]) (by omega) (by omega)
      rw [rleGroups_of_group (hok g List.mem_cons_self) hg (by omega) hroom (by omega), Nat.add_sub_cancel_left]
      refine ⟨by rw [hbytes], fun hlast => hused fun g' hg' => hlast g' ?_⟩
      rw [Option.mem_def] at hg' ⊢
      rw [List.getLast?_cons, hg', Option.getD_some]

/-- Settles O28, by induction on the groups. -/
theorem rleStreamRoundTrip : Obligations.RleStreamRoundTrip := by
  intro src p0 gs hok hreads e b
  obtain ⟨hbytes, hused⟩ := rleGroups_of_stream (s := 0) (fuel := e) (plen := e) hok hreads (Nat.zero_add _) (by omega)
  exact ⟨hbytes, (rleDecode_consumed src p0 e b.length).1, hused⟩

/-! ### Commands that fill the start of `DST` -/

/-- A command whose rule answers `n` bytes for `DST`: `exec_done` with the number of bytes and their list reader. -/
theorem exec_done_out {i : Instr} {s : State} {r0 r1 r2 r3 n : Nat} {short : Option Bool} {out : List Byte} (hw : i.wf = true)
    (ha : i ≠ .ack) (hr : regionFault (rolesOf i) s = none) (h : ruleOf i s = .done r0 r1 r2 r3 short out []) (hn : out.length = n)
    (h0 : r0 < 2 ^ 32) (h1 : r1 < 2 ^ 32) (h2 : r2 < 2 ^ 32) (h3 : r3 < 2 ^ 32) :
    ∃ t, exec i s = .next t ∧ Completed s t r0 r1 r2 r3 ∧ t.short = short.getD s.short ∧
      Holds t s.dstBase n (fun j => out.getD j 0) ∧ UnchangedOutside s t [(s.dstBase, n)] := by
  subst hn
  obtain ⟨t, ht, hc, hshort, hbytes, hframe⟩ := exec_done hw ha hr h h0 h1 h2 h3
  exact ⟨t, ht, hc, hshort, fun j hj => (hbytes j hj).trans (List.getD_eq_getElem _ _ hj).symm, hframe⟩

/-- Settles O29: the rule has one branch, and both results fit their registers. -/
theorem rleDecRuns : Obligations.RleDecRuns := by
  intro s hr
  have hd := Nat.lt_of_le_of_lt (rleDecode_length s.src 0 s.srcLen s.dstLen) (dstLen_lt s)
  have hc := Nat.lt_of_le_of_lt (rleDecode_consumed s.src 0 s.srcLen s.dstLen).1 (srcLen_lt s)
  exact exec_done_out (i := .rleDec) rfl (by simp) hr rfl rfl hd hc (by decide) (by decide)

/-! ### One round of the LZW loop (R148) -/

/-- How a run of the loop with `room` of `n` bytes to produce may end: each end within the source and the declared length. -/
inductive LzwBounded (plen n room : Nat) : List Byte × LzwEnd → Prop where
  | ok {out u} (hlen : out.length = room) (hu : u ≤ plen) : LzwBounded plen n room (out, .ok u)
  | exhausted {out d} (hd : d < n) (hlen : n - room + out.length = d) : LzwBounded plen n room (out, .exhausted d)
  | badCode {out off limit code} (hlen : out.length < room) (hoff : off < plen) (hcode : limit ≤ code) :
      LzwBounded plen n room (out, .badCode off limit code)

/-- Emitting a string before such a run keeps it so. -/
theorem LzwBounded.emit {plen n room : Nat} {rest : List Byte × LzwEnd} (entry : List Byte) (hroom : room ≤ n)
    (h : LzwBounded plen n (room - min entry.length room) rest) :
    LzwBounded plen n room (entry.take room ++ rest.1, rest.2) := by
  have htake : (entry.take room).length = min room entry.length := List.length_take
  cases h with
  | ok hlen hu => exact .ok (by simp only [List.length_append]; omega) hu
  | exhausted hd hlen => exact .exhausted hd (by simp only [List.length_append]; omega)
  | badCode hlen hoff hcode => exact .badCode (by simp only [List.length_append]; omega) hoff hcode

/-- The limit reported with a bad code is at most the code. -/
theorem lzwMeaning_error {width : Nat} {table : List (List Byte)} {prev : Option Nat} {code limit : Nat}
    (h : lzwMeaning width table prev code = .error limit) : limit ≤ code := by
  cases prev with
  | none =>
    simp only [lzwMeaning] at h
    split at h
    · cases h; omega
    · cases h
  | some p =>
    simp only [lzwMeaning] at h
    split at h
    · cases h
    · cases h; omega

/-- The code width never shrinks between clears. -/
theorem lzwMeaning_width {width width' : Nat} {table table' : List (List Byte)} {prev : Option Nat} {code : Nat}
    {entry : List Byte} (h : lzwMeaning width table prev code = .ok (entry, table', width')) : width ≤ width' := by
  cases prev with
  | none =>
    simp only [lzwMeaning] at h
    split at h
    · cases h
    · cases h; exact Nat.le_refl _
  | some p =>
    simp only [lzwMeaning] at h
    split at h
    · cases h; split <;> omega
    · cases h

section

variable {src : Nat → Byte} {p0 plen n fuel width bitpos room : Nat} {table : List (List Byte)} {prev : Option Nat}

/-- The loop stops with success where the declared length is produced. -/
theorem lzwCodes_full : lzwCodes src p0 plen n (fuel + 1) width table prev bitpos 0 = ([], .ok (ceilDiv bitpos 8)) := by
  rw [lzwCodes, if_pos rfl]

/-- The loop stops where the source does not hold another code. -/
theorem lzwCodes_exhausted (hroom : room ≠ 0) (hbits : 8 * plen < bitpos + width) :
    lzwCodes src p0 plen n (fuel + 1) width table prev bitpos room = ([], .exhausted (n - room)) := by
  rw [lzwCodes, if_neg hroom, if_pos hbits]

/-- The clear code empties the table and emits nothing. -/
theorem lzwCodes_clear (hroom : room ≠ 0) (hbits : bitpos + width ≤ 8 * plen) (hclear : lzwCodeAt src p0 bitpos width = 256) :
    lzwCodes src p0 plen n (fuel + 1) width table prev bitpos room =
      lzwCodes src p0 plen n fuel 9 [] none (bitpos + width) room := by
  rw [lzwCodes, if_neg hroom, if_neg (Nat.not_lt.2 hbits)]
  simp only [if_pos hclear]

/-- The loop stops at a code without a meaning. -/
theorem lzwCodes_bad {limit : Nat} (hroom : room ≠ 0) (hbits : bitpos + width ≤ 8 * plen)
    (hclear : lzwCodeAt src p0 bitpos width ≠ 256)
    (hmean : lzwMeaning width table prev (lzwCodeAt src p0 bitpos width) = .error limit) :
    lzwCodes src p0 plen n (fuel + 1) width table prev bitpos room =
      ([], .badCode (bitpos / 8) limit (lzwCodeAt src p0 bitpos width)) := by
  rw [lzwCodes, if_neg hroom, if_neg (Nat.not_lt.2 hbits)]
  simp only [if_neg hclear, hmean]

/-- One round on a code that has a string. -/
theorem lzwCodes_code {entry : List Byte} {table' : List (List Byte)} {width' : Nat} (hroom : room ≠ 0)
    (hbits : bitpos + width ≤ 8 * plen) (hclear : lzwCodeAt src p0 bitpos width ≠ 256)
    (hmean : lzwMeaning width table prev (lzwCodeAt src p0 bitpos width) = .ok (entry, table', width')) :
    lzwCodes src p0 plen n (fuel + 1) width table prev bitpos room =
      (entry.take room ++ (lzwCodes src p0 plen n fuel width' table' (some (lzwCodeAt src p0 bitpos width)) (bitpos + width)
          (room - min entry.length room)).1,
        (lzwCodes src p0 plen n fuel width' table' (some (lzwCodeAt src p0 bitpos width)) (bitpos + width)
          (room - min entry.length room)).2) := by
  rw [lzwCodes, if_neg hroom, if_neg (Nat.not_lt.2 hbits)]
  simp only [if_neg hclear, hmean]

/-- With nine bits per round left to spend, the loop is never cut by its bound on the rounds (log 20), so it ends in one of the
ways of `LzwBounded`. -/
theorem lzwCodes_bounded (hwidth : 9 ≤ width) (hpos : bitpos ≤ 8 * plen) (hfuel : 8 * plen < bitpos + 9 * fuel) (hroom : room ≤ n) :
    LzwBounded plen n room (lzwCodes src p0 plen n fuel width table prev bitpos room) := by
  induction fuel generalizing width table prev bitpos room with
  | zero => omega
  | succ fuel ih =>
    by_cases hfull : room = 0
    · subst hfull
      rw [lzwCodes_full]
      exact .ok rfl (by simp only [ceilDiv]; omega)
    · rcases Nat.lt_or_ge (8 * plen) (bitpos + width) with hend | hbits
      · rw [lzwCodes_exhausted hfull hend]
        exact .exhausted (by omega) rfl
      · by_cases hclear : lzwCodeAt src p0 bitpos width = 256
        · rw [lzwCodes_clear hfull hbits hclear]
          exact ih (Nat.le_refl _) hbits (by omega) hroom
        · cases hmean : lzwMeaning width table prev (lzwCodeAt src p0 bitpos width) with
          | error limit =>
            rw [lzwCodes_bad hfull hbits hclear hmean]
            exact .badCode (Nat.pos_of_ne_zero hfull) (by omega) (lzwMeaning_error hmean)
          | ok meaning =>
            obtain ⟨entry, table', width'⟩ := meaning
            rw [lzwCodes_code hfull hbits hclear hmean]
            exact .emit entry hroom (ih (Nat.le_trans hwidth (lzwMeaning_width hmean)) hbits (by omega) (by omega))

end

theorem lzwStandard_bounded (src : Nat → Byte) (p0 plen n : Nat) : LzwBounded plen n n (lzwStandard src p0 plen n) :=
  lzwCodes_bounded (Nat.le_refl _) (Nat.zero_le _) (by omega) (Nat.le_refl _)

/-- Settles O30: the three ends of `LzwBounded`, with all of the declared length to produce. -/
theorem lzwStandardBounds : Obligations.LzwStandardBounds := by
  intro src p0 plen n
  have hb := lzwStandard_bounded src p0 plen n
  refine ⟨fun out u h => ?_, fun out d h => ?_, fun out off limit code h => ?_⟩ <;> rw [h] at hb
  · cases hb with
    | ok hlen hu => exact ⟨hlen, hu⟩
  · cases hb with
    | exhausted hd hlen => exact ⟨hd, by omega⟩
  · cases hb with
    | badCode hlen hoff hcode => exact ⟨hlen, hoff, hcode⟩

/-! ### Streams of literal codes (R146, R148) -/

/-- What the loop remembers after `k` literal codes: nothing before the first one, and one entry for each code after it. -/
def LiteralsRead (k : Nat) (prev : Option Nat) (table : List (List Byte)) : Prop :=
  match prev with
  | none => k = 0 ∧ table = []
  | some _ => table.length + 1 = k

/-- The meaning of literal code number `k`: its byte; the codes stay nine bits wide up to code number 255. -/
theorem lzwMeaning_literal {k code : Nat} {prev : Option Nat} {table : List (List Byte)} (hread : LiteralsRead k prev table)
    (hcode : code < 256) (hk : k < 256) :
    ∃ table' width', lzwMeaning 9 table prev code = .ok ([BitVec.ofNat 8 code], table', width') ∧
      LiteralsRead (k + 1) (some code) table' ∧ (k ≠ 255 → width' = 9) := by
  have hstring : lzwString table code = [BitVec.ofNat 8 code] := if_pos hcode
  cases prev with
  | none =>
    obtain ⟨rfl, rfl⟩ := hread
    exact ⟨[], 9, by simp only [lzwMeaning, if_neg (show ¬ code > 255 by omega), hstring], rfl, fun _ => rfl⟩
  | some p =>
    have hlen : table.length + 1 = k := hread
    have hnext : code < 257 + table.length := by omega
    have hfree : 257 + table.length < 4096 := by omega
    refine ⟨table ++ [lzwString table p ++ [BitVec.ofNat 8 code]], if 257 + table.length + 1 = 2 ^ 9 then 10 else 9, ?_, ?_,
      fun hlast => if_neg (by omega)⟩
    · simp [lzwMeaning, hnext, hfree, hstring]
    · show (_ ++ [_]).length + 1 = k + 1
      rw [List.length_append, List.length_singleton, hlen]

/-- The loop over the last `m` of `n` literal codes, after `k` of them. -/
theorem lzwCodes_literals {src : Nat → Byte} {p0 plen n : Nat} (hn : n ≤ 256) (hplen : 9 * n ≤ 8 * plen)
    (hlit : ∀ k, k < n → lzwCodeAt src p0 (9 * k) 9 < 256) {fuel width k m : Nat} {table : List (List Byte)} {prev : Option Nat}
    (hread : LiteralsRead k prev table) (hwidth : m ≠ 0 → width = 9) (hkm : k + m = n) (hfuel : m < fuel) :
    lzwCodes src p0 plen n fuel width table prev (9 * k) m =
      ((List.range' k m).map fun j => BitVec.ofNat 8 (lzwCodeAt src p0 (9 * j) 9), .ok (ceilDiv (9 * n) 8)) := by
  induction m generalizing fuel width k table prev with
  | zero =>
    obtain ⟨fuel, rfl⟩ : ∃ f, fuel = f + 1 := ⟨fuel - 1, by omega⟩
    rw [lzwCodes_full, show k = n by omega]
    rfl
  | succ m ih =>
    obtain ⟨fuel, rfl⟩ : ∃ f, fuel = f + 1 := ⟨fuel - 1, by omega⟩
    obtain rfl : width = 9 := hwidth (Nat.add_one_ne_zero m)
    have hcode := hlit k (by omega)
    obtain ⟨table', width', hmean, hread', hwidth'⟩ := lzwMeaning_literal hread hcode (by omega)
    rw [lzwCodes_code (Nat.add_one_ne_zero m) (by omega) (by omega) hmean]
    have hrest := ih hread' (width := width') (fun hm => hwidth' (by omega)) (by omega) (fuel := fuel) (by omega)
    have hroom : m + 1 - min [BitVec.ofNat 8 (lzwCodeAt src p0 (9 * k) 9)].length (m + 1) = m := by
      rw [List.length_singleton]; omega
    rw [hroom, show 9 * k + 9 = 9 * (k + 1) by omega, hrest]
    simp only [List.take_succ_cons, List.take_nil, List.range'_succ, List.map_cons, List.singleton_append]

/-- Settles O31, by induction on the codes that are left. -/
theorem lzwLiteralStream : Obligations.LzwLiteralStream := by
  intro src p0 plen n hn hplen hlit
  rw [List.range_eq_range']
  exact lzwCodes_literals (k := 0) hn hplen hlit ⟨rfl, rfl⟩ (fun _ => rfl) (Nat.zero_add n) (by omega)

/-! ### Commands that decode LZW (R147, R150) -/

/-- Under every variant a successful decode consumes no more than the encoded bytes (R147, U5). -/
theorem lzwDecode_consumed {v : LzwVariant} {src : Nat → Byte} {p0 plen n : Nat} {out : List Byte} {u : Nat}
    (h : lzwDecode v src p0 plen n = (out, .ok u)) : u ≤ plen := by
  cases v with
  | standard =>
    obtain ⟨-, hu⟩ := (lzwStandardBounds src p0 plen n).1 out u h
    exact hu
  | replaced id =>
    simp only [lzwDecode] at h
    split at h
    · cases h; exact Nat.min_le_right ..
    · next hend => simp only [Prod.mk.injEq] at h; exact absurd h.2 (hend u)

section

variable {i : Instr} {s : State} {p0 plen n t : Nat} {out : List Byte}

/-- A command that decodes LZW completes when the decode does. -/
theorem exec_lzw_ok {u : Nat} (hw : i.wf = true) (ha : i ≠ .ack) (hr : regionFault (rolesOf i) s = none)
    (hrule : ruleOf i s = lzwVerdict s.cfg.lzw s.src p0 plen n t) (hsrc : p0 + plen ≤ s.srcLen) (hdst : n ≤ s.dstLen)
    (ht : t < 2 ^ 32) (h : lzwDecode s.cfg.lzw s.src p0 plen n = (out, .ok u)) :
    ∃ t', exec i s = .next t' ∧ Completed s t' n (p0 + u) t 0 ∧ t'.short = s.short ∧
      Holds t' s.dstBase n (fun j => out.getD j 0) ∧ UnchangedOutside s t' [(s.dstBase, n)] := by
  have hverdict : ruleOf i s = .done n (p0 + u) t 0 none out [] := by rw [hrule, lzwVerdict, h]
  have hu := lzwDecode_consumed h
  have hs := srcLen_lt s
  exact exec_done_out hw ha hr hverdict (lzwDecode_length h) (Nat.lt_of_le_of_lt hdst (dstLen_lt s)) (by omega) ht (by decide)

/-- A command that decodes LZW faults when the source is exhausted. -/
theorem exec_lzw_exhausted {d : Nat} (hw : i.wf = true) (ha : i ≠ .ack) (hr : regionFault (rolesOf i) s = none)
    (hrule : ruleOf i s = lzwVerdict s.cfg.lzw s.src p0 plen n t)
    (h : lzwDecode s.cfg.lzw s.src p0 plen n = (out, .exhausted d)) :
    ∃ t', exec i s = .next t' ∧ MidFaulted s t' .lenMismatch (p0 + plen : Nat) n d n :=
  exec_midFault hw ha hr (by rw [hrule, lzwVerdict, h, Nat.cast_add])

/-- A command that decodes LZW faults at a bad code. -/
theorem exec_lzw_badCode {off limit code : Nat} (hw : i.wf = true) (ha : i ≠ .ack) (hr : regionFault (rolesOf i) s = none)
    (hrule : ruleOf i s = lzwVerdict s.cfg.lzw s.src p0 plen n t)
    (h : lzwDecode s.cfg.lzw s.src p0 plen n = (out, .badCode off limit code)) :
    ∃ t', exec i s = .next t' ∧ MidFaulted s t' .lzwCode (p0 + off : Nat) limit code n :=
  exec_midFault hw ha hr (by rw [hrule, lzwVerdict, h, Nat.cast_add])

end

/-- Settles O32: the encoded bytes are the whole of `SRC`. -/
theorem lzwDecRuns : Obligations.LzwDecRuns := by
  intro s out hr
  refine ⟨fun u h => ?_, fun d h => ?_, fun off limit code h => ?_⟩
  · obtain ⟨t, ht, hc, hshort, hbytes, hframe⟩ :=
      exec_lzw_ok (i := .lzwDec) rfl (by simp) hr rfl (by omega) (Nat.le_refl _) (by decide) h
    rw [Nat.zero_add] at hc
    exact ⟨t, ht, hc, hshort, lzwDecode_length h, hbytes, hframe⟩
  · have hf := exec_lzw_exhausted (i := .lzwDec) rfl (by simp) hr rfl h
    rwa [Nat.zero_add] at hf
  · have hf := exec_lzw_badCode (i := .lzwDec) rfl (by simp) hr rfl h
    rwa [Nat.zero_add] at hf

/-! ### The compressed block (R150, R152) -/

section

variable {s : State}

theorem cblkDecRule_of_no_header (h : s.srcLen < 5) : cblkDecRule s = .preFault .truncated 0 5 s.srcLen :=
  if_pos h

theorem cblkDecRule_lzss (h : 5 ≤ s.srcLen) (ht : s.src 0 = 3) : cblkDecRule s = .preFault .compLzss 0 3 3 := by
  rw [cblkDecRule, if_neg (Nat.not_lt.2 h), ht]
  rfl

theorem cblkDecRule_unknown (h : 5 ≤ s.srcLen) (ht : 4 ≤ (s.src 0).toNat) :
    cblkDecRule s = .preFault .compUnknown 0 3 (s.src 0).toNat := by
  rw [cblkDecRule, if_neg (Nat.not_lt.2 h)]
  simp only [if_neg (show (s.src 0).toNat ≠ 3 by omega), if_pos ht]

/-- For a supported type the declared length is checked before the type is looked at. -/
theorem cblkDecRule_of_supported (h : 5 ≤ s.srcLen) (ht : (s.src 0).toNat < 3) :
    cblkDecRule s =
      if le32At s.src 1 > s.dstLen then .preFault .lenRange 1 s.dstLen (le32At s.src 1)
      else if (s.src 0).toNat = 0 then cblkRaw s (le32At s.src 1) (s.srcLen - 5)
      else if (s.src 0).toNat = 1 then cblkRle s (le32At s.src 1) (s.srcLen - 5)
      else cblkLzw s (le32At s.src 1) (s.srcLen - 5) := by
  rw [cblkDecRule, if_neg (Nat.not_lt.2 h)]
  simp only [if_neg (show (s.src 0).toNat ≠ 3 by omega), if_neg (show ¬ (s.src 0).toNat ≥ 4 by omega)]

theorem cblkDecRule_raw (h : 5 ≤ s.srcLen) (hl : le32At s.src 1 ≤ s.dstLen) (ht : s.src 0 = 0) :
    cblkDecRule s = cblkRaw s (le32At s.src 1) (s.srcLen - 5) := by
  rw [cblkDecRule_of_supported h (by rw [ht]; decide), if_neg (Nat.not_lt.2 hl), ht]
  rfl

theorem cblkDecRule_rle (h : 5 ≤ s.srcLen) (hl : le32At s.src 1 ≤ s.dstLen) (ht : s.src 0 = 1) :
    cblkDecRule s = cblkRle s (le32At s.src 1) (s.srcLen - 5) := by
  rw [cblkDecRule_of_supported h (by rw [ht]; decide), if_neg (Nat.not_lt.2 hl), ht]
  rfl

theorem cblkDecRule_lzw (h : 5 ≤ s.srcLen) (hl : le32At s.src 1 ≤ s.dstLen) (ht : s.src 0 = 2) :
    cblkDecRule s = lzwVerdict s.cfg.lzw s.src 5 (s.srcLen - 5) (le32At s.src 1) 2 := by
  rw [cblkDecRule_of_supported h (by rw [ht]; decide), if_neg (Nat.not_lt.2 hl), ht]
  rfl

theorem cblkRaw_of_fits {l p : Nat} (h : l ≤ p) : cblkRaw s l p = .done l (5 + l) 0 0 none (sliceOf s.src 5 l) [] :=
  if_neg (Nat.not_lt.2 h)

theorem cblkRaw_of_short {l p : Nat} (h : p < l) : cblkRaw s l p = .preFault .lenMismatch s.srcLen l p :=
  if_pos h

theorem cblkRle_of_full {l p c : Nat} {out : List Byte} (h : rleDecode s.src 5 p l = (out, c)) (hlen : out.length = l) :
    cblkRle s l p = .done l (5 + c) 1 0 none out [] := by
  simp only [cblkRle, h, if_neg (not_not.2 hlen)]

theorem cblkRle_of_short {l p c : Nat} {out : List Byte} (h : rleDecode s.src 5 p l = (out, c)) (hlen : out.length ≠ l) :
    cblkRle s l p = .midFault .lenMismatch (5 + c : Nat) l out.length l := by
  simp only [cblkRle, h, if_pos hlen, Nat.cast_add, Nat.cast_ofNat]

end

/-- Settles O33: each block type by what its decoder answers. -/
theorem cblkDecRuns : Obligations.CblkDecRuns := by
  intro s hr h hl l
  have hs := srcLen_lt s
  have hlword : l < 2 ^ 32 := le32At_lt ..
  refine ⟨fun ht hfits => ?_, fun out c ht hdec hlen => ?_, fun out u ht hdec => ?_⟩
  · have hrule := (cblkDecRule_raw h hl ht).trans (cblkRaw_of_fits (show l ≤ s.srcLen - 5 by omega))
    obtain ⟨t, hexec, hc, hshort, hbytes, hframe⟩ :=
      exec_done (i := .cblkDec) rfl (by simp) hr hrule hlword (by omega) (by decide) (by decide)
    rw [sliceOf_length] at hframe
    exact ⟨t, hexec, hc, hshort, fun j hj => by rw [hbytes j (by rwa [sliceOf_length]), sliceOf_getElem], hframe⟩
  · have hc : c ≤ s.srcLen - 5 := by simpa [hdec] using (rleDecode_consumed s.src 5 (s.srcLen - 5) l).1
    exact exec_done_out (i := .cblkDec) rfl (by simp) hr ((cblkDecRule_rle h hl ht).trans (cblkRle_of_full hdec hlen)) hlen
      hlword (by omega) (by decide) (by decide)
  · exact exec_lzw_ok (i := .cblkDec) rfl (by simp) hr (cblkDecRule_lzw h hl ht) (by omega) hl (by decide) hdec

/-- Settles O34: the type is looked at after the five header bytes and before the declared length. -/
theorem cblkUnsupportedTypes : Obligations.CblkUnsupportedTypes :=
  ⟨fun _ hr h =>
    ⟨fun ht => exec_preFault (i := .cblkDec) rfl (by simp) hr (cblkDecRule_lzss h ht),
      fun ht => exec_preFault (i := .cblkDec) rfl (by simp) hr (cblkDecRule_unknown h ht)⟩,
    by decide, by decide⟩

/-- Settles O35: the header, the capacity, then each block type by what its decoder answers. -/
theorem cblkLengthFaults : Obligations.CblkLengthFaults := by
  intro s hr
  refine ⟨fun h => ?_, fun h ht hl => ?_, fun h hl ht hshort => ?_, fun out c h hl ht hdec hlen => ?_,
    fun out d h hl ht hdec => ?_, fun out off limit code h hl ht hdec => ?_⟩
  · exact exec_preFault (i := .cblkDec) rfl (by simp) hr (cblkDecRule_of_no_header h)
  · exact exec_preFault (i := .cblkDec) rfl (by simp) hr ((cblkDecRule_of_supported h ht).trans (if_pos hl))
  · exact exec_preFault (i := .cblkDec) rfl (by simp) hr ((cblkDecRule_raw h hl ht).trans (cblkRaw_of_short (by omega)))
  · have hle : out.length ≤ le32At s.src 1 := by simpa [hdec] using rleDecode_length s.src 5 (s.srcLen - 5) (le32At s.src 1)
    exact ⟨by omega, exec_midFault (i := .cblkDec) rfl (by simp) hr ((cblkDecRule_rle h hl ht).trans (cblkRle_of_short hdec hlen))⟩
  · have hf := exec_lzw_exhausted (i := .cblkDec) rfl (by simp) hr (cblkDecRule_lzw h hl ht) hdec
    rwa [Nat.add_sub_cancel' h] at hf
  · exact exec_lzw_badCode (i := .cblkDec) rfl (by simp) hr (cblkDecRule_lzw h hl ht) hdec

end Sys2Proof.Machine

end

/-! ## The codec commands `SCN.DEC` and `BMK.DEC`

A run of the SCN loop that decodes is the relation `ScnDecodes`, in which a marker and a run are one kind of record; what a decoded
frame tells and shows are inductions over it. The bitmask loop is compared with `bmkLast`, the byte that stands before each output
position. What the commands do follows from what the decoders answer. -/

section

namespace Sys2Proof.Machine

/-! ### Where a record stands (R174) -/

/-- Row and column after a record with count `n`. -/
def scnAfter (n : Byte) (y x : Nat) : Nat × Nat := if n = 0 then (y + 1, 0) else (y, x + n.toNat)

theorem scnAfter_marker (y x : Nat) : scnAfter 0 y x = (y + 1, 0) := rfl

theorem scnAfter_run {n : Byte} (hn : n ≠ 0) (y x : Nat) : scnAfter n y x = (y, x + n.toNat) := if_neg hn

theorem scnCursor_cons (c n : Byte) (rest : List Byte) (y x : Nat) :
    scnCursor (c :: n :: rest) y x = scnCursor rest (scnAfter n y x).1 (scnAfter n y x).2 := by
  unfold scnAfter
  rw [scnCursor]
  split <;> rfl

/-- A record that fits its row leaves off at or behind the end of its pixels. -/
theorem scnAfter_place {w x : Nat} {n : Byte} (hx : x + n.toNat ≤ w) (y : Nat) :
    y * w + x + n.toNat ≤ (scnAfter n y x).1 * w + (scnAfter n y x).2 := by
  by_cases hn : n = 0
  · subst hn
    rw [scnAfter_marker, Nat.add_one_mul]
    omega
  · rw [scnAfter_run hn, Nat.add_assoc]

/-! ### Frames that decode (R174) -/

/-- The image after a record at place `pos`: a control byte 0 paints nothing. -/
def scnPaint (img : List Byte) (pos : Nat) (n c : Byte) : List Byte :=
  if c ≠ 0 then paintRun img pos n.toNat c else img

/-- The loop decodes these records from column `x` of row `y`, from the depth flag and image it has there to the final ones. -/
inductive ScnDecodes (w h : Nat) (final : List Byte) (deepEnd wrap : Bool) :
    (records : List Byte) → (y x : Nat) → (deep : Bool) → (img : List Byte) → Prop where
  | done {y x : Nat} (hrow : y ≤ h) (hlast : h ≤ y + 1) (hwrap : wrap = decide (y = h)) :
      ScnDecodes w h final deepEnd wrap [] y x deepEnd final
  | record {c n : Byte} {rest : List Byte} {y x : Nat} {deep : Bool} {img : List Byte} (hrow : y < h) (hcol : x + n.toNat ≤ w)
      (hrest : ScnDecodes w h final deepEnd wrap rest (scnAfter n y x).1 (scnAfter n y x).2 (deep || decide (c.toNat > 0x0F))
        (scnPaint img (y * w + x) n c)) :
      ScnDecodes w h final deepEnd wrap (c :: n :: rest) y x deep img

/-- A run of the loop that ends without fault decodes its records. -/
theorem ScnDecodes.of_scnRecords {w h : Nat} {final : List Byte} {deepEnd wrap : Bool} :
    (records : List Byte) → {p x y : Nat} → {deep : Bool} → {img : List Byte} → x ≤ w → y ≤ h →
    scnRecords w h records p x y deep img = (final, .ok deepEnd wrap) → ScnDecodes w h final deepEnd wrap records y x deep img
  | [], p, x, y, deep, img, _, hy, hok => by
    rw [scnRecords] at hok
    split at hok
    · cases hok
    · cases hok
      exact .done hy (by omega) rfl
  | [b], p, x, y, deep, img, _, _, hok => by cases hok
  | c :: n :: rest, p, x, y, deep, img, hx, _, hok => by
    rw [scnRecords] at hok
    split at hok
    · next hn =>
      subst hn
      split at hok
      · cases hok
      · next hc =>
        obtain rfl : c = 0 := not_not.1 hc
        split at hok
        · cases hok
        · next hy =>
          have hdecodes := of_scnRecords rest (Nat.zero_le w) (by omega) hok
          exact .record (by omega) hx (by simpa [scnAfter, scnPaint] using hdecodes)
    · next hn =>
      split at hok
      · cases hok
      · next hy =>
        split at hok
        · cases hok
        · next hfits =>
          have hdecodes := of_scnRecords rest (by omega) (by omega) hok
          exact .record (by omega) (by omega) (by rwa [scnAfter_run hn])

theorem ScnDecodes.of_scnStandard {frame img : List Byte} {w h : Nat} {deep wrap : Bool}
    (hok : scnStandard frame w h = (img, .ok deep wrap)) :
    ScnDecodes w h img deep wrap frame 0 0 false (List.replicate (w * h) 0) :=
  .of_scnRecords frame (Nat.zero_le w) (Nat.zero_le h) hok

/-! ### What a decoded frame tells (R174, R175, R176) -/

/-- Some record's control byte does not fit four bits (R175). -/
def ScnHasDeep (records : List Byte) : Prop :=
  ∃ j, 2 * j + 1 < records.length ∧ (records.getD (2 * j) 0).toNat > 0x0F

/-- Record `j + 1` of some records is record `j` of those behind the first. -/
theorem record_index_succ_lt (c n : Byte) (rest : List Byte) (j : Nat) :
    2 * (j + 1) + 1 < (c :: n :: rest).length ↔ 2 * j + 1 < rest.length := by
  simp only [List.length_cons]
  omega

theorem not_scnHasDeep_nil : ¬ ScnHasDeep [] := fun ⟨_, hj, _⟩ => absurd hj (Nat.not_lt_zero _)

theorem scnHasDeep_cons (c n : Byte) (rest : List Byte) :
    ScnHasDeep (c :: n :: rest) ↔ c.toNat > 0x0F ∨ ScnHasDeep rest := by
  unfold ScnHasDeep
  rw [← Nat.or_exists_add_one]
  simp only [record_index_succ_lt]
  simp only [Nat.mul_add, Nat.mul_one, Nat.mul_zero, List.getD_cons_succ, List.getD_cons_zero]
  simp

section

variable {w h : Nat} {final records img : List Byte} {deepEnd wrap deep : Bool} {y x : Nat}

theorem ScnDecodes.even_length (hd : ScnDecodes w h final deepEnd wrap records y x deep img) : records.length % 2 = 0 := by
  induction hd with
  | done => rfl
  | record _ _ _ ih => simp only [List.length_cons]; omega

theorem ScnDecodes.deep_iff (hd : ScnDecodes w h final deepEnd wrap records y x deep img) :
    deepEnd = true ↔ deep = true ∨ ScnHasDeep records := by
  induction hd with
  | done => simp only [not_scnHasDeep_nil, or_false]
  | record _ _ _ ih => rw [ih, scnHasDeep_cons, Bool.or_eq_true, decide_eq_true_eq, or_assoc]

/-- The records end on the last row, or, behind a trailing marker, on the row after it. -/
theorem ScnDecodes.last_row (hd : ScnDecodes w h final deepEnd wrap records y x deep img) :
    (scnCursor records y x).1 ≤ h ∧ h ≤ (scnCursor records y x).1 + 1 ∧ wrap = decide ((scnCursor records y x).1 = h) := by
  induction hd with
  | done hrow hlast hwrap => exact ⟨hrow, hlast, hwrap⟩
  | record _ _ _ ih => rwa [scnCursor_cons]

end

/-- Settles O36, by induction on the records of the frame. -/
theorem scnDepthAndMarker : Obligations.ScnDepthAndMarker := by
  intro frame img w h deep wrap hok
  have hd := ScnDecodes.of_scnStandard hok
  have hlen := scnDecode_length .standard frame w h
  rw [show scnDecode .standard frame w h = _ from hok] at hlen
  obtain ⟨hrow, hlast, hwrap⟩ := hd.last_row
  refine ⟨hlen, hd.even_length, ?_, fun hw => ?_, fun hw => ?_⟩
  · have hdeep := hd.deep_iff
    exact hdeep.trans (or_iff_right Bool.false_ne_true)
  · exact of_decide_eq_true (hwrap.symm.trans hw)
  · have hne := of_decide_eq_false (hwrap.symm.trans hw)
    omega

/-! ### What a decoded frame shows (R174) -/

/-- Some record covers pixel `p` of the image and has control byte `v`, for records that begin at column `x` of row `y`. -/
def ScnCovers (w : Nat) (records : List Byte) (y x p : Nat) (v : Byte) : Prop :=
  ∃ j, 2 * j + 1 < records.length ∧ records.getD (2 * j) 0 = v ∧
    ∃ i, i < (records.getD (2 * j + 1) 0).toNat ∧
      p = (scnCursor (records.take (2 * j)) y x).1 * w + (scnCursor (records.take (2 * j)) y x).2 + i

theorem not_scnCovers_nil (w y x p : Nat) (v : Byte) : ¬ ScnCovers w [] y x p v :=
  fun ⟨_, hj, _⟩ => absurd hj (Nat.not_lt_zero _)

theorem exists_offset_iff (q n p : Nat) : (∃ i, i < n ∧ p = q + i) ↔ q ≤ p ∧ p < q + n :=
  ⟨fun ⟨_, hi, hp⟩ => by omega, fun hp => ⟨p - q, by omega, by omega⟩⟩

/-- The first record covers the pixels of its run, and the others cover what they cover from where it leaves off. -/
theorem scnCovers_cons (w : Nat) (c n : Byte) (rest : List Byte) (y x p : Nat) (v : Byte) :
    ScnCovers w (c :: n :: rest) y x p v ↔
      (c = v ∧ y * w + x ≤ p ∧ p < y * w + x + n.toNat) ∨ ScnCovers w rest (scnAfter n y x).1 (scnAfter n y x).2 p v := by
  unfold ScnCovers
  rw [← Nat.or_exists_add_one]
  simp only [exists_offset_iff, record_index_succ_lt]
  simp only [Nat.mul_add, Nat.mul_one, Nat.mul_zero, Nat.add_right_comm _ 2 1,
    List.take_succ_cons, List.take_zero, scnCursor_cons, scnCursor, List.getD_cons_succ, List.getD_cons_zero]
  simp

theorem getD_paintRun {img : List Byte} {pos n : Nat} (c : Byte) (hfits : pos + n ≤ img.length) (p : Nat) :
    (paintRun img pos n c).getD p 1 = if pos ≤ p ∧ p < pos + n then c else img.getD p 1 := by
  simp only [paintRun, List.getD_eq_getElem?_getD, List.getElem?_append, List.length_append, List.length_take,
    List.length_replicate, List.getElem?_take, List.getElem?_replicate, List.getElem?_drop]
  have hmin : min pos img.length = pos := by omega
  rw [hmin]
  rcases Nat.lt_or_ge p pos with hlt | hge
  · rw [if_pos (by omega), if_pos hlt, if_pos hlt, if_neg (by omega)]
  · rcases Nat.lt_or_ge p (pos + n) with hin | hout
    · rw [if_pos hin, if_neg (by omega), if_pos (by omega), if_pos ⟨hge, hin⟩, Option.getD_some]
    · rw [if_neg (by omega), if_neg (by omega), show pos + n + (p - (pos + n)) = p by omega]

theorem scnPaint_length {img : List Byte} {pos : Nat} {n : Byte} (c : Byte) (hfits : pos + n.toNat ≤ img.length) :
    (scnPaint img pos n c).length = img.length := by
  unfold scnPaint
  split
  · exact paintRun_length img pos n.toNat c hfits
  · rfl

/-- Every pixel after a record that begins where the image is still background: a skip leaves the background, which is its
control byte too. -/
theorem getD_scnPaint {img : List Byte} {pos : Nat} {n : Byte} (c : Byte) (hfits : pos + n.toNat ≤ img.length)
    (hblank : ∀ p, pos ≤ p → p < img.length → img.getD p 1 = 0) (p : Nat) :
    (scnPaint img pos n c).getD p 1 = if pos ≤ p ∧ p < pos + n.toNat then c else img.getD p 1 := by
  by_cases hc : c = 0
  · rw [scnPaint, if_neg (not_not.2 hc)]
    split
    · next hin => rw [hblank p hin.1 (by omega), hc]
    · rfl
  · rw [scnPaint, if_pos hc, getD_paintRun c hfits]

/-- What decoding some records from a place on leaves in the final image, where the image is background from that place on: the
pixels before it stay, a covered pixel has its record's control byte, and the others stay background. -/
structure ScnShows (w h : Nat) (final records : List Byte) (y x : Nat) (img : List Byte) : Prop where
  before : ∀ p, p < y * w + x → final.getD p 1 = img.getD p 1
  covered : ∀ p v, ScnCovers w records y x p v → final.getD p 1 = v
  background : ∀ p, y * w + x ≤ p → p < w * h → (∀ v, ¬ ScnCovers w records y x p v) → final.getD p 1 = 0

theorem ScnDecodes.shows {w h : Nat} {final records img : List Byte} {deepEnd wrap deep : Bool} {y x : Nat}
    (hd : ScnDecodes w h final deepEnd wrap records y x deep img) (hlen : img.length = w * h)
    (hblank : ∀ p, y * w + x ≤ p → p < img.length → img.getD p 1 = 0) : ScnShows w h final records y x img := by
  induction hd with
  | done =>
    exact ⟨fun _ _ => rfl, fun p v hp => absurd hp (not_scnCovers_nil _ _ _ _ _), fun p hp hin _ => hblank p hp (by omega)⟩
  | @record c n rest y x deep img hrow hcol hrest ih =>
    have hfits : y * w + x + n.toNat ≤ img.length := by
      have hrows : (y + 1) * w ≤ h * w := Nat.mul_le_mul_right w hrow
      rw [hlen, Nat.mul_comm w h]
      rw [Nat.add_one_mul] at hrows
      omega
    have hplace := scnAfter_place hcol y
    have hpaint := getD_scnPaint c hfits hblank
    have hlen' := scnPaint_length c hfits
    obtain ⟨hbefore, hcovered, hbackground⟩ := ih (hlen'.trans hlen) fun p hp hin => by
      rw [hpaint, if_neg (by omega), hblank p (by omega) (by omega)]
    refine ⟨fun p hp => ?_, fun p v hp => ?_, fun p hp hin hnone => ?_⟩
    · rw [hbefore p (by omega), hpaint, if_neg (by omega)]
    · rcases (scnCovers_cons ..).1 hp with ⟨rfl, hrun⟩ | hlater
      · rw [hbefore p (by omega), hpaint, if_pos hrun]
      · exact hcovered p v hlater
    · simp only [scnCovers_cons, not_or, not_and] at hnone
      rcases Nat.lt_or_ge p ((scnAfter n y x).1 * w + (scnAfter n y x).2) with hlt | hge
      · rw [hbefore p hlt, hpaint, if_neg fun hrun => (hnone c).1 rfl hrun.1 hrun.2, hblank p hp (by omega)]
      · exact hbackground p hge hin fun v => (hnone v).2

/-- Settles O37: the loop starts on a background image, at the first pixel. -/
theorem scnPixels : Obligations.ScnPixels := by
  intro frame img w h deep wrap hok pos
  obtain ⟨-, hcovered, hbackground⟩ := (ScnDecodes.of_scnStandard hok).shows List.length_replicate fun p _ hp => by
    rw [List.getD_eq_getElem _ _ hp, List.getElem_replicate]
  refine ⟨fun j i hj hi => hcovered _ _ ⟨j, hj, rfl, i, hi, rfl⟩, fun p hp hnone => hbackground p (by omega) hp ?_⟩
  rintro v ⟨j, hj, -, i, hi, hplace⟩
  exact hnone j i hj hi hplace

/-! ### `SCN.DEC` (R171, R172, R173) -/

/-- The tests that `SCN.DEC` makes before it looks at the frame's byte range, passed. -/
structure ScnReady (s : State) : Prop where
  width : s.width ≠ 0
  height : s.height ≠ 0
  table : s.auxLen % 4 = 0
  entry : s.arg < s.auxLen / 4
  room : s.width * s.height ≤ s.dstLen

section

variable {s : State}

theorem scnDecRule_of_no_width (hw : s.width = 0) : scnDecRule s = .preFault .param 6 0 0 := if_pos hw

theorem scnDecRule_of_no_height (hw : s.width ≠ 0) (hh : s.height = 0) : scnDecRule s = .preFault .param 7 0 0 :=
  (if_neg hw).trans (if_pos hh)

theorem scnDecRule_of_partial_entry (hw : s.width ≠ 0) (hh : s.height ≠ 0) (ht : s.auxLen % 4 ≠ 0) :
    scnDecRule s = .preFault .truncated (s.auxLen - s.auxLen % 4 : Nat) 4 (s.auxLen % 4 : Nat) :=
  (if_neg hw).trans ((if_neg hh).trans (if_pos ht))

theorem scnDecRule_of_no_entry (hw : s.width ≠ 0) (hh : s.height ≠ 0) (ht : s.auxLen % 4 = 0) (hk : s.auxLen / 4 ≤ s.arg) :
    scnDecRule s = .preFault .param 9 0 s.arg :=
  (if_neg hw).trans ((if_neg hh).trans ((if_neg (not_not.2 ht)).trans (if_pos hk)))

theorem scnDecRule_of_no_room (hw : s.width ≠ 0) (hh : s.height ≠ 0) (ht : s.auxLen % 4 = 0) (hk : s.arg < s.auxLen / 4)
    (hd : s.dstLen < s.width * s.height) : scnDecRule s = .preFault .lenRange 1 s.dstLen (s.width * s.height : Nat) :=
  (if_neg hw).trans ((if_neg hh).trans ((if_neg (not_not.2 ht)).trans ((if_neg (Nat.not_le.2 hk)).trans (if_pos hd))))

/-- Past its first tests the rule looks at the byte range of the frame. -/
theorem ScnReady.scnDecRule_eq (hr : ScnReady s) :
    scnDecRule s =
      if sle32At s.aux (4 * s.arg) < 0 ∨ scnFrameEnd s s.arg (s.auxLen / 4) < sle32At s.aux (4 * s.arg) ∨
          scnFrameEnd s s.arg (s.auxLen / 4) > s.srcLen then
        .preFault .offset s.arg (sle32At s.aux (4 * s.arg)) (scnFrameEnd s s.arg (s.auxLen / 4))
      else if sle32At s.aux (4 * s.arg) = scnFrameEnd s s.arg (s.auxLen / 4) then
        .preFault .blankFrame s.arg (sle32At s.aux (4 * s.arg)) 0
      else
        scnFrame s s.width s.height (sle32At s.aux (4 * s.arg)).toNat (scnFrameEnd s s.arg (s.auxLen / 4)).toNat := by
  rw [scnDecRule]
  simp only [if_neg hr.width, if_neg hr.height, if_neg (not_not.2 hr.table), if_neg (Nat.not_le.2 hr.entry),
    if_neg (Nat.not_lt.2 hr.room)]

section

variable {start stop : Int} (hr : ScnReady s) (hstart : sle32At s.aux (4 * s.arg) = start)
  (hstop : scnFrameEnd s s.arg (s.auxLen / 4) = stop)

include hr hstart hstop

theorem ScnReady.scnDecRule_of_bad_range (hbad : start < 0 ∨ stop < start ∨ stop > s.srcLen) :
    scnDecRule s = .preFault .offset s.arg start stop := by
  rw [hr.scnDecRule_eq, hstart, hstop, if_pos hbad]

theorem ScnReady.scnDecRule_of_blank (h0 : 0 ≤ start) (heq : start = stop) (hend : stop ≤ s.srcLen) :
    scnDecRule s = .preFault .blankFrame s.arg start 0 := by
  rw [hr.scnDecRule_eq, hstart, hstop, if_neg (by omega), if_pos heq]

theorem ScnReady.scnDecRule_of_frame (h0 : 0 ≤ start) (hlt : start < stop) (hend : stop ≤ s.srcLen) :
    scnDecRule s = scnFrame s s.width s.height start.toNat stop.toNat := by
  rw [hr.scnDecRule_eq, hstart, hstop, if_neg (by omega), if_neg (by omega)]

end

theorem scnFrame_of_ok {w h start stop : Nat} {img : List Byte} {deep wrap : Bool}
    (hdec : scnDecode s.cfg.scn (sliceOf s.src start (stop - start)) w h = (img, .ok deep wrap)) :
    scnFrame s w h start stop = .done (w * h) (stop - start) (if deep then 8 else 4) (if wrap then 1 else 0) none img [] := by
  rw [scnFrame, hdec]

theorem scnFrame_of_bad {w h start stop : Nat} {img : List Byte} {off sub detail : Nat}
    (hdec : scnDecode s.cfg.scn (sliceOf s.src start (stop - start)) w h = (img, .bad off sub detail)) :
    scnFrame s w h start stop = .midFault .scnStream (start + off : Nat) sub detail (w * h) := by
  rw [scnFrame, hdec, Nat.cast_add]

end

/-- Settles O38: the image is the output, and its four results fit their registers. -/
theorem scnDecRuns : Obligations.ScnDecRuns := by
  intro s start stop img deep wrap hr hw hh ht hk hroom hstart hstop hlt hend hdec
  have hready : ScnReady s := ⟨Nat.ne_of_gt hw, Nat.ne_of_gt hh, ht, hk, hroom⟩
  have hrule : ruleOf .scnDec s = .done (s.width * s.height) (stop - start) (if deep then 8 else 4) (if wrap then 1 else 0)
      none img [] :=
    (hready.scnDecRule_of_frame hstart hstop (by omega) (by omega) (by omega)).trans (scnFrame_of_ok hdec)
  have hlen : img.length = s.width * s.height := by
    have himg := scnDecode_length s.cfg.scn ((List.range (stop - start)).map fun j => s.src (start + j)) s.width s.height
    rwa [hdec] at himg
  have hsrc := srcLen_lt s
  obtain ⟨t, hexec, hc, hshort, hbytes, hframe⟩ :=
    exec_done_out (i := .scnDec) rfl (by simp) hr hrule hlen (Nat.lt_of_le_of_lt hroom (dstLen_lt s)) (by omega)
      (by split <;> decide) (by split <;> decide)
  exact ⟨t, hexec, hc, hshort, hlen, hbytes, hframe⟩

/-- Settles O39: the tests of the rule in their order. -/
theorem scnDecFaults : Obligations.ScnDecFaults := by
  intro s hr
  have pre {e i0 i1 i2} (hrule : scnDecRule s = .preFault e i0 i1 i2) := exec_preFault (i := .scnDec) rfl (by simp) hr hrule
  refine ⟨fun hw => pre (scnDecRule_of_no_width hw), fun hw hh => pre (scnDecRule_of_no_height hw hh),
    fun hw hh ht => pre (scnDecRule_of_partial_entry hw hh ht), fun hw hh ht =>
      ⟨fun hk => pre (scnDecRule_of_no_entry hw hh ht hk), fun hk hd => pre (scnDecRule_of_no_room hw hh ht hk hd),
        fun hk hroom => ?_⟩⟩
  have hready : ScnReady s := ⟨hw, hh, ht, hk, hroom⟩
  refine ⟨fun hbad => pre (hready.scnDecRule_of_bad_range rfl rfl hbad),
    fun h0 heq hend => pre (hready.scnDecRule_of_blank rfl rfl h0 heq hend), fun img off sub detail h0 hlt hend hdec => ?_⟩
  rw [Int.toNat_sub'' (h0.trans hlt.le) h0] at hdec
  exact exec_midFault (i := .scnDec) rfl (by simp) hr
    ((hready.scnDecRule_of_frame rfl rfl h0 hlt hend).trans (scnFrame_of_bad hdec))

/-! ### The bitmask loop (R181, R182) -/

section

variable (src : Nat → Byte)

theorem bmkOnes_succ (i : Nat) : bmkOnes src (i + 1) = bmkOnes src i + if bmkMaskBit src i then 1 else 0 := by
  unfold bmkOnes
  rw [List.range_succ, List.filter_append, List.length_append, List.filter_singleton]
  unfold bmkMaskBit
  cases (src (i / 8)).getLsbD (7 - i % 8) <;> rfl

theorem bmkOnes_mono : Monotone (bmkOnes src) :=
  monotone_nat_of_le_succ fun i => (bmkOnes_succ src i).symm ▸ Nat.le_add_right ..

/-- The output byte before position `i`, with the literals at offset `m`: `0x00` before the first. -/
def bmkLast (m : Nat) : Nat → Byte
  | 0 => 0
  | i + 1 => if bmkMaskBit src i then src (m + bmkOnes src i) else bmkLast m i

theorem bmkLast_succ (m i : Nat) :
    bmkLast src m (i + 1) = if bmkMaskBit src i then src (m + bmkOnes src i) else bmkLast src m i := rfl

end

section

variable {src : Nat → Byte} {srcLen left i lp : Nat} {prev : Byte}

theorem bmkBits_repeat (hbit : bmkMaskBit src i = false) :
    bmkBits src srcLen (left + 1) i lp prev =
      (prev :: (bmkBits src srcLen left (i + 1) lp prev).1, (bmkBits src srcLen left (i + 1) lp prev).2) := by
  rw [bmkBits, if_neg (Bool.eq_false_iff.1 hbit)]

theorem bmkBits_literal (hbit : bmkMaskBit src i = true) (hlp : lp < srcLen) :
    bmkBits src srcLen (left + 1) i lp prev =
      (src lp :: (bmkBits src srcLen left (i + 1) (lp + 1) (src lp)).1, (bmkBits src srcLen left (i + 1) (lp + 1) (src lp)).2) := by
  rw [bmkBits, if_pos hbit, if_neg (Nat.not_le.2 hlp)]

theorem bmkBits_exhausted (hbit : bmkMaskBit src i = true) (hlp : srcLen ≤ lp) :
    bmkBits src srcLen (left + 1) i lp prev = ([], .exhausted lp i) := by
  rw [bmkBits, if_pos hbit, if_pos hlp]

/-- The loop that does not run out of literals has read one for each 1 bit, and all of them were there. -/
theorem bmkBits_ok {out : List Byte} {lpEnd m : Nat} (h : bmkBits src srcLen left i (m + bmkOnes src i) prev = (out, .ok lpEnd))
    (hlp : m + bmkOnes src i ≤ srcLen) : m + bmkOnes src (i + left) ≤ srcLen := by
  induction left generalizing i prev out with
  | zero => exact hlp
  | succ left ih =>
    rw [show i + (left + 1) = i + 1 + left by omega]
    have hones := bmkOnes_succ src i
    cases hbit : bmkMaskBit src i with
    | false =>
      rw [bmkBits_repeat hbit] at h
      obtain ⟨-, hend⟩ := Prod.mk.inj h
      simp only [hbit, Bool.false_eq_true, if_false, Nat.add_zero] at hones
      rw [← hones] at hend hlp
      exact ih (Prod.ext rfl hend) hlp
    | true =>
      rcases Nat.lt_or_ge (m + bmkOnes src i) srcLen with hmore | hend
      · rw [bmkBits_literal hbit hmore] at h
        obtain ⟨-, hend⟩ := Prod.mk.inj h
        simp only [hbit, if_true] at hones
        rw [Nat.add_assoc, ← hones] at hend
        exact ih (Prod.ext rfl hend) (by omega)
      · rw [bmkBits_exhausted hbit hend] at h
        cases h

/-- With a literal for each 1 bit the loop delivers, at each position, the byte that stands before the next one. -/
theorem bmkBits_complete {m : Nat} (hlit : m + bmkOnes src (i + left) ≤ srcLen) :
    bmkBits src srcLen left i (m + bmkOnes src i) (bmkLast src m i) =
      ((List.range' i left).map fun k => bmkLast src m (k + 1), .ok (m + bmkOnes src (i + left))) := by
  induction left generalizing i with
  | zero => rfl
  | succ left ih =>
    rw [show i + (left + 1) = i + 1 + left by omega] at hlit ⊢
    have hones := bmkOnes_succ src i
    have hlast := bmkLast_succ src m i
    have hrest := ih hlit
    rw [List.range'_succ, List.map_cons]
    cases hbit : bmkMaskBit src i with
    | false =>
      simp only [hbit, Bool.false_eq_true, if_false, Nat.add_zero] at hones hlast
      rw [hones, hlast] at hrest
      rw [bmkBits_repeat hbit, hrest, hlast]
    | true =>
      simp only [hbit, if_true] at hones hlast
      have hmore := bmkOnes_mono src (Nat.le_add_right (i + 1) left)
      rw [hones, hlast, ← Nat.add_assoc] at hrest
      rw [bmkBits_literal hbit (by omega), hrest, hlast]

end

theorem bmkStandard_of_mask {src : Nat → Byte} {srcLen n : Nat} (h : ceilDiv n 8 ≤ srcLen) :
    bmkStandard src srcLen n = bmkBits src srcLen n 0 (ceilDiv n 8) 0 :=
  if_neg (Nat.not_lt.2 h)

theorem bmkStandard_complete {src : Nat → Byte} {srcLen n : Nat} (h : ceilDiv n 8 + bmkOnes src n ≤ srcLen) :
    bmkStandard src srcLen n =
      ((List.range n).map fun k => bmkLast src (ceilDiv n 8) (k + 1), .ok (ceilDiv n 8 + bmkOnes src n)) := by
  have hloop := bmkBits_complete (src := src) (srcLen := srcLen) (left := n) (i := 0) (m := ceilDiv n 8)
    (by rwa [Nat.zero_add])
  rw [Nat.zero_add, ← List.range_eq_range'] at hloop
  exact (bmkStandard_of_mask (by omega)).trans hloop

theorem bmkStandard_ok {src : Nat → Byte} {srcLen n : Nat} {out : List Byte} {lp : Nat}
    (h : bmkStandard src srcLen n = (out, .ok lp)) : ceilDiv n 8 + bmkOnes src n ≤ srcLen := by
  rcases Nat.lt_or_ge srcLen (ceilDiv n 8) with hshort | hmask
  · rw [bmkStandard, if_pos hshort] at h
    cases h
  · rw [bmkStandard_of_mask hmask] at h
    have hlit := bmkBits_ok (i := 0) (m := ceilDiv n 8) h hmask
    rwa [Nat.zero_add] at hlit

/-- Settles O40: a decode that succeeds is the one of `bmkStandard_complete`. -/
theorem bmkLayout : Obligations.BmkLayout := by
  intro src srcLen n
  refine ⟨⟨fun ⟨out, lp, h⟩ => bmkStandard_ok h, fun h => ⟨_, _, bmkStandard_complete h⟩⟩, fun out lp h => ?_⟩
  rw [bmkStandard_complete (bmkStandard_ok h)] at h
  cases h
  refine ⟨by rw [List.length_map, List.length_range], rfl, fun i hi => ?_⟩
  rw [List.getElem_map, List.getElem_range]
  have hprev : bmkLast src (ceilDiv n 8) i =
      if i = 0 then 0x00 else ((List.range n).map fun k => bmkLast src (ceilDiv n 8) (k + 1)).getD (i - 1) 0 := by
    cases i with
    | zero => rfl
    | succ j => rw [if_neg (Nat.succ_ne_zero j), Nat.add_sub_cancel, List.getD_eq_getElem _ _ (Nat.lt_of_succ_lt hi),
        List.getElem_map, List.getElem_range]
  rw [← hprev]
  exact bmkLast_succ ..

/-! ### `BMK.DEC` (R182) -/

/-- Under every layout a successful decode consumes no more than the source (R182, U7). -/
theorem bmkDecode_consumed {g : BmkGrammar} {src : Nat → Byte} {srcLen n : Nat} {out : List Byte} {u : Nat}
    (h : bmkDecode g src srcLen n = (out, .ok u)) : u ≤ srcLen := by
  cases g with
  | standard =>
    have hstd : bmkStandard src srcLen n = (out, .ok u) := h
    obtain ⟨-, hu, -⟩ := (bmkLayout src srcLen n).2 out u hstd
    exact hu ▸ bmkStandard_ok hstd
  | replaced id =>
    simp only [bmkDecode] at h
    split at h
    · cases h
      exact Nat.min_le_right ..
    · next hend =>
      obtain ⟨-, hu⟩ := Prod.mk.inj h
      exact absurd hu (hend u)

/-- Settles O41: the rule by what the configured layout answers. -/
theorem bmkDecRuns : Obligations.BmkDecRuns := by
  intro s out hr
  refine ⟨fun u h => ?_, fun m h => ?_, fun lp i h => ?_⟩
  · have hlen := bmkDecode_length h
    obtain ⟨t, hexec, hc, hshort, hbytes, hframe⟩ :=
      exec_done_out (i := .bmkDec) rfl (by simp) hr (by rw [ruleOf, bmkDecRule, h]) hlen (dstLen_lt s)
        (Nat.lt_of_le_of_lt (bmkDecode_consumed h) (srcLen_lt s)) (by decide) (by decide)
    exact ⟨t, hexec, hc, hshort, hlen, hbytes, hframe⟩
  · exact exec_preFault (i := .bmkDec) rfl (by simp) hr (by rw [ruleOf, bmkDecRule, h])
  · exact exec_midFault (i := .bmkDec) rfl (by simp) hr (by rw [ruleOf, bmkDecRule, h])

end Sys2Proof.Machine

end

/-! ## The bit-width repacker: `PIX.UNPACK`, `PIX.PACK`, `PIX.MERGE` and `PIX.SPLIT`

The round trips rest on one fact for each pair of commands. A byte is put together again from its two nibbles
(`mergeNibbles_toNat`); and each bit of a packed row is one bit of one pixel, the one whose column `columnAt` gives, or a padding
zero (`packedRow_getLsbD`). Each command's next state is said once, byte by byte, and the round trips compose these. -/

section

namespace Sys2Proof.Machine

/-! ### A command that completed -/

/-- A command that ends in `DONE` passed the region check, and its rule raised no pre-check fault. -/
theorem ruleOf_ne_preFault_of_done {i : Instr} {s t : State} (ha : i ≠ .ack) (h : exec i s = .next t) (hd : t.phase = .done) :
    regionFault (rolesOf i) s = none ∧ ∀ e i0 i1 i2, ruleOf i s ≠ .preFault e i0 i1 i2 := by
  rcases exec_cases i s ha with ⟨-, h'⟩ | ⟨j0, j1, j2, -, -, h'⟩ | ⟨-, hr, h'⟩ <;> rw [h'] at h <;> cases h
  · cases hd
  · cases hd
  · refine ⟨hr, fun e i0 i1 i2 hrule => ?_⟩
    rw [hrule] at hd
    cases hd

/-! ### Nibbles (R69) -/

theorem lowNibble_toNat (p : Byte) : (lowNibble p).toNat = p.toNat % 16 :=
  Nat.and_two_pow_sub_one_eq_mod p.toNat 4

theorem highNibble_toNat (p : Byte) : (highNibble p).toNat = p.toNat / 16 :=
  Nat.shiftRight_eq_div_pow p.toNat 4

/-- Nibbles that fit do not meet in the merged byte. -/
theorem mergeNibbles_toNat {low high : Byte} (hl : low.toNat ≤ 15) (hh : high.toNat ≤ 15) :
    (mergeNibbles low high).toNat = 16 * high.toNat + low.toNat := by
  have hshift : (high <<< 4).toNat = high.toNat <<< 4 := by
    rw [BitVec.toNat_shiftLeft, Nat.shiftLeft_eq]
    omega
  rw [mergeNibbles, BitVec.toNat_or, hshift, ← Nat.shiftLeft_add_eq_or_of_lt (i := 4) (by omega), Nat.shiftLeft_eq]
  omega

/-! ### The check of two nibble planes (R199) -/

/-- What the check of both planes answers at one position: the low plane's byte, or the high plane's, or nothing. -/
def nibbleFaultAt (low high : Nat → Byte) (i : Nat) : Option (Nat × Byte) :=
  if (low i).toNat > 0x0F then some (i, low i) else if (high i).toNat > 0x0F then some (i, high i) else none

theorem nibbleFault_eq (low high : Nat → Byte) (n : Nat) :
    nibbleFault low high n = (List.range n).findSome? (nibbleFaultAt low high) := rfl

section

variable {low high : Nat → Byte} {i n : Nat}

theorem nibbleFaultAt_low (h : 15 < (low i).toNat) : nibbleFaultAt low high i = some (i, low i) := if_pos h

theorem nibbleFaultAt_high (hl : (low i).toNat ≤ 15) (h : 15 < (high i).toNat) : nibbleFaultAt low high i = some (i, high i) :=
  (if_neg (Nat.not_lt.2 hl)).trans (if_pos h)

theorem nibbleFaultAt_eq_none_iff : nibbleFaultAt low high i = none ↔ (low i).toNat ≤ 15 ∧ (high i).toNat ≤ 15 := by
  unfold nibbleFaultAt
  split
  · exact iff_of_false (Option.some_ne_none _) (by omega)
  · split
    · exact iff_of_false (Option.some_ne_none _) (by omega)
    · exact iff_of_true rfl (by omega)

theorem nibbleFault_eq_none_iff :
    nibbleFault low high n = none ↔ ∀ j, j < n → (low j).toNat ≤ 15 ∧ (high j).toNat ≤ 15 := by
  simp only [nibbleFault_eq, List.findSome?_eq_none_iff, List.mem_range, nibbleFaultAt_eq_none_iff]

/-- The check answers at the first position where it has an answer. -/
theorem nibbleFault_of_first {p : Nat × Byte} (hi : i < n) (hat : nibbleFaultAt low high i = some p)
    (hbefore : ∀ j, j < i → (low j).toNat ≤ 15 ∧ (high j).toNat ≤ 15) : nibbleFault low high n = some p := by
  obtain ⟨m, rfl⟩ : ∃ m, n = i + (m + 1) := ⟨n - i - 1, by omega⟩
  have hnone := nibbleFault_eq_none_iff.2 hbefore
  rw [nibbleFault_eq] at hnone ⊢
  rw [List.range_add, List.findSome?_append, hnone, Option.none_or, List.range_succ_eq_map, List.map_cons,
    Nat.add_zero,
    List.findSome?_cons, hat]

end

/-! ### `PIX.MERGE` (R199) -/

section

variable {s : State}

theorem pixMergeRule_of_mismatch (h : s.auxLen ≠ s.srcLen) : pixMergeRule s = .preFault .lenMismatch 0 s.srcLen s.auxLen :=
  if_pos h

theorem pixMergeRule_of_no_room (hlen : s.auxLen = s.srcLen) (h : s.dstLen < s.srcLen) :
    pixMergeRule s = .preFault .lenRange 1 s.dstLen s.srcLen :=
  (if_neg (not_not.2 hlen)).trans (if_pos h)

theorem pixMergeRule_of_wide {i : Nat} {b : Byte} (hlen : s.auxLen = s.srcLen) (hroom : s.srcLen ≤ s.dstLen)
    (h : nibbleFault s.src s.aux s.srcLen = some (i, b)) : pixMergeRule s = .preFault .pixRange i 15 b.toNat := by
  simp only [pixMergeRule, if_neg (not_not.2 hlen), if_neg (Nat.not_lt.2 hroom), h]

theorem pixMergeRule_of_nibbles (hlen : s.auxLen = s.srcLen) (hroom : s.srcLen ≤ s.dstLen)
    (h : ∀ j, j < s.srcLen → (s.src j).toNat ≤ 15 ∧ (s.aux j).toNat ≤ 15) :
    pixMergeRule s =
      .done s.srcLen 0 0 0 none ((List.range s.srcLen).map fun j => mergeNibbles (s.src j) (s.aux j)) [] := by
  simp only [pixMergeRule, if_neg (not_not.2 hlen), if_neg (Nat.not_lt.2 hroom), nibbleFault_eq_none_iff.2 h]

/-- What a `PIX.MERGE` that completed checked. -/
theorem pixMerge_checked (h : ∀ e i0 i1 i2, pixMergeRule s ≠ .preFault e i0 i1 i2) :
    s.auxLen = s.srcLen ∧ s.srcLen ≤ s.dstLen ∧ ∀ j, j < s.srcLen → (s.src j).toNat ≤ 15 ∧ (s.aux j).toNat ≤ 15 := by
  have hlen : s.auxLen = s.srcLen := by_contra fun hne => h _ _ _ _ (pixMergeRule_of_mismatch hne)
  have hroom : s.srcLen ≤ s.dstLen := Nat.not_lt.1 fun hlt => h _ _ _ _ (pixMergeRule_of_no_room hlen hlt)
  refine ⟨hlen, hroom, nibbleFault_eq_none_iff.1 (Option.eq_none_iff_forall_ne_some.2 fun ⟨i, b⟩ hb => ?_)⟩
  exact h _ _ _ _ (pixMergeRule_of_wide hlen hroom hb)

end

/-- Settles O52: the rule's tests in their order, then the merged bytes. -/
theorem pixMergeRuns : Obligations.PixMergeRuns := by
  intro s hr
  have pre {e i0 i1 i2} (hrule : pixMergeRule s = .preFault e i0 i1 i2) := exec_preFault (i := .pixMerge) rfl (by simp) hr hrule
  refine ⟨fun h => pre (pixMergeRule_of_mismatch h), fun hlen h => pre (pixMergeRule_of_no_room hlen h),
    fun i hlen hroom hi hbefore => ⟨fun hlow => ?_, fun hlow hhigh => ?_⟩, fun hlen hroom hfit => ?_⟩
  · exact pre (pixMergeRule_of_wide hlen hroom (nibbleFault_of_first hi (nibbleFaultAt_low hlow) hbefore))
  · exact pre (pixMergeRule_of_wide hlen hroom (nibbleFault_of_first hi (nibbleFaultAt_high hlow hhigh) hbefore))
  · obtain ⟨t, hexec, hc, hshort, hbytes, hframe⟩ :=
      exec_done (i := .pixMerge) rfl (by simp) hr (pixMergeRule_of_nibbles hlen hroom hfit) (srcLen_lt s) (by decide) (by decide)
        (by decide)
    simp only [List.length_map, List.length_range, List.getElem_map, List.getElem_range] at hbytes hframe
    refine ⟨t, hexec, hc, hshort, fun j hj => ?_, hframe⟩
    obtain ⟨hlow, hhigh⟩ := hfit j hj
    rw [hbytes j hj, mergeNibbles_toNat hlow hhigh]

/-! ### `PIX.SPLIT` (R201) -/

section

variable {s : State}

theorem pixSplitRule_of_no_dst (h : s.dstLen < s.srcLen) : pixSplitRule s = .preFault .lenRange 1 s.dstLen s.srcLen := if_pos h

theorem pixSplitRule_of_no_aux (hdst : s.srcLen ≤ s.dstLen) (h : s.auxLen < s.srcLen) :
    pixSplitRule s = .preFault .lenRange 2 s.auxLen s.srcLen :=
  (if_neg (Nat.not_lt.2 hdst)).trans (if_pos h)

theorem pixSplitRule_of_room (hdst : s.srcLen ≤ s.dstLen) (haux : s.srcLen ≤ s.auxLen) :
    pixSplitRule s = .done s.srcLen 0 0 0 none ((List.range s.srcLen).map fun j => lowNibble (s.src j))
      ((List.range s.srcLen).map fun j => highNibble (s.src j)) :=
  (if_neg (Nat.not_lt.2 hdst)).trans (if_neg (Nat.not_lt.2 haux))

/-- What a `PIX.SPLIT` that completed checked. -/
theorem pixSplit_checked (h : ∀ e i0 i1 i2, pixSplitRule s ≠ .preFault e i0 i1 i2) :
    s.srcLen ≤ s.dstLen ∧ s.srcLen ≤ s.auxLen := by
  have hdst : s.srcLen ≤ s.dstLen := Nat.not_lt.1 fun hlt => h _ _ _ _ (pixSplitRule_of_no_dst hlt)
  exact ⟨hdst, Nat.not_lt.1 fun hlt => h _ _ _ _ (pixSplitRule_of_no_aux hdst hlt)⟩

end

/-- Settles O53: the two capacity tests, then both planes. -/
theorem pixSplitRuns : Obligations.PixSplitRuns := by
  intro s hr
  have pre {e i0 i1 i2} (hrule : pixSplitRule s = .preFault e i0 i1 i2) := exec_preFault (i := .pixSplit) rfl (by simp) hr hrule
  refine ⟨fun h => pre (pixSplitRule_of_no_dst h), fun hdst h => pre (pixSplitRule_of_no_aux hdst h), fun hdst haux => ?_⟩
  obtain ⟨t, hexec, hc, hshort, hlow, hhigh, hframe⟩ :=
    exec_done_both (i := .pixSplit) rfl (by simp) hr (pixSplitRule_of_room hdst haux) (by simp [rolesOf]) (by simp [rolesOf])
      (srcLen_lt s) (by decide) (by decide) (by decide)
  simp only [List.length_map, List.length_range, List.getElem_map, List.getElem_range] at hlow hhigh hframe
  refine ⟨t, hexec, hc, hshort, fun j hj => ⟨?_, ?_⟩, hframe⟩
  · rw [hlow j hj, lowNibble_toNat]
  · rw [hhigh j hj, highNibble_toNat]

/-- Settles O54: the second command reads the bytes that `pixSplitRuns` or `pixMergeRuns` says the first one wrote. -/
theorem splitAndMergeAreInverse : Obligations.SplitAndMergeAreInverse := by
  refine ⟨fun s t u h hd hmem hsrc haux hlen hlenAux hroom hru => ?_, fun s t u h hd hmem hsrc hlen hroom hroomAux hru => ?_⟩
  · obtain ⟨hr, hrule⟩ := ruleOf_ne_preFault_of_done (by simp) h hd
    obtain ⟨hdst, hauxLen⟩ := pixSplit_checked hrule
    obtain ⟨-, -, hsplit⟩ := pixSplitRuns s hr
    obtain ⟨t', h', -, -, hplanes, -⟩ := hsplit hdst hauxLen
    rw [h] at h'
    cases h'
    have hlow (j : Nat) (hj : j < s.srcLen) : (u.src j).toNat = (s.src j).toNat % 16 := by
      rw [State.src, hsrc, hmem, (hplanes j hj).1]
    have hhigh (j : Nat) (hj : j < s.srcLen) : (u.aux j).toNat = (s.src j).toNat / 16 := by
      rw [State.aux, haux, hmem, (hplanes j hj).2]
    obtain ⟨-, -, -, hmerge⟩ := pixMergeRuns u hru
    obtain ⟨v, hv, ⟨-, hvd, -⟩, -, hbytes, -⟩ := hmerge (hlenAux.trans hlen.symm) (hlen ▸ hroom) fun j hj => by
      rw [hlow j (hlen ▸ hj), hhigh j (hlen ▸ hj)]
      have := (s.src j).isLt
      omega
    refine ⟨v, hv, hvd, fun j hj => BitVec.eq_of_toNat_eq ?_⟩
    rw [hbytes j (hlen.symm ▸ hj), hlow j hj, hhigh j hj]
    omega
  · obtain ⟨hr, hrule⟩ := ruleOf_ne_preFault_of_done (by simp) h hd
    obtain ⟨hlenAux, hdst, hfit⟩ := pixMerge_checked hrule
    obtain ⟨-, -, -, hmerge⟩ := pixMergeRuns s hr
    obtain ⟨t', h', -, -, hmerged, -⟩ := hmerge hlenAux hdst hfit
    rw [h] at h'
    cases h'
    have hread (j : Nat) (hj : j < s.srcLen) : (u.src j).toNat = 16 * (s.aux j).toNat + (s.src j).toNat := by
      rw [State.src, hsrc, hmem, hmerged j hj]
    obtain ⟨-, -, hsplit⟩ := pixSplitRuns u hru
    obtain ⟨v, hv, ⟨-, hvd, -⟩, -, hplanes, -⟩ := hsplit (hlen ▸ hroom) (hlen ▸ hroomAux)
    refine ⟨v, hv, hvd, fun j hj => BitVec.eq_of_toNat_eq ?_, fun j hj => BitVec.eq_of_toNat_eq ?_⟩
    · have := hfit j hj
      rw [(hplanes j (hlen.symm ▸ hj)).1, hread j hj]
      omega
    · have := hfit j hj
      rw [(hplanes j (hlen.symm ▸ hj)).2, hread j hj]
      omega

/-! ### Depths, columns and bits (R190) -/

/-- A byte that fits `d` bits has no bit above them. -/
theorem getLsbD_of_fits {v : Byte} {d j : Nat} (hv : v.toNat < 2 ^ d) (hj : d ≤ j) : v.getLsbD j = false :=
  Nat.testBit_lt_two_pow (Nat.lt_of_lt_of_le hv (Nat.pow_le_pow_right (by decide) hj))

/-- A legal depth as a number (R94). -/
def IsDepth (d : Nat) : Prop := d = 1 ∨ d = 2 ∨ d = 4 ∨ d = 8

theorem isDepth_of_legalBpp {bpp : BitVec 4} (h : legalBpp bpp = true) : IsDepth bpp.toNat := by
  rcases legalBpp_cases h with rfl | rfl | rfl | rfl <;> simp [IsDepth]

/-- The column of the pixel that has bit `k` of byte `b` of a packed row. -/
def columnAt (d : Nat) (be : Bool) (b k : Nat) : Nat := (8 * b + if be then 7 - k else k) / d

section

variable {d : Nat}

theorem IsDepth.pos (hd : IsDepth d) : 0 < d := by
  unfold IsDepth at hd
  omega

theorem IsDepth.le (hd : IsDepth d) : d ≤ 8 := by
  unfold IsDepth at hd
  omega

/-- A pixel does not leave its byte. -/
theorem IsDepth.pixShift_add_le (hd : IsDepth d) (x : Nat) (be : Bool) : pixShift x d be + d ≤ 8 := by
  unfold pixShift
  rcases hd with rfl | rfl | rfl | rfl <;> cases be <;> simp only [Bool.false_eq_true, if_false, if_true] <;> omega

/-- Bit `k` of byte `b` belongs to the pixel whose byte and shift R190 gives. -/
theorem IsDepth.columnAt_eq_iff (hd : IsDepth d) (be : Bool) {b k x : Nat} (hk : k < 8) :
    columnAt d be b k = x ↔ x * d / 8 = b ∧ pixShift x d be ≤ k ∧ k < pixShift x d be + d := by
  unfold columnAt pixShift
  rcases hd with rfl | rfl | rfl | rfl <;> cases be <;> simp only [Bool.false_eq_true, if_false, if_true] <;> omega

/-- A pixel that fits, moved to its place, is in its byte what it is, and 0 in the bits of the other columns. -/
theorem IsDepth.shifted_getLsbD (hd : IsDepth d) (be : Bool) {v : Byte} (hv : v.toNat < 2 ^ d) {x k : Nat} (hk : k < 8) :
    (v <<< pixShift x d be).getLsbD k = (decide (columnAt d be (x * d / 8) k = x) && v.getLsbD (k - pixShift x d be)) := by
  rw [BitVec.getLsbD_shiftLeft, decide_eq_true hk, Bool.true_and]
  by_cases hcol : columnAt d be (x * d / 8) k = x
  · obtain ⟨-, hlow, -⟩ := (hd.columnAt_eq_iff be hk).1 hcol
    rw [decide_eq_true hcol, decide_eq_false (Nat.not_lt.2 hlow)]
    rfl
  · rw [decide_eq_false hcol, Bool.false_and]
    rcases Nat.lt_or_ge k (pixShift x d be) with hlow | hlow
    · rw [decide_eq_true hlow]
      rfl
    · have hhigh : d ≤ k - pixShift x d be := by
        by_contra hlt
        exact hcol ((hd.columnAt_eq_iff be hk).2 ⟨rfl, hlow, by omega⟩)
      rw [getLsbD_of_fits hv hhigh, Bool.and_false]

/-- The byte of a column lies in its row. -/
theorem IsDepth.byte_lt_minStride (hd : IsDepth d) {x w : Nat} (hx : x < w) : x * d / 8 < minStride w d := by
  have hcol : (x + 1) * d ≤ w * d := Nat.mul_le_mul_right d hx
  rw [Nat.succ_mul] at hcol
  have := hd.pos
  rw [minStride, ceilDiv]
  omega

/-- A row has no more bytes than pixels. -/
theorem IsDepth.minStride_le (hd : IsDepth d) (w : Nat) : minStride w d ≤ w := by
  have := Nat.mul_le_mul_left w hd.le
  rw [minStride, ceilDiv]
  omega

/-! ### A packed row (R195) -/

theorem orInto_getD {row : List Byte} {b : Nat} (hb : b < row.length) (i : Nat) (v : Byte) :
    (orInto row i v).getD b 0 = if i = b then row.getD b 0 ||| v else row.getD b 0 := by
  rw [orInto, List.getD_eq_getElem _ _ (by rwa [List.length_modify]), List.getElem_modify, List.getD_eq_getElem _ _ hb]

section

variable {src : Nat → Byte} {pos m : Nat}

theorem packedRow_succ (w : Nat) (be : Bool) :
    packedRow src pos (w + 1) m d be =
      orInto (packedRow src pos w m d be) (w * d / 8) (src (pos + w) <<< pixShift w d be) := by
  rw [packedRow, List.range_succ, List.foldl_append]
  rfl

/-- Each bit of a packed row: the bit of the pixel of its column, or 0 behind the last pixel (R190, R195, R196). -/
theorem packedRow_getLsbD (hd : IsDepth d) (be : Bool) {w b k : Nat} (hfit : ∀ x, x < w → (src (pos + x)).toNat < 2 ^ d)
    (hb : b < m) (hk : k < 8) :
    ((packedRow src pos w m d be).getD b 0).getLsbD k =
      (decide (columnAt d be b k < w) && (src (pos + columnAt d be b k)).getLsbD (k - pixShift (columnAt d be b k) d be)) := by
  induction w with
  | zero =>
    rw [packedRow, List.range_zero, List.foldl_nil, List.getD_eq_getElem _ _ (by rwa [List.length_replicate]),
      List.getElem_replicate, decide_eq_false (Nat.not_lt_zero _), Bool.false_and]
    exact BitVec.getLsbD_zero
  | succ w ih =>
    have hrow := ih fun x hx => hfit x (Nat.lt_succ_of_lt hx)
    rw [packedRow_succ, orInto_getD (by rwa [packedRow_length])]
    by_cases hbyte : w * d / 8 = b
    · rw [if_pos hbyte, BitVec.getLsbD_or, hrow, hd.shifted_getLsbD be (hfit w (Nat.lt_succ_self w)) hk, hbyte]
      by_cases hcol : columnAt d be b k = w
      · simp [hcol]
      · have hlt : columnAt d be b k < w + 1 ↔ columnAt d be b k < w := by omega
        simp [hcol, hlt]
    · have hcol : columnAt d be b k ≠ w := fun h => hbyte ((hd.columnAt_eq_iff be hk).1 h).1
      have hlt : columnAt d be b k < w + 1 ↔ columnAt d be b k < w := by omega
      rw [if_neg hbyte, hrow, decide_eq_decide.2 hlt]

/-- The padding bits of a row are 0 (R196). -/
theorem packedRow_padding (hd : IsDepth d) {be : Bool} {w b k : Nat} (hfit : ∀ x, x < w → (src (pos + x)).toNat < 2 ^ d)
    (hb : b < m) (hk : k < 8) (hpad : w ≤ columnAt d be b k) : ((packedRow src pos w m d be).getD b 0).getLsbD k = false := by
  rw [packedRow_getLsbD hd be hfit hb hk, decide_eq_false (Nat.not_lt.2 hpad), Bool.false_and]

end

/-! ### Reading a packed pixel (R192) -/

theorem pixMask_lt (hd : IsDepth d) : pixMask d < 256 := by
  rcases hd with rfl | rfl | rfl | rfl <;> decide

theorem packedPixel_toNat (hd : IsDepth d) (src : Nat → Byte) (row x : Nat) (be : Bool) :
    (packedPixel src row x d be).toNat = (src (row + x * d / 8)).toNat / 2 ^ pixShift x d be % 2 ^ d := by
  rw [packedPixel, BitVec.toNat_and, BitVec.toNat_ofNat, Nat.mod_eq_of_lt (pixMask_lt hd), pixMask,
    Nat.and_two_pow_sub_one_eq_mod, BitVec.toNat_ushiftRight, Nat.shiftRight_eq_div_pow]

theorem packedPixel_getLsbD (hd : IsDepth d) (src : Nat → Byte) (row x : Nat) (be : Bool) (j : Nat) :
    (packedPixel src row x d be).getLsbD j =
      (decide (j < d) && (src (row + x * d / 8)).getLsbD (pixShift x d be + j)) := by
  have hmask : (BitVec.ofNat 8 (pixMask d)).getLsbD j = decide (j < d) := by
    rw [BitVec.getLsbD, BitVec.toNat_ofNat, Nat.mod_eq_of_lt (pixMask_lt hd), pixMask, Nat.testBit_two_pow_sub_one]
  rw [packedPixel, BitVec.getLsbD_and, BitVec.getLsbD_ushiftRight, hmask, Bool.and_comm]

/-- A pixel read from where its row was packed is the pixel (R197). -/
theorem packedPixel_of_packedRow (hd : IsDepth d) {be : Bool} {src q : Nat → Byte} {pos row w x : Nat}
    (hfit : ∀ x, x < w → (src (pos + x)).toNat < 2 ^ d) (hx : x < w)
    (hread : q (row + x * d / 8) = (packedRow src pos w (minStride w d) d be).getD (x * d / 8) 0) :
    packedPixel q row x d be = src (pos + x) := by
  refine BitVec.eq_of_getLsbD_eq fun j _ => ?_
  rw [packedPixel_getLsbD hd, hread]
  rcases Nat.lt_or_ge j d with hj | hj
  · have hbit := hd.pixShift_add_le x be
    have hcol : columnAt d be (x * d / 8) (pixShift x d be + j) = x :=
      (hd.columnAt_eq_iff be (by omega)).2 ⟨rfl, by omega, by omega⟩
    rw [packedRow_getLsbD hd be hfit (hd.byte_lt_minStride hx) (by omega), hcol, decide_eq_true hj, decide_eq_true hx,
      Nat.add_sub_cancel_left, Bool.true_and, Bool.true_and]
  · rw [decide_eq_false (Nat.not_lt.2 hj), Bool.false_and, getLsbD_of_fits (hfit x hx) hj]

end

/-! ### Images row by row (R192, R195) -/

/-- Byte `x` of row `y` of an image is byte `y * m + x` of its rows of `m` bytes. -/
theorem rows_getD {f : Nat → List Byte} {n m y x : Nat} (h : ∀ y, y < n → (f y).length = m) (hy : y < n) (hx : x < m) :
    ((List.range n).flatMap f).getD (y * m + x) 0 = (f y).getD x 0 := by
  rw [List.getD_eq_getElem?_getD, flatMap_getElem? f n m h y x hy hx, List.getD_eq_getElem?_getD]

theorem cell_lt {w h x y : Nat} (hx : x < w) (hy : y < h) : y * w + x < w * h := by
  have hrow : (y + 1) * w ≤ h * w := Nat.mul_le_mul_right w hy
  rw [Nat.succ_mul] at hrow
  rw [Nat.mul_comm w h]
  omega

theorem unpackedImage_getD (src : Nat → Byte) {w h x y : Nat} (st d : Nat) (be : Bool) (hx : x < w) (hy : y < h) :
    (unpackedImage src w h st d be).getD (y * w + x) 0 = packedPixel src (y * st) x d be := by
  rw [unpackedImage, rows_getD (by simp) hy hx, List.getD_eq_getElem _ _ (by simpa using hx), List.getElem_map,
    List.getElem_range]

theorem packedImage_getD (src : Nat → Byte) {w h m b y : Nat} (d : Nat) (be : Bool) (hb : b < m) (hy : y < h) :
    (packedImage src w h m d be).getD (y * m + b) 0 = (packedRow src (y * w) w m d be).getD b 0 :=
  rows_getD (fun _ _ => packedRow_length ..) hy hb

/-- Packed rows without gaps need no more than their bytes (R192). -/
theorem rowsNeed_packed_le (w h m : Nat) : rowsNeed w h m m ≤ m * h := by
  unfold rowsNeed
  split
  · next hpos =>
    obtain ⟨k, rfl⟩ : ∃ k, h = k + 1 := ⟨h - 1, by omega⟩
    rw [Nat.add_sub_cancel, ← Nat.succ_mul, Nat.mul_comm]
  · exact Nat.zero_le _

/-! ### The range pre-scan (R195) -/

theorem above_pixMask_iff (v d : Nat) : v > pixMask d ↔ 2 ^ d ≤ v := by
  have := Nat.two_pow_pos d
  rw [pixMask]
  omega

theorem firstAbove_eq_none_iff {r : Nat → Byte} {d n : Nat} :
    firstAbove r (pixMask d) n = none ↔ ∀ i, i < n → (r i).toNat < 2 ^ d := by
  simp only [firstAbove, List.find?_eq_none, List.mem_range, decide_eq_true_eq, above_pixMask_iff, Nat.not_le]

theorem firstAbove_eq_some_iff {r : Nat → Byte} {d n i : Nat} :
    firstAbove r (pixMask d) n = some i ↔ 2 ^ d ≤ (r i).toNat ∧ i < n ∧ ∀ j, j < i → (r j).toNat < 2 ^ d := by
  simp only [firstAbove, List.find?_range_eq_some, List.mem_range, decide_eq_true_eq, above_pixMask_iff, Bool.not_eq_true',
    decide_eq_false_iff_not, Nat.not_le]

/-! ### `PIX.UNPACK` (R192) -/

section

variable {d : Nat} {be : Bool} {s : State}

theorem pixUnpackRule_of_short_stride (h : s.stride < minStride s.width d) :
    pixUnpackRule d be s = .preFault .param 8 0 s.stride := if_pos h

theorem pixUnpackRule_of_truncated (hst : minStride s.width d ≤ s.stride)
    (h : s.srcLen < rowsNeed s.width s.height s.stride (minStride s.width d)) :
    pixUnpackRule d be s =
      .preFault .truncated 0 (rowsNeed s.width s.height s.stride (minStride s.width d)) s.srcLen :=
  (if_neg (Nat.not_lt.2 hst)).trans (if_pos h)

theorem pixUnpackRule_of_no_room (hst : minStride s.width d ≤ s.stride)
    (hsrc : rowsNeed s.width s.height s.stride (minStride s.width d) ≤ s.srcLen) (h : s.dstLen < s.width * s.height) :
    pixUnpackRule d be s = .preFault .lenRange 1 s.dstLen (s.width * s.height : Nat) :=
  (if_neg (Nat.not_lt.2 hst)).trans ((if_neg (Nat.not_lt.2 hsrc)).trans (if_pos h))

theorem pixUnpackRule_of_room (hst : minStride s.width d ≤ s.stride)
    (hsrc : rowsNeed s.width s.height s.stride (minStride s.width d) ≤ s.srcLen) (hdst : s.width * s.height ≤ s.dstLen) :
    pixUnpackRule d be s =
      .done (s.width * s.height) (rowsNeed s.width s.height s.stride (minStride s.width d)) (minStride s.width d) 0 none
        (unpackedImage s.src s.width s.height s.stride d be) [] :=
  (if_neg (Nat.not_lt.2 hst)).trans ((if_neg (Nat.not_lt.2 hsrc)).trans (if_neg (Nat.not_lt.2 hdst)))

end

/-- A `PIX.UNPACK` that completes, byte by byte. -/
theorem exec_pixUnpack_done {bpp : BitVec 4} (be : Bool) {s : State} (hl : legalBpp bpp = true)
    (hr : regionFault (rolesOf (.pixUnpack bpp be)) s = none) (hst : minStride s.width bpp.toNat ≤ s.stride)
    (hsrc : rowsNeed s.width s.height s.stride (minStride s.width bpp.toNat) ≤ s.srcLen)
    (hdst : s.width * s.height ≤ s.dstLen) :
    ∃ t, exec (.pixUnpack bpp be) s = .next t ∧
      Completed s t (s.width * s.height) (rowsNeed s.width s.height s.stride (minStride s.width bpp.toNat))
        (minStride s.width bpp.toNat) 0 ∧
      t.short = s.short ∧
      (∀ x y, x < s.width → y < s.height →
        t.byteAt (s.dstBase + (y * s.width + x)) = packedPixel s.src (y * s.stride) x bpp.toNat be) ∧
      UnchangedOutside s t [(s.dstBase, s.width * s.height)] := by
  have hstride := stride_lt s
  have hsrcLen := srcLen_lt s
  have hdstLen := dstLen_lt s
  obtain ⟨t, hexec, hc, hshort, hbytes, hframe⟩ :=
    exec_done_out (i := .pixUnpack bpp be) hl (by simp) hr (pixUnpackRule_of_room hst hsrc hdst) (unpackedImage_length ..)
      (by omega) (by omega) (by omega) (by decide)
  refine ⟨t, hexec, hc, hshort, fun x y hx hy => ?_, hframe⟩
  exact (hbytes _ (cell_lt hx hy)).trans (unpackedImage_getD s.src s.stride bpp.toNat be hx hy)

/-- Settles O48: each byte of `exec_pixUnpack_done` as a number. -/
theorem pixUnpackRuns : Obligations.PixUnpackRuns := by
  intro bpp be s hl hr w h m shift need hst hsrc hdst
  obtain ⟨t, hexec, hc, hshort, hbytes, hframe⟩ := exec_pixUnpack_done be hl hr hst hsrc hdst
  refine ⟨t, hexec, hc, hshort, fun x y hx hy => ?_, hframe⟩
  rw [hbytes x y hx hy]
  exact packedPixel_toNat (isDepth_of_legalBpp hl) s.src (y * s.stride) x be

/-! ### `PIX.PACK` (R195, R198) -/

section

variable {d : Nat} {be : Bool} {s : State}

theorem pixPackRule_of_truncated (h : s.srcLen < s.width * s.height) :
    pixPackRule d be s = .preFault .truncated 0 (s.width * s.height : Nat) s.srcLen := if_pos h

theorem pixPackRule_of_no_room (hsrc : s.width * s.height ≤ s.srcLen) (h : s.dstLen < minStride s.width d * s.height) :
    pixPackRule d be s = .preFault .lenRange 1 s.dstLen (minStride s.width d * s.height : Nat) :=
  (if_neg (Nat.not_lt.2 hsrc)).trans (if_pos h)

theorem pixPackRule_of_wide {i : Nat} (hsrc : s.width * s.height ≤ s.srcLen) (hdst : minStride s.width d * s.height ≤ s.dstLen)
    (h : firstAbove s.src (pixMask d) (s.width * s.height) = some i) :
    pixPackRule d be s = .preFault .pixRange i (pixMask d) (s.src i).toNat := by
  simp only [pixPackRule, if_neg (Nat.not_lt.2 hsrc), if_neg (Nat.not_lt.2 hdst), h]

theorem pixPackRule_of_fits (hsrc : s.width * s.height ≤ s.srcLen) (hdst : minStride s.width d * s.height ≤ s.dstLen)
    (h : ∀ i, i < s.width * s.height → (s.src i).toNat < 2 ^ d) :
    pixPackRule d be s =
      .done (minStride s.width d * s.height) (s.width * s.height) (minStride s.width d) 0 none
        (packedImage s.src s.width s.height (minStride s.width d) d be) [] := by
  simp only [pixPackRule, if_neg (Nat.not_lt.2 hsrc), if_neg (Nat.not_lt.2 hdst), firstAbove_eq_none_iff.2 h]

/-- What a `PIX.PACK` that completed checked. -/
theorem pixPack_checked (h : ∀ e i0 i1 i2, pixPackRule d be s ≠ .preFault e i0 i1 i2) :
    s.width * s.height ≤ s.srcLen ∧ minStride s.width d * s.height ≤ s.dstLen ∧
      ∀ i, i < s.width * s.height → (s.src i).toNat < 2 ^ d := by
  have hsrc : s.width * s.height ≤ s.srcLen := Nat.not_lt.1 fun hlt => h _ _ _ _ (pixPackRule_of_truncated hlt)
  have hdst : minStride s.width d * s.height ≤ s.dstLen := Nat.not_lt.1 fun hlt => h _ _ _ _ (pixPackRule_of_no_room hsrc hlt)
  refine ⟨hsrc, hdst, firstAbove_eq_none_iff.1 (Option.eq_none_iff_forall_ne_some.2 fun i hi => ?_)⟩
  exact h _ _ _ _ (pixPackRule_of_wide hsrc hdst hi)

end

/-- A `PIX.PACK` that completes, byte by byte. -/
theorem exec_pixPack_done {bpp : BitVec 4} (be : Bool) {s : State} (hl : legalBpp bpp = true)
    (hr : regionFault (rolesOf (.pixPack bpp be)) s = none) (hsrc : s.width * s.height ≤ s.srcLen)
    (hdst : minStride s.width bpp.toNat * s.height ≤ s.dstLen)
    (hfit : ∀ i, i < s.width * s.height → (s.src i).toNat < 2 ^ bpp.toNat) :
    ∃ t, exec (.pixPack bpp be) s = .next t ∧
      Completed s t (minStride s.width bpp.toNat * s.height) (s.width * s.height) (minStride s.width bpp.toNat) 0 ∧
      t.short = s.short ∧
      (∀ b y, b < minStride s.width bpp.toNat → y < s.height →
        t.byteAt (s.dstBase + (y * minStride s.width bpp.toNat + b)) =
          (packedRow s.src (y * s.width) s.width (minStride s.width bpp.toNat) bpp.toNat be).getD b 0) ∧
      UnchangedOutside s t [(s.dstBase, minStride s.width bpp.toNat * s.height)] := by
  have hwidth := width_lt s
  have hsrcLen := srcLen_lt s
  have hdstLen := dstLen_lt s
  have hrow := (isDepth_of_legalBpp hl).minStride_le s.width
  obtain ⟨t, hexec, hc, hshort, hbytes, hframe⟩ :=
    exec_done_out (i := .pixPack bpp be) hl (by simp) hr (pixPackRule_of_fits hsrc hdst hfit) (packedImage_length ..)
      (by omega) (by omega) (by omega) (by decide)
  refine ⟨t, hexec, hc, hshort, fun b y hb hy => ?_, hframe⟩
  exact (hbytes _ (cell_lt hb hy)).trans (packedImage_getD s.src bpp.toNat be hb hy)

/-- Settles O49: a pixel is read back as in R192, and a padding bit has a column behind the last pixel. -/
theorem pixPackRuns : Obligations.PixPackRuns := by
  intro bpp be s hl hr w h m shift hsrc hdst hfit
  have hd := isDepth_of_legalBpp hl
  have hfitRow (y : Nat) (hy : y < h) (x : Nat) (hx : x < w) : (s.src (y * w + x)).toNat < 2 ^ bpp.toNat := hfit _ (cell_lt hx hy)
  obtain ⟨t, hexec, hc, hshort, hbytes, hframe⟩ := exec_pixPack_done be hl hr hsrc hdst hfit
  refine ⟨t, hexec, hc, hshort, fun x y hx hy => ?_, fun y b k hy hb hk hpad => ?_, hframe⟩
  · have hpixel : packedPixel (fun a => t.byteAt (s.dstBase + a)) (y * m) x bpp.toNat be = s.src (y * w + x) :=
      packedPixel_of_packedRow hd (hfitRow y hy) hx (hbytes _ y (hd.byte_lt_minStride hx) hy)
    rw [← hpixel]
    exact (packedPixel_toNat hd (fun a => t.byteAt (s.dstBase + a)) (y * m) x be).symm
  · exact (congrArg (BitVec.getLsbD · k) (hbytes b y hb hy)).trans (packedRow_padding hd (hfitRow y hy) hb hk hpad)

/-- Settles O51: the tests of both rules in their order. -/
theorem pixRowFaults : Obligations.PixRowFaults := by
  intro bpp be s hl w h m need
  refine ⟨fun hr => ?_, fun hr => ?_⟩
  · have pre {e i0 i1 i2} (hrule : pixUnpackRule bpp.toNat be s = .preFault e i0 i1 i2) :=
      exec_preFault (i := .pixUnpack bpp be) hl (by simp) hr hrule
    exact ⟨fun hst => pre (pixUnpackRule_of_short_stride hst), fun hst hsrc => pre (pixUnpackRule_of_truncated hst hsrc),
      fun hst hsrc hdst => pre (pixUnpackRule_of_no_room hst hsrc hdst)⟩
  · have pre {e i0 i1 i2} (hrule : pixPackRule bpp.toNat be s = .preFault e i0 i1 i2) :=
      exec_preFault (i := .pixPack bpp be) hl (by simp) hr hrule
    exact ⟨fun hsrc => pre (pixPackRule_of_truncated hsrc), fun hsrc hdst => pre (pixPackRule_of_no_room hsrc hdst),
      fun i hsrc hdst hi hwide hbefore =>
        pre (pixPackRule_of_wide hsrc hdst (firstAbove_eq_some_iff.2 ⟨hwide, hi, hbefore⟩))⟩

/-! ### Packing and unpacking again (R197) -/

/-- Settles O50: each pixel is read from the row that `exec_pixPack_done` says was packed. -/
theorem packThenUnpackIsIdentity : Obligations.PackThenUnpackIsIdentity := by
  intro bpp be s t u hl h hdone hmem hbase hlen hstride hwidth hheight hroom hru
  have hd := isDepth_of_legalBpp hl
  obtain ⟨hr, hrule⟩ := ruleOf_ne_preFault_of_done (by simp) h hdone
  obtain ⟨hsrc, hdst, hfit⟩ := pixPack_checked hrule
  obtain ⟨t', h', ⟨-, -, ⟨hres0, -, hres2, -⟩, -⟩, -, hbytes, -⟩ := exec_pixPack_done be hl hr hsrc hdst hfit
  rw [h] at h'
  cases h'
  rw [hres0] at hlen
  rw [hres2] at hstride
  obtain ⟨v, hv, ⟨-, hvd, -⟩, -, hpixels, -⟩ := exec_pixUnpack_done be hl hru (by rw [hwidth, hstride])
    (by rw [hwidth, hheight, hstride, hlen]; exact rowsNeed_packed_le ..) (by rwa [hwidth, hheight])
  rw [hwidth, hheight, hstride] at hpixels
  refine ⟨v, hv, hvd, fun j hj => ?_⟩
  have hpos : 0 < s.width := Nat.pos_of_ne_zero fun h0 => by simp [h0] at hj
  have hx : j % s.width < s.width := Nat.mod_lt j hpos
  have hy : j / s.width < s.height := Nat.div_lt_of_lt_mul hj
  have hread : u.src (j / s.width * minStride s.width bpp.toNat + j % s.width * bpp.toNat / 8) =
      (packedRow s.src (j / s.width * s.width) s.width (minStride s.width bpp.toNat) bpp.toNat be).getD
        (j % s.width * bpp.toNat / 8) 0 := by
    rw [State.src, hbase, hmem, hbytes _ _ (hd.byte_lt_minStride hx) hy]
  have hpixel := hpixels _ _ hx hy
  rw [packedPixel_of_packedRow hd (fun x hx => hfit _ (cell_lt hx hy)) hx hread, Nat.div_add_mod'] at hpixel
  exact hpixel

end Sys2Proof.Machine

end

/-! ## The tile atlas: `TILE.DEDUP` and `TILE.EXPAND`

The walk over the tiles keeps one invariant, `FirstOccurrence`; every claim about the analysis is a field of it or follows from one. Each
command has the conditions under which it completes as a structure (`DedupReady`, `ExpandReady`) and its next state said once, byte by
byte. The round trip of R217 then rests on two facts about byte readers: the composite of an analysed image is the image
(`FirstOccurrence.compositePixel_eq`), and images with the same pixels have the same analysis (`dedupAnalyse_of_same_pixels`). -/

section

namespace Sys2Proof.Machine

/-! ### The analysis numbers tiles by first occurrence (R214, R215) -/

/-- What the walk over the first `n` of `tiles` has found: the different tiles in the order they first came, and each one's number. -/
structure FirstOccurrence (tiles : Nat → List Byte) (n : Nat) (uniq : List (List Byte)) (idx : List Nat) : Prop where
  length_eq : idx.length = n
  nodup : uniq.Nodup
  tile_at : ∀ i, i < n → uniq[idx.getD i 0]? = some (tiles i)
  first : ∀ u, u < uniq.length → ∃ i, i < n ∧ idx.getD i 0 = u ∧ ∀ j, j < i → idx.getD j 0 < u

section

variable {tiles : Nat → List Byte} {n : Nat} {uniq : List (List Byte)} {idx : List Nat}

theorem FirstOccurrence.index_lt (h : FirstOccurrence tiles n uniq idx) {i : Nat} (hi : i < n) : idx.getD i 0 < uniq.length :=
  have ⟨hlt, _⟩ := List.getElem?_eq_some_iff.1 (h.tile_at i hi)
  hlt

theorem FirstOccurrence.getD_snoc_of_lt (h : FirstOccurrence tiles n uniq idx) (k : Nat) {i : Nat} (hi : i < n) :
    (idx ++ [k]).getD i 0 = idx.getD i 0 :=
  List.getD_append _ _ _ _ (h.length_eq ▸ hi)

theorem FirstOccurrence.getD_snoc_last (h : FirstOccurrence tiles n uniq idx) (k : Nat) : (idx ++ [k]).getD n 0 = k := by
  rw [List.getD_append_right _ _ _ _ h.length_eq.le, h.length_eq, Nat.sub_self, List.getD_cons_zero]

/-- A number already given stays the number of the first cell that has it. -/
theorem FirstOccurrence.first_snoc (h : FirstOccurrence tiles n uniq idx) (k : Nat) {u : Nat} (hu : u < uniq.length) :
    ∃ i, i < n + 1 ∧ (idx ++ [k]).getD i 0 = u ∧ ∀ j, j < i → (idx ++ [k]).getD j 0 < u := by
  obtain ⟨i, hi, hiu, hbefore⟩ := h.first u hu
  refine ⟨i, Nat.lt_succ_of_lt hi, (h.getD_snoc_of_lt k hi).trans hiu, fun j hj => ?_⟩
  rw [h.getD_snoc_of_lt k (Nat.lt_trans hj hi)]
  exact hbefore j hj

theorem FirstOccurrence.nil (tiles : Nat → List Byte) : FirstOccurrence tiles 0 [] [] :=
  ⟨rfl, List.nodup_nil, fun _ hi => absurd hi (Nat.not_lt_zero _), fun _ hu => absurd hu (Nat.not_lt_zero _)⟩

/-- A tile seen before gets its number. -/
theorem FirstOccurrence.seen (h : FirstOccurrence tiles n uniq idx) (hmem : tiles n ∈ uniq) :
    FirstOccurrence tiles (n + 1) uniq (idx ++ [uniq.idxOf (tiles n)]) where
  length_eq := by rw [List.length_append, h.length_eq, List.length_singleton]
  nodup := h.nodup
  tile_at i hi := by
    rcases Nat.lt_succ_iff_lt_or_eq.1 hi with hlt | rfl
    · rw [h.getD_snoc_of_lt _ hlt]
      exact h.tile_at i hlt
    · rw [h.getD_snoc_last]
      exact List.getElem?_idxOf hmem
  first _ hu := h.first_snoc _ hu

/-- A new tile gets the next number. -/
theorem FirstOccurrence.new (h : FirstOccurrence tiles n uniq idx) (hmem : tiles n ∉ uniq) :
    FirstOccurrence tiles (n + 1) (uniq ++ [tiles n]) (idx ++ [uniq.length]) where
  length_eq := by rw [List.length_append, h.length_eq, List.length_singleton]
  nodup := by
    rw [← List.concat_eq_append]
    exact h.nodup.concat hmem
  tile_at i hi := by
    rcases Nat.lt_succ_iff_lt_or_eq.1 hi with hlt | rfl
    · rw [h.getD_snoc_of_lt _ hlt, List.getElem?_append_left (h.index_lt hlt)]
      exact h.tile_at i hlt
    · rw [h.getD_snoc_last]
      exact List.getElem?_concat_length
  first u hu := by
    rw [List.length_append, List.length_singleton] at hu
    rcases Nat.lt_succ_iff_lt_or_eq.1 hu with hlt | rfl
    · exact h.first_snoc _ hlt
    · refine ⟨n, Nat.lt_succ_self n, h.getD_snoc_last _, fun j hj => ?_⟩
      rw [h.getD_snoc_of_lt _ hj]
      exact h.index_lt hj

theorem FirstOccurrence.dedupTile (h : FirstOccurrence tiles n uniq idx) :
    FirstOccurrence tiles (n + 1) (dedupTile (uniq, idx) (tiles n)).1 (dedupTile (uniq, idx) (tiles n)).2 := by
  unfold Machine.dedupTile
  split
  · next hmem => exact h.seen hmem
  · next hmem => exact h.new hmem

/-- Two cells have the same number exactly when they have the same tile. -/
theorem FirstOccurrence.index_eq_iff (h : FirstOccurrence tiles n uniq idx) {i j : Nat} (hi : i < n) (hj : j < n) :
    idx.getD i 0 = idx.getD j 0 ↔ tiles i = tiles j := by
  rw [← List.getElem?_inj (h.index_lt hi) h.nodup, h.tile_at i hi, h.tile_at j hj, Option.some_inj]

/-- Every tile of the store is the tile of a cell. -/
theorem FirstOccurrence.exists_of_mem (h : FirstOccurrence tiles n uniq idx) {t : List Byte} (ht : t ∈ uniq) :
    ∃ i, i < n ∧ tiles i = t := by
  obtain ⟨u, hu, rfl⟩ := List.getElem_of_mem ht
  obtain ⟨i, hi, rfl, -⟩ := h.first u hu
  have htile := h.tile_at i hi
  rw [List.getElem?_eq_getElem hu, Option.some_inj] at htile
  exact ⟨i, hi, htile.symm⟩

/-- There are no more different tiles than tiles. -/
theorem FirstOccurrence.uniq_length_le (h : FirstOccurrence tiles n uniq idx) : uniq.length ≤ n := by
  have hsub : uniq ⊆ (List.range n).map tiles := fun t ht => by
    obtain ⟨i, hi, htile⟩ := h.exists_of_mem ht
    exact List.mem_map.2 ⟨i, List.mem_range.2 hi, htile⟩
  have hle := (List.subperm_of_subset h.nodup hsub).length_le
  rwa [List.length_map, List.length_range] at hle

end

theorem firstOccurrence_foldl (tiles : Nat → List Byte) (n : Nat) :
    FirstOccurrence tiles n ((List.range n).foldl (fun acc i => dedupTile acc (tiles i)) ([], [])).1
      ((List.range n).foldl (fun acc i => dedupTile acc (tiles i)) ([], [])).2 := by
  induction n with
  | zero => exact .nil tiles
  | succ n ih =>
    rw [List.range_succ, List.foldl_append]
    exact ih.dedupTile

/-- The tile at position `i` of the column-major list order (R211). -/
def cellTile (img : Nat → Byte) (mh bw bh pitch i : Nat) : List Byte := tileAt img bw bh pitch (i / mh) (i % mh)

theorem firstOccurrence_dedupAnalyse (img : Nat → Byte) (mw mh bw bh pitch : Nat) :
    FirstOccurrence (cellTile img mh bw bh pitch) (mw * mh) (dedupAnalyse img mw mh bw bh pitch).1
      (dedupAnalyse img mw mh bw bh pitch).2 :=
  firstOccurrence_foldl (cellTile img mh bw bh pitch) (mw * mh)

/-- Settles O55: each clause is a field or a consequence of `FirstOccurrence`, which the walk keeps. -/
theorem dedupAnalysisIsFirstOccurrence : Obligations.DedupAnalysisIsFirstOccurrence := by
  intro img mw mh bw bh pitch uniq idx hfound
  have h := firstOccurrence_dedupAnalyse img mw mh bw bh pitch
  rw [hfound] at h
  exact ⟨h.length_eq, h.nodup, h.tile_at, fun _ _ hi hj => h.index_eq_iff hi hj, h.first⟩

/-! ### The tile store and the matrix, byte by byte (R66, R70) -/

/-- Byte `k * m + j` of lists of `m` bytes, one after another, is byte `j` of list `k`. -/
theorem flatten_getD {l : List (List Byte)} {m k j : Nat} (hm : ∀ t ∈ l, t.length = m) (hk : k < l.length) (hj : j < m) :
    l.flatten.getD (k * m + j) 0 = (l.getD k []).getD j 0 := by
  induction l generalizing k with
  | nil => exact absurd hk (Nat.not_lt_zero _)
  | cons t l ih =>
    have ht : t.length = m := hm t List.mem_cons_self
    rw [List.flatten_cons]
    cases k with
    | zero => rw [Nat.zero_mul, Nat.zero_add, List.getD_append _ _ _ _ (ht ▸ hj), List.getD_cons_zero]
    | succ k =>
      rw [Nat.succ_mul, List.getD_append_right _ _ _ _ (by omega), ht, List.getD_cons_succ,
        ← ih (fun t ht => hm t (List.mem_cons_of_mem _ ht)) (Nat.lt_of_succ_lt_succ hk)]
      congr 1
      omega

/-- The two bytes that `le16` stores read back as the number. -/
theorem le16At_of_le16Bytes {r : Nat → Byte} {j v : Nat} (hv : v < 2 ^ 16)
    (h : ∀ k, k < 2 → r (j + k) = (le16Bytes v).getD k 0) : le16At r j = v := by
  have h0 : r j = BitVec.ofNat 8 (v % 256) := h 0 (by decide)
  have h1 : r (j + 1) = BitVec.ofNat 8 (v / 256 % 256) := h 1 (by decide)
  simp only [le16At, h0, h1, BitVec.toNat_ofNat]
  omega

/-- The MTX payload is a row of 16-bit numbers, the dimensions first (R66). -/
theorem mtxBytes_eq_flatMap (mw mh : Nat) (idx : List Nat) : mtxBytes mw mh idx = (mw :: mh :: idx).flatMap le16Bytes := by
  rw [mtxBytes, List.flatMap_cons, List.flatMap_cons, List.append_assoc]

/-- The bytes from offset 0 of a reader are the MTX payload of this matrix (R66). -/
def ReadsMtx (r : Nat → Byte) (mw mh : Nat) (idx : List Nat) : Prop :=
  ∀ j, j < 4 + 2 * idx.length → r j = (mtxBytes mw mh idx).getD j 0

/-- Number `k` of an MTX payload in memory. -/
theorem ReadsMtx.le16At_eq {r : Nat → Byte} {mw mh : Nat} {idx : List Nat} (h : ReadsMtx r mw mh idx) {k : Nat}
    (hk : k < idx.length + 2) (hv : (mw :: mh :: idx).getD k 0 < 2 ^ 16) : le16At r (2 * k) = (mw :: mh :: idx).getD k 0 := by
  refine le16At_of_le16Bytes hv fun j hj => ?_
  have hlen : ∀ b ∈ (mw :: mh :: idx).map le16Bytes, b.length = 2 := fun b hb => by
    obtain ⟨v, -, rfl⟩ := List.mem_map.1 hb
    rfl
  have hrow : k < (mw :: mh :: idx).length := hk
  have hrow' : k < ((mw :: mh :: idx).map le16Bytes).length := by rwa [List.length_map]
  rw [h _ (by omega), mtxBytes_eq_flatMap, List.flatMap_def, Nat.mul_comm, flatten_getD hlen hrow' hj,
    List.getD_eq_getElem _ _ hrow', List.getElem_map, List.getD_eq_getElem _ _ hrow]

section

variable {r : Nat → Byte} {mw mh : Nat} {idx : List Nat}

theorem ReadsMtx.width_eq (h : ReadsMtx r mw mh idx) (hw : mw ≤ 65535) : le16At r 0 = mw :=
  h.le16At_eq (k := 0) (by omega) (Nat.lt_succ_of_le hw)

theorem ReadsMtx.height_eq (h : ReadsMtx r mw mh idx) (hh : mh ≤ 65535) : le16At r 2 = mh :=
  h.le16At_eq (k := 1) (by omega) (Nat.lt_succ_of_le hh)

theorem ReadsMtx.index_eq (h : ReadsMtx r mw mh idx) {i : Nat} (hi : i < idx.length) (hv : idx.getD i 0 ≤ 65535) :
    le16At r (4 + 2 * i) = idx.getD i 0 := by
  have hword := h.le16At_eq (k := i + 2) (by omega) (Nat.lt_succ_of_le hv)
  rwa [show 2 * (i + 2) = 4 + 2 * i by omega] at hword

/-- A small index is not read as a negative number (R10). -/
theorem ReadsMtx.mtxIndex_eq (h : ReadsMtx r mw mh idx) {i : Nat} (hi : i < idx.length) (hv : idx.getD i 0 < 32768) :
    mtxIndex r i = idx.getD i 0 := by
  rw [mtxIndex, sle16At, h.index_eq hi (by omega), if_neg (by omega)]

end

/-- A place in a tile store: pixel (`c`, `r`) of tile `k` (R70). -/
theorem store_offset_lt {n k bw bh r c : Nat} (hk : k < n) (hr : r < bh) (hc : c < bw) :
    k * bw * bh + r * bw + c < n * bw * bh := by
  rw [Nat.add_assoc, Nat.mul_assoc, Nat.mul_assoc, Nat.mul_comm n]
  exact cell_lt (cell_lt hc hr) hk

/-- The tile store of an analysed image, pixel by pixel (R70). -/
theorem FirstOccurrence.store_getD {img : Nat → Byte} {mh bw bh pitch n k r c : Nat} {uniq : List (List Byte)} {idx : List Nat}
    (h : FirstOccurrence (cellTile img mh bw bh pitch) n uniq idx) (hk : k < uniq.length) (hr : r < bh) (hc : c < bw) :
    uniq.flatten.getD (k * bw * bh + r * bw + c) 0 = (uniq.getD k []).getD (r * bw + c) 0 := by
  have hlen : ∀ t ∈ uniq, t.length = bw * bh := fun t ht => by
    obtain ⟨i, -, rfl⟩ := h.exists_of_mem ht
    exact tileAt_length ..
  rw [Nat.mul_assoc, Nat.add_assoc]
  exact flatten_getD hlen hk (cell_lt hc hr)

/-! ### `TILE.DEDUP` (R212, R216) -/

/-- The number of columns of the matrix of `TILE.DEDUP` (R212). -/
abbrev State.tileCols (s : State) : Nat := s.width / s.blkw

/-- The number of rows of the matrix of `TILE.DEDUP` (R212). -/
abbrev State.tileRows (s : State) : Nat := s.height / s.blkh

/-- The source bytes that the image of `TILE.DEDUP` takes (R212). -/
abbrev State.imageNeed (s : State) : Nat := rowsNeed s.width s.height s.stride s.width

/-- The different tiles of the image of `TILE.DEDUP` and the number of each cell (R214). -/
abbrev State.analysis (s : State) : List (List Byte) × List Nat :=
  dedupAnalyse s.src s.tileCols s.tileRows s.blkw s.blkh s.stride

/-- The image is a matrix of whole tiles that a 16-bit header can describe (the first seven checks of R212). -/
structure DedupShape (s : State) : Prop where
  blkw_pos : 0 < s.blkw
  blkh_pos : 0 < s.blkh
  width_le : s.width ≤ s.stride
  width_mod : s.width % s.blkw = 0
  height_mod : s.height % s.blkh = 0
  cols_le : s.tileCols ≤ 65535
  rows_le : s.tileRows ≤ 65535

/-- All checks of `TILE.DEDUP` pass (R212). -/
structure DedupReady (s : State) : Prop extends DedupShape s where
  source : s.imageNeed ≤ s.srcLen
  tiles_pos : 0 < s.analysis.1.length
  tiles_le : s.analysis.1.length ≤ 32767
  aux_room : 4 + 2 * s.tileCols * s.tileRows ≤ s.auxLen
  dst_room : s.analysis.1.length * s.blkw * s.blkh ≤ s.dstLen

section

variable {s : State}

theorem tileDedupRule_of_no_blkw (h : s.blkw = 0) : tileDedupRule s = .preFault .param 10 0 0 := if_pos h

theorem tileDedupRule_of_no_blkh (hw : 0 < s.blkw) (h : s.blkh = 0) : tileDedupRule s = .preFault .param 11 0 0 :=
  (if_neg hw.ne').trans (if_pos h)

theorem tileDedupRule_of_short_stride (hw : 0 < s.blkw) (hh : 0 < s.blkh) (h : s.stride < s.width) :
    tileDedupRule s = .preFault .param 8 0 s.stride :=
  (if_neg hw.ne').trans ((if_neg hh.ne').trans (if_pos h))

theorem tileDedupRule_of_partial_col (hw : 0 < s.blkw) (hh : 0 < s.blkh) (hst : s.width ≤ s.stride) (h : s.width % s.blkw ≠ 0) :
    tileDedupRule s = .preFault .param 6 0 s.width :=
  (if_neg hw.ne').trans ((if_neg hh.ne').trans ((if_neg (Nat.not_lt.2 hst)).trans (if_pos h)))

theorem tileDedupRule_of_partial_row (hw : 0 < s.blkw) (hh : 0 < s.blkh) (hst : s.width ≤ s.stride) (hwm : s.width % s.blkw = 0)
    (h : s.height % s.blkh ≠ 0) : tileDedupRule s = .preFault .param 7 0 s.height :=
  (if_neg hw.ne').trans ((if_neg hh.ne').trans ((if_neg (Nat.not_lt.2 hst)).trans ((if_neg (not_not.2 hwm)).trans (if_pos h))))

/-- The rule for an image of whole tiles: the checks of the matrix dimensions come next. -/
theorem tileDedupRule_of_whole_tiles (hw : 0 < s.blkw) (hh : 0 < s.blkh) (hst : s.width ≤ s.stride) (hwm : s.width % s.blkw = 0)
    (hhm : s.height % s.blkh = 0) :
    tileDedupRule s =
      if s.tileCols > 65535 then .preFault .lenRange 3 65535 s.tileCols
      else if s.tileRows > 65535 then .preFault .lenRange 3 65535 s.tileRows
      else if s.srcLen < s.imageNeed then .preFault .truncated 0 s.imageNeed s.srcLen
      else tileStore s s.tileCols s.tileRows s.blkw s.blkh s.analysis.1 s.analysis.2 :=
  (if_neg hw.ne').trans ((if_neg hh.ne').trans ((if_neg (Nat.not_lt.2 hst)).trans ((if_neg (not_not.2 hwm)).trans
    (if_neg (not_not.2 hhm)))))

theorem tileDedupRule_of_wide (hw : 0 < s.blkw) (hh : 0 < s.blkh) (hst : s.width ≤ s.stride) (hwm : s.width % s.blkw = 0)
    (hhm : s.height % s.blkh = 0) (h : 65535 < s.tileCols) : tileDedupRule s = .preFault .lenRange 3 65535 s.tileCols :=
  (tileDedupRule_of_whole_tiles hw hh hst hwm hhm).trans (if_pos h)

theorem tileDedupRule_of_high (hw : 0 < s.blkw) (hh : 0 < s.blkh) (hst : s.width ≤ s.stride) (hwm : s.width % s.blkw = 0)
    (hhm : s.height % s.blkh = 0) (hcols : s.tileCols ≤ 65535) (h : 65535 < s.tileRows) :
    tileDedupRule s = .preFault .lenRange 3 65535 s.tileRows :=
  (tileDedupRule_of_whole_tiles hw hh hst hwm hhm).trans ((if_neg (Nat.not_lt.2 hcols)).trans (if_pos h))

theorem DedupShape.tileDedupRule_eq (hs : DedupShape s) :
    tileDedupRule s =
      if s.srcLen < s.imageNeed then .preFault .truncated 0 s.imageNeed s.srcLen
      else tileStore s s.tileCols s.tileRows s.blkw s.blkh s.analysis.1 s.analysis.2 :=
  (tileDedupRule_of_whole_tiles hs.blkw_pos hs.blkh_pos hs.width_le hs.width_mod hs.height_mod).trans
    ((if_neg (Nat.not_lt.2 hs.cols_le)).trans (if_neg (Nat.not_lt.2 hs.rows_le)))

theorem DedupShape.tileDedupRule_of_truncated (hs : DedupShape s) (h : s.srcLen < s.imageNeed) :
    tileDedupRule s = .preFault .truncated 0 s.imageNeed s.srcLen :=
  hs.tileDedupRule_eq.trans (if_pos h)

theorem DedupShape.tileDedupRule_of_source (hs : DedupShape s) (hsrc : s.imageNeed ≤ s.srcLen) :
    tileDedupRule s = tileStore s s.tileCols s.tileRows s.blkw s.blkh s.analysis.1 s.analysis.2 :=
  hs.tileDedupRule_eq.trans (if_neg (Nat.not_lt.2 hsrc))

end

section

variable {s : State} {mw mh bw bh : Nat} {uniq : List (List Byte)} {idx : List Nat}

theorem tileStore_of_count (h : uniq.length = 0 ∨ 32767 < uniq.length) :
    tileStore s mw mh bw bh uniq idx = .preFault .tileCount 0 32767 uniq.length := if_pos h

theorem tileStore_of_no_aux (hpos : 0 < uniq.length) (hle : uniq.length ≤ 32767) (h : s.auxLen < 4 + 2 * mw * mh) :
    tileStore s mw mh bw bh uniq idx = .preFault .lenRange 2 s.auxLen (4 + 2 * mw * mh : Nat) :=
  (if_neg (by omega)).trans (if_pos h)

theorem tileStore_of_no_dst (hpos : 0 < uniq.length) (hle : uniq.length ≤ 32767) (haux : 4 + 2 * mw * mh ≤ s.auxLen)
    (h : s.dstLen < uniq.length * bw * bh) :
    tileStore s mw mh bw bh uniq idx = .preFault .lenRange 1 s.dstLen (uniq.length * bw * bh : Nat) :=
  (if_neg (by omega)).trans ((if_neg (Nat.not_lt.2 haux)).trans (if_pos h))

theorem tileStore_of_room (hpos : 0 < uniq.length) (hle : uniq.length ≤ 32767) (haux : 4 + 2 * mw * mh ≤ s.auxLen)
    (hdst : uniq.length * bw * bh ≤ s.dstLen) :
    tileStore s mw mh bw bh uniq idx =
      .done uniq.length (uniq.length * bw * bh) (4 + 2 * mw * mh) (mw * mh) none uniq.flatten (mtxBytes mw mh idx) :=
  (if_neg (by omega)).trans ((if_neg (Nat.not_lt.2 haux)).trans (if_neg (Nat.not_lt.2 hdst)))

end

section

variable {s : State}

/-- A `TILE.DEDUP` that raised no pre-check fault passed all checks. -/
theorem dedupReady_of_no_preFault (h : ∀ e i0 i1 i2, tileDedupRule s ≠ .preFault e i0 i1 i2) : DedupReady s := by
  have hw : 0 < s.blkw := Nat.pos_of_ne_zero fun h0 => h _ _ _ _ (tileDedupRule_of_no_blkw h0)
  have hh : 0 < s.blkh := Nat.pos_of_ne_zero fun h0 => h _ _ _ _ (tileDedupRule_of_no_blkh hw h0)
  have hst : s.width ≤ s.stride := Nat.not_lt.1 fun hlt => h _ _ _ _ (tileDedupRule_of_short_stride hw hh hlt)
  have hwm : s.width % s.blkw = 0 := by_contra fun hne => h _ _ _ _ (tileDedupRule_of_partial_col hw hh hst hne)
  have hhm : s.height % s.blkh = 0 := by_contra fun hne => h _ _ _ _ (tileDedupRule_of_partial_row hw hh hst hwm hne)
  have hcols : s.tileCols ≤ 65535 := Nat.not_lt.1 fun hlt => h _ _ _ _ (tileDedupRule_of_wide hw hh hst hwm hhm hlt)
  have hrows : s.tileRows ≤ 65535 := Nat.not_lt.1 fun hlt => h _ _ _ _ (tileDedupRule_of_high hw hh hst hwm hhm hcols hlt)
  have hs : DedupShape s := ⟨hw, hh, hst, hwm, hhm, hcols, hrows⟩
  have hsrc : s.imageNeed ≤ s.srcLen := Nat.not_lt.1 fun hlt => h _ _ _ _ (hs.tileDedupRule_of_truncated hlt)
  rw [hs.tileDedupRule_of_source hsrc] at h
  have hcount : ¬ (s.analysis.1.length = 0 ∨ 32767 < s.analysis.1.length) := fun hc => h _ _ _ _ (tileStore_of_count hc)
  have hpos : 0 < s.analysis.1.length := by omega
  have hle : s.analysis.1.length ≤ 32767 := by omega
  have haux : 4 + 2 * s.tileCols * s.tileRows ≤ s.auxLen :=
    Nat.not_lt.1 fun hlt => h _ _ _ _ (tileStore_of_no_aux hpos hle hlt)
  exact ⟨hs, hsrc, hpos, hle, haux, Nat.not_lt.1 fun hlt => h _ _ _ _ (tileStore_of_no_dst hpos hle haux hlt)⟩

theorem DedupReady.tileDedupRule_eq (h : DedupReady s) :
    tileDedupRule s =
      .done s.analysis.1.length (s.analysis.1.length * s.blkw * s.blkh) (4 + 2 * s.tileCols * s.tileRows)
        (s.tileCols * s.tileRows) none s.analysis.1.flatten (mtxBytes s.tileCols s.tileRows s.analysis.2) :=
  (h.tileDedupRule_of_source h.source).trans (tileStore_of_room h.tiles_pos h.tiles_le h.aux_room h.dst_room)

/-- The image is as wide as its matrix. -/
theorem DedupShape.cols_mul (hs : DedupShape s) : s.tileCols * s.blkw = s.width :=
  Nat.div_mul_cancel (Nat.dvd_of_mod_eq_zero hs.width_mod)

/-- The image is as high as its matrix. -/
theorem DedupShape.rows_mul (hs : DedupShape s) : s.tileRows * s.blkh = s.height :=
  Nat.div_mul_cancel (Nat.dvd_of_mod_eq_zero hs.height_mod)

theorem State.analysis_firstOccurrence (s : State) :
    FirstOccurrence (cellTile s.src s.tileRows s.blkw s.blkh s.stride) (s.tileCols * s.tileRows) s.analysis.1 s.analysis.2 :=
  firstOccurrence_dedupAnalyse ..

/-- A `TILE.DEDUP` that completes, byte by byte. -/
theorem exec_tileDedup_done (hr : regionFault (rolesOf .tileDedup) s = none) (h : DedupReady s) :
    ∃ t, exec .tileDedup s = .next t ∧
      Completed s t s.analysis.1.length (s.analysis.1.length * s.blkw * s.blkh) (4 + 2 * s.tileCols * s.tileRows)
        (s.tileCols * s.tileRows) ∧
      t.short = s.short ∧
      Holds t s.dstBase (s.analysis.1.length * s.blkw * s.blkh) (fun j => s.analysis.1.flatten.getD j 0) ∧
      Holds t s.auxBase (4 + 2 * s.tileCols * s.tileRows) (fun j => (mtxBytes s.tileCols s.tileRows s.analysis.2).getD j 0) ∧
      UnchangedOutside s t
        [(s.dstBase, s.analysis.1.length * s.blkw * s.blkh), (s.auxBase, 4 + 2 * s.tileCols * s.tileRows)] := by
  have hdst := dstLen_lt s
  have haux := auxLen_lt s
  have hdstRoom := h.dst_room
  have hauxRoom := h.aux_room
  have htiles := h.tiles_le
  have hcells : s.tileCols * s.tileRows < 2 ^ 32 := by
    rw [Nat.mul_assoc] at hauxRoom
    omega
  obtain ⟨t, hexec, hc, hshort, hstore, hmtx, hframe⟩ :=
    exec_done_both (i := .tileDedup) rfl (by simp) hr h.tileDedupRule_eq (by simp [rolesOf]) (by simp [rolesOf]) (by omega)
      (by omega) (by omega) hcells
  have hlen := dedupAnalyse_store_length s.src s.tileCols s.tileRows s.blkw s.blkh s.stride
  have hlenMtx := dedupAnalyse_mtx_length s.src s.tileCols s.tileRows s.blkw s.blkh s.stride
  rw [hlen, hlenMtx] at hframe
  refine ⟨t, hexec, hc, hshort, fun j hj => ?_, fun j hj => ?_, hframe⟩
  · rw [hstore j (hlen.symm ▸ hj)]
    exact (List.getD_eq_getElem _ _ _).symm
  · rw [hmtx j (hlenMtx.symm ▸ hj)]
    exact (List.getD_eq_getElem _ _ _).symm

/-- The MTX payload of a `TILE.DEDUP` that completed, as a payload in memory. -/
theorem readsMtx_of_holds {t : State}
    (h : Holds t s.auxBase (4 + 2 * s.tileCols * s.tileRows) (fun j => (mtxBytes s.tileCols s.tileRows s.analysis.2).getD j 0)) :
    ReadsMtx (fun j => t.byteAt (s.auxBase + j)) s.tileCols s.tileRows s.analysis.2 := fun j hj =>
  h j (by rwa [s.analysis_firstOccurrence.length_eq, ← Nat.mul_assoc] at hj)

end

/-- Settles O56: the bytes of `exec_tileDedup_done`, read as R66 and R70 lay them out. -/
theorem tileDedupRuns : Obligations.TileDedupRuns := by
  intro s uniq idx hr bw bh mw mh hbw hbh hst hwm hhm hcols hrows hsrc hfound hpos hle haux hdst
  obtain ⟨rfl, rfl⟩ : uniq = s.analysis.1 ∧ idx = s.analysis.2 := by
    rw [show s.analysis = (uniq, idx) from hfound]
    exact ⟨rfl, rfl⟩
  have hneed : s.imageNeed ≤ s.srcLen := by
    rw [State.imageNeed, rowsNeed]
    split
    · exact hsrc
    · exact Nat.zero_le _
  obtain ⟨t, hexec, hc, hshort, hstore, hmtx, hframe⟩ :=
    exec_tileDedup_done hr ⟨⟨hbw, hbh, hst, hwm, hhm, hcols, hrows⟩, hneed, hpos, hle, haux, hdst⟩
  have hreads := readsMtx_of_holds hmtx
  refine ⟨t, hexec, hc, hshort, hreads.width_eq hcols, hreads.height_eq hrows, fun i hi => ?_, fun k r c hk hrow hcol => ?_, hframe⟩
  · have hindex := s.analysis_firstOccurrence.index_lt hi
    exact hreads.index_eq (s.analysis_firstOccurrence.length_eq ▸ hi) (by omega)
  · exact (hstore _ (store_offset_lt hk hrow hcol)).trans (s.analysis_firstOccurrence.store_getD hk hrow hcol)

/-- Settles O57: the checks of the rule in their order. -/
theorem tileDedupFaults : Obligations.TileDedupFaults := by
  intro s hr bw bh mw mh need shape u
  have pre {e i0 i1 i2} (hrule : tileDedupRule s = .preFault e i0 i1 i2) := exec_preFault (i := .tileDedup) rfl (by simp) hr hrule
  have shaped (h : shape) : DedupShape s :=
    have ⟨hbw, hbh, hst, hwm, hhm, hcols, hrows⟩ := h
    ⟨hbw, hbh, hst, hwm, hhm, hcols, hrows⟩
  have stored {e i0 i1 i2} (h : shape) (hsrc : need ≤ s.srcLen)
      (hstore : tileStore s mw mh bw bh s.analysis.1 s.analysis.2 = .preFault e i0 i1 i2) :=
    pre (((shaped h).tileDedupRule_of_source hsrc).trans hstore)
  exact ⟨fun h => pre (tileDedupRule_of_no_blkw h),
    fun hbw h => pre (tileDedupRule_of_no_blkh hbw h),
    fun hbw hbh h => pre (tileDedupRule_of_short_stride hbw hbh h),
    fun hbw hbh hst h => pre (tileDedupRule_of_partial_col hbw hbh hst h),
    fun hbw hbh hst hwm h => pre (tileDedupRule_of_partial_row hbw hbh hst hwm h),
    fun hbw hbh hst hwm hhm h => pre (tileDedupRule_of_wide hbw hbh hst hwm hhm h),
    fun hbw hbh hst hwm hhm hcols h => pre (tileDedupRule_of_high hbw hbh hst hwm hhm hcols h),
    fun hs h => pre ((shaped hs).tileDedupRule_of_truncated h),
    fun hs hsrc h => stored hs hsrc (tileStore_of_count h),
    fun hs hsrc hpos hle h => stored hs hsrc (tileStore_of_no_aux hpos hle h),
    fun hs hsrc hpos hle haux h => stored hs hsrc (tileStore_of_no_dst hpos hle haux h)⟩

/-! ### `TILE.EXPAND` (R218, R219) -/

/-- The number of columns of the matrix in `AUX` (R66). -/
abbrev State.mtxCols (s : State) : Nat := le16At s.aux 0

/-- The number of rows of the matrix in `AUX` (R66). -/
abbrev State.mtxRows (s : State) : Nat := le16At s.aux 2

/-- The checks of `TILE.EXPAND` before the index check pass (R218). -/
structure ExpandSized (s : State) : Prop where
  blkw_pos : 0 < s.blkw
  blkh_pos : 0 < s.blkh
  matrix : 4 + 2 * (s.mtxCols * s.mtxRows) ≤ s.auxLen
  count : s.arg ≤ s.mtxCols * s.mtxRows
  store : s.srcLen = s.arg * s.blkw * s.blkh
  dst_room : s.mtxCols * s.mtxRows * s.blkw * s.blkh ≤ s.dstLen

/-- All checks of `TILE.EXPAND` pass (R218). -/
structure ExpandReady (s : State) : Prop extends ExpandSized s where
  indices : ∀ i, i < s.mtxCols * s.mtxRows → 0 ≤ mtxIndex s.aux i ∧ mtxIndex s.aux i < s.arg

theorem badTileIndex_eq_none_iff {mtx : Nat → Byte} {n cells : Nat} :
    badTileIndex mtx n cells = none ↔ ∀ i, i < cells → 0 ≤ mtxIndex mtx i ∧ mtxIndex mtx i < n := by
  simp only [badTileIndex, List.find?_eq_none, List.mem_range, decide_eq_true_eq, not_or, not_lt, ge_iff_le, not_le]

theorem badTileIndex_eq_some_iff {mtx : Nat → Byte} {n cells i : Nat} :
    badTileIndex mtx n cells = some i ↔
      (mtxIndex mtx i < 0 ∨ mtxIndex mtx i ≥ n) ∧ i < cells ∧ ∀ j, j < i → 0 ≤ mtxIndex mtx j ∧ mtxIndex mtx j < n := by
  simp only [badTileIndex, List.find?_range_eq_some, List.mem_range, decide_eq_true_eq, Bool.not_eq_true',
    decide_eq_false_iff_not, not_or, not_lt, ge_iff_le, not_le]

section

variable {s : State}

theorem tileExpandRule_of_no_blkw (h : s.blkw = 0) : tileExpandRule s = .preFault .param 10 0 0 := if_pos h

theorem tileExpandRule_of_no_blkh (hw : 0 < s.blkw) (h : s.blkh = 0) : tileExpandRule s = .preFault .param 11 0 0 :=
  (if_neg hw.ne').trans (if_pos h)

theorem tileExpandRule_of_no_header (hw : 0 < s.blkw) (hh : 0 < s.blkh) (h : s.auxLen < 4) :
    tileExpandRule s = .preFault .truncated 0 4 s.auxLen :=
  (if_neg hw.ne').trans ((if_neg hh.ne').trans (if_pos h))

theorem tileExpandRule_of_header (hw : 0 < s.blkw) (hh : 0 < s.blkh) (haux : 4 ≤ s.auxLen) :
    tileExpandRule s = tileCompose s s.arg s.blkw s.blkh s.mtxCols s.mtxRows :=
  (if_neg hw.ne').trans ((if_neg hh.ne').trans (if_neg (Nat.not_lt.2 haux)))

end

section

variable {s : State} {n bw bh mw mh : Nat}

theorem tileCompose_of_truncated (h : s.auxLen < 4 + 2 * (mw * mh)) :
    tileCompose s n bw bh mw mh = .preFault .truncated 4 (2 * (mw * mh) : Nat) (s.auxLen - 4 : Nat) := if_pos h

theorem tileCompose_of_few_cells (haux : 4 + 2 * (mw * mh) ≤ s.auxLen) (h : mw * mh < n) :
    tileCompose s n bw bh mw mh = .preFault .mtxSmall 0 n (mw * mh : Nat) :=
  (if_neg (Nat.not_lt.2 haux)).trans (if_pos h)

theorem tileCompose_of_store_size (haux : 4 + 2 * (mw * mh) ≤ s.auxLen) (hn : n ≤ mw * mh) (h : s.srcLen ≠ n * bw * bh) :
    tileCompose s n bw bh mw mh = .preFault .tileSize 0 (n * bw * bh : Nat) s.srcLen :=
  (if_neg (Nat.not_lt.2 haux)).trans ((if_neg (Nat.not_lt.2 hn)).trans (if_pos h))

theorem tileCompose_of_no_room (haux : 4 + 2 * (mw * mh) ≤ s.auxLen) (hn : n ≤ mw * mh) (hsrc : s.srcLen = n * bw * bh)
    (h : s.dstLen < mw * mh * bw * bh) :
    tileCompose s n bw bh mw mh = .preFault .lenRange 1 s.dstLen (mw * mh * bw * bh : Nat) :=
  (if_neg (Nat.not_lt.2 haux)).trans ((if_neg (Nat.not_lt.2 hn)).trans ((if_neg (not_not.2 hsrc)).trans (if_pos h)))

end

section

variable {s : State}

/-- The rule once all sizes fit: the index check decides. -/
theorem ExpandSized.tileExpandRule_eq (h : ExpandSized s) :
    tileExpandRule s =
      match badTileIndex s.aux s.arg (s.mtxCols * s.mtxRows) with
      | some i => .preFault .tileIndex i s.arg (mtxIndex s.aux i)
      | none => .done (s.mtxCols * s.blkw * (s.mtxRows * s.blkh)) (sat32 (s.mtxCols * s.blkw)) (sat32 (s.mtxRows * s.blkh))
          (s.mtxCols * s.mtxRows) none (composite s.src s.aux s.mtxCols s.mtxRows s.blkw s.blkh) [] :=
  (tileExpandRule_of_header h.blkw_pos h.blkh_pos (by have := h.matrix; omega)).trans
    ((if_neg (Nat.not_lt.2 h.matrix)).trans ((if_neg (Nat.not_lt.2 h.count)).trans ((if_neg (not_not.2 h.store)).trans
      (if_neg (Nat.not_lt.2 h.dst_room)))))

theorem ExpandSized.tileExpandRule_of_bad_index (h : ExpandSized s) {i : Nat} (hi : i < s.mtxCols * s.mtxRows)
    (hbad : mtxIndex s.aux i < 0 ∨ mtxIndex s.aux i ≥ s.arg)
    (hbefore : ∀ j, j < i → 0 ≤ mtxIndex s.aux j ∧ mtxIndex s.aux j < s.arg) :
    tileExpandRule s = .preFault .tileIndex i s.arg (mtxIndex s.aux i) := by
  rw [h.tileExpandRule_eq, badTileIndex_eq_some_iff.2 ⟨hbad, hi, hbefore⟩]

theorem ExpandReady.tileExpandRule_done (h : ExpandReady s) :
    tileExpandRule s =
      .done (s.mtxCols * s.blkw * (s.mtxRows * s.blkh)) (sat32 (s.mtxCols * s.blkw)) (sat32 (s.mtxRows * s.blkh))
        (s.mtxCols * s.mtxRows) none (composite s.src s.aux s.mtxCols s.mtxRows s.blkw s.blkh) [] := by
  rw [h.tileExpandRule_eq, badTileIndex_eq_none_iff.2 h.indices]

end

theorem composite_getD (store mtx : Nat → Byte) {mw mh bw bh x y : Nat} (hx : x < mw * bw) (hy : y < mh * bh) :
    (composite store mtx mw mh bw bh).getD (y * (mw * bw) + x) 0 = compositePixel store mtx mh bw bh x y := by
  rw [composite, rows_getD (by simp) hy hx, List.getD_eq_getElem _ _ (by simpa using hx), List.getElem_map, List.getElem_range]

/-- A place given by a row of `m` and an offset in it. -/
theorem div_mod_of_lt {q r m : Nat} (hr : r < m) : (q * m + r) / m = q ∧ (q * m + r) % m = r :=
  (Nat.div_mod_unique (Nat.zero_lt_of_lt hr)).2 ⟨by rw [Nat.mul_comm, Nat.add_comm], hr⟩

/-- Offset `c` in block `q` of `n` blocks of `m`. -/
theorem block_offset_lt {n m q c : Nat} (hq : q < n) (hc : c < m) : q * m + c < n * m :=
  Nat.mul_comm m n ▸ cell_lt hc hq

/-- The cell of a list position lies in the matrix (R211). -/
theorem cell_of_position {mw mh i : Nat} (hi : i < mw * mh) : i / mh < mw ∧ i % mh < mh :=
  ⟨Nat.div_lt_of_lt_mul (Nat.mul_comm mw mh ▸ hi), Nat.mod_lt i (Nat.pos_of_ne_zero fun h0 => by simp [h0] at hi)⟩

/-- Pixel (`c`, `r`) of the tile at matrix cell (`col`, `row`), where it stands in the composite (R211). -/
theorem compositePixel_cell (store mtx : Nat → Byte) (mh : Nat) {bw bh r c : Nat} (col row : Nat) (hr : r < bh) (hc : c < bw) :
    compositePixel store mtx mh bw bh (col * bw + c) (row * bh + r) =
      store ((mtxIndex mtx (col * mh + row)).toNat * bw * bh + r * bw + c) := by
  obtain ⟨hcol, hcmod⟩ := div_mod_of_lt (q := col) hc
  obtain ⟨hrow, hrmod⟩ := div_mod_of_lt (q := row) hr
  simp only [compositePixel, hcol, hcmod, hrow, hrmod]

/-- The pixels of a matrix of tiles, counted by cell or by row. -/
theorem cell_pixels (mw mh bw bh : Nat) : mw * mh * bw * bh = mw * bw * (mh * bh) := by ring

/-- A `TILE.EXPAND` that completes, pixel by pixel. -/
theorem exec_tileExpand_done {s : State} (hr : regionFault (rolesOf .tileExpand) s = none) (h : ExpandReady s) :
    ∃ t, exec .tileExpand s = .next t ∧
      Completed s t (s.mtxCols * s.blkw * (s.mtxRows * s.blkh)) (sat32 (s.mtxCols * s.blkw)) (sat32 (s.mtxRows * s.blkh))
        (s.mtxCols * s.mtxRows) ∧
      t.short = s.short ∧
      (∀ x y, x < s.mtxCols * s.blkw → y < s.mtxRows * s.blkh →
        t.byteAt (s.dstBase + (y * (s.mtxCols * s.blkw) + x)) = compositePixel s.src s.aux s.mtxRows s.blkw s.blkh x y) ∧
      UnchangedOutside s t [(s.dstBase, s.mtxCols * s.blkw * (s.mtxRows * s.blkh))] := by
  have hdst := dstLen_lt s
  have haux := auxLen_lt s
  have hmatrix := h.matrix
  have hroom := h.dst_room
  rw [cell_pixels] at hroom
  have hsat (v : Nat) : sat32 v < 2 ^ 32 := Nat.lt_of_le_of_lt (Nat.min_le_right ..) (by decide)
  obtain ⟨t, hexec, hc, hshort, hbytes, hframe⟩ :=
    exec_done_out (i := .tileExpand) rfl (by simp) hr h.tileExpandRule_done (composite_length ..) (by omega) (hsat _) (hsat _)
      (by omega)
  exact ⟨t, hexec, hc, hshort,
    fun x y hx hy => (hbytes _ (cell_lt hx hy)).trans (composite_getD s.src s.aux hx hy), hframe⟩

/-- Settles O58: the pixel of `exec_tileExpand_done` at the place of a cell's tile. -/
theorem tileExpandRuns : Obligations.TileExpandRuns := by
  intro s hr n bw bh mw mh cells hbw hbh _ haux hn hsrc hdst hindices
  obtain ⟨t, hexec, hc, hshort, hpixels, hframe⟩ := exec_tileExpand_done hr ⟨⟨hbw, hbh, haux, hn, hsrc, hdst⟩, hindices⟩
  refine ⟨t, hexec, hc, hshort, fun i r c hi hrow hcol => ?_, hframe⟩
  obtain ⟨hcolumn, hline⟩ := cell_of_position hi
  have hpixel := hpixels _ _ (block_offset_lt hcolumn hcol) (block_offset_lt hline hrow)
  rw [compositePixel_cell _ _ _ _ _ hrow hcol, Nat.div_add_mod', ← Nat.add_assoc (_ * _)] at hpixel
  exact hpixel

/-- Settles O59: the checks of the rule in their order. -/
theorem tileExpandFaults : Obligations.TileExpandFaults := by
  intro s hr n bw bh cells
  have pre {e i0 i1 i2} (hrule : tileExpandRule s = .preFault e i0 i1 i2) := exec_preFault (i := .tileExpand) rfl (by simp) hr hrule
  have composed {e i0 i1 i2} (hbw : 0 < bw) (hbh : 0 < bh) (haux : 4 ≤ s.auxLen)
      (hrule : tileCompose s n bw bh s.mtxCols s.mtxRows = .preFault e i0 i1 i2) :=
    pre ((tileExpandRule_of_header hbw hbh haux).trans hrule)
  exact ⟨fun h => pre (tileExpandRule_of_no_blkw h),
    fun hbw h => pre (tileExpandRule_of_no_blkh hbw h),
    fun hbw hbh h => pre (tileExpandRule_of_no_header hbw hbh h),
    fun hbw hbh haux h => composed hbw hbh haux (tileCompose_of_truncated h),
    fun hbw hbh hmtx h => composed hbw hbh (by omega) (tileCompose_of_few_cells hmtx h),
    fun hbw hbh hmtx hn h => composed hbw hbh (by omega) (tileCompose_of_store_size hmtx hn h),
    fun hbw hbh hmtx hn hsrc h => composed hbw hbh (by omega) (tileCompose_of_no_room hmtx hn hsrc h),
    fun i hbw hbh hmtx hn hsrc hdst hi hbad hbefore =>
      pre (ExpandSized.tileExpandRule_of_bad_index ⟨hbw, hbh, hmtx, hn, hsrc, hdst⟩ hi hbad hbefore)⟩

/-! ### Deduplicating, expanding and deduplicating again (R217) -/

theorem tileAt_getD (img : Nat → Byte) {bw bh r c : Nat} (pitch col row : Nat) (hr : r < bh) (hc : c < bw) :
    (tileAt img bw bh pitch col row).getD (r * bw + c) 0 = img ((row * bh + r) * pitch + col * bw + c) := by
  rw [tileAt, rows_getD (by simp) hr hc, List.getD_eq_getElem _ _ (by simpa using hc), sliceOf_getElem]

/-- A store and a matrix in memory that are the analysis of an image compose to the image. -/
theorem FirstOccurrence.compositePixel_eq {img store mtx : Nat → Byte} {mw mh bw bh pitch x y : Nat} {uniq : List (List Byte)}
    {idx : List Nat} (h : FirstOccurrence (cellTile img mh bw bh pitch) (mw * mh) uniq idx) (hcount : uniq.length ≤ 32767)
    (hstore : ∀ j, j < uniq.length * bw * bh → store j = uniq.flatten.getD j 0) (hmtx : ReadsMtx mtx mw mh idx)
    (hx : x < mw * bw) (hy : y < mh * bh) : compositePixel store mtx mh bw bh x y = img (y * pitch + x) := by
  obtain ⟨hcol, hc⟩ := cell_of_position hx
  obtain ⟨hrow, hr⟩ := cell_of_position hy
  have hcell := block_offset_lt hcol hrow
  have hindex := h.index_lt hcell
  have hread := hmtx.mtxIndex_eq (h.length_eq.symm ▸ hcell) (by omega)
  obtain ⟨hdiv, hmod⟩ := div_mod_of_lt (q := x / bw) hrow
  have htile : uniq.getD (idx.getD (x / bw * mh + y / bh) 0) [] = tileAt img bw bh pitch (x / bw) (y / bh) := by
    rw [List.getD_eq_getElem?_getD, h.tile_at _ hcell, Option.getD_some, cellTile, hdiv, hmod]
  calc compositePixel store mtx mh bw bh x y
      = store (idx.getD (x / bw * mh + y / bh) 0 * bw * bh + y % bh * bw + x % bw) := by
        simp only [compositePixel, hread, Int.toNat_natCast]
    _ = (tileAt img bw bh pitch (x / bw) (y / bh)).getD (y % bh * bw + x % bw) 0 := by
        rw [hstore _ (store_offset_lt hindex hr hc), h.store_getD hindex hr hc, htile]
    _ = img (y * pitch + x) := by
        rw [tileAt_getD img pitch _ _ hr hc, Nat.div_add_mod', Nat.add_assoc, Nat.div_add_mod']

/-- Images with the same pixels have the same analysis, whatever their pitches. -/
theorem dedupAnalyse_of_same_pixels {img img' : Nat → Byte} {mw mh bw bh pitch pitch' : Nat}
    (h : ∀ x y, x < mw * bw → y < mh * bh → img' (y * pitch' + x) = img (y * pitch + x)) :
    dedupAnalyse img' mw mh bw bh pitch' = dedupAnalyse img mw mh bw bh pitch := by
  refine List.foldl_ext _ _ _ fun acc i hi => congrArg (dedupTile acc) ?_
  obtain ⟨hcol, hrow⟩ := cell_of_position (List.mem_range.1 hi)
  refine range_flatMap_congr fun r hr => range_map_congr fun c hc => ?_
  rw [Nat.add_assoc, Nat.add_assoc]
  exact h _ _ (block_offset_lt hcol hc) (block_offset_lt hrow hr)

section

variable {s u x : State}

/-- The matrix dimensions that `TILE.EXPAND` reads are the ones that `TILE.DEDUP` stored. -/
theorem DedupReady.mtx_eq (h : DedupReady s) (hmtx : ReadsMtx u.aux s.tileCols s.tileRows s.analysis.2) :
    u.mtxCols = s.tileCols ∧ u.mtxRows = s.tileRows :=
  ⟨hmtx.width_eq h.cols_le, hmtx.height_eq h.rows_le⟩

/-- What `TILE.DEDUP` stored passes the checks of `TILE.EXPAND`. -/
theorem DedupReady.expandReady (h : DedupReady s) (hmtx : ReadsMtx u.aux s.tileCols s.tileRows s.analysis.2)
    (haux : u.auxLen = 4 + 2 * s.tileCols * s.tileRows) (harg : u.arg = s.analysis.1.length)
    (hsrc : u.srcLen = s.analysis.1.length * s.blkw * s.blkh) (hbw : u.blkw = s.blkw) (hbh : u.blkh = s.blkh)
    (hroom : s.width * s.height ≤ u.dstLen) : ExpandReady u := by
  obtain ⟨hcols, hrows⟩ := h.mtx_eq hmtx
  refine ⟨⟨hbw ▸ h.blkw_pos, hbh ▸ h.blkh_pos, ?_, ?_, ?_, ?_⟩, fun i hi => ?_⟩
  · rw [hcols, hrows, haux, Nat.mul_assoc]
  · rw [hcols, hrows, harg]
    exact s.analysis_firstOccurrence.uniq_length_le
  · rw [harg, hbw, hbh, hsrc]
  · rwa [hcols, hrows, hbw, hbh, cell_pixels, h.cols_mul, h.rows_mul]
  · rw [hcols, hrows] at hi
    have hindex := s.analysis_firstOccurrence.index_lt hi
    have htiles := h.tiles_le
    rw [hmtx.mtxIndex_eq (s.analysis_firstOccurrence.length_eq.symm ▸ hi) (by omega), harg]
    omega

/-- An image with the same pixels and no gap between its rows passes the checks of `TILE.DEDUP` too, with the same analysis. -/
theorem DedupReady.of_same_pixels (h : DedupReady s)
    (hpixels : ∀ i j, i < s.width → j < s.height → x.src (j * s.width + i) = s.src (j * s.stride + i))
    (hlen : x.srcLen = s.width * s.height) (hwidth : x.width = s.width) (hheight : x.height = s.height)
    (hstride : x.stride = s.width) (hbw : x.blkw = s.blkw) (hbh : x.blkh = s.blkh)
    (hdst : s.analysis.1.length * s.blkw * s.blkh ≤ x.dstLen) (haux : 4 + 2 * s.tileCols * s.tileRows ≤ x.auxLen) :
    x.analysis = s.analysis ∧ DedupReady x := by
  have hcols : x.tileCols = s.tileCols := by rw [State.tileCols, hwidth, hbw]
  have hrows : x.tileRows = s.tileRows := by rw [State.tileRows, hheight, hbh]
  have hsame : x.analysis = s.analysis := by
    rw [State.analysis, hcols, hrows, hbw, hbh, hstride]
    refine dedupAnalyse_of_same_pixels fun i j hi hj => ?_
    rw [h.cols_mul] at hi
    rw [h.rows_mul] at hj
    exact hpixels i j hi hj
  refine ⟨hsame, ⟨hbw ▸ h.blkw_pos, hbh ▸ h.blkh_pos, ?_, ?_, ?_, hcols ▸ h.cols_le, hrows ▸ h.rows_le⟩, ?_,
    hsame ▸ h.tiles_pos, hsame ▸ h.tiles_le, ?_, ?_⟩
  · rw [hwidth, hstride]
  · rw [hwidth, hbw, h.width_mod]
  · rw [hheight, hbh, h.height_mod]
  · rw [State.imageNeed, hwidth, hheight, hstride, hlen]
    exact rowsNeed_packed_le ..
  · rwa [hcols, hrows]
  · rwa [hsame, hbw, hbh]

end

/-- Settles O60: `TILE.EXPAND` reads the analysis that the first `TILE.DEDUP` stored, so its composite has the image's pixels, and the
second `TILE.DEDUP` stores the same analysis. -/
theorem dedupExpandIdempotent : Obligations.DedupExpandIdempotent := by
  intro s t u v x y h hdone humem husrc husrcLen huaux huauxLen huarg hubw hubh huroom hur hv hxmem hxsrc hxsrcLen hxwidth hxheight
    hxstride hxbw hxbh hxdst hxaux hxr hy
  obtain ⟨hr, hrule⟩ := ruleOf_ne_preFault_of_done (by simp) h hdone
  have hs := dedupReady_of_no_preFault hrule
  obtain ⟨t', ht', ⟨-, -, ⟨ht0, ht1, ht2, ht3⟩, -⟩, -, hstore, hmtx, -⟩ := exec_tileDedup_done hr hs
  rw [h] at ht'
  cases ht'
  have hustore (j : Nat) (hj : j < s.analysis.1.length * s.blkw * s.blkh) : u.src j = s.analysis.1.flatten.getD j 0 := by
    rw [State.src, husrc, humem, hstore j hj]
  have humtx : ReadsMtx u.aux s.tileCols s.tileRows s.analysis.2 := fun j hj => by
    rw [State.aux, huaux, humem]
    exact readsMtx_of_holds hmtx j hj
  have hu := hs.expandReady humtx (huauxLen.trans ht2) (huarg.trans ht0) (husrcLen.trans ht1) hubw hubh huroom
  obtain ⟨hucols, hurows⟩ := hs.mtx_eq humtx
  obtain ⟨v', hv', ⟨-, hvd, ⟨hv0, -⟩, -⟩, -, hcomposite, -⟩ := exec_tileExpand_done hur hu
  rw [hv] at hv'
  cases hv'
  rw [hucols, hurows, hubw, hubh, hs.cols_mul, hs.rows_mul] at hcomposite hv0
  have hvpixels (i j : Nat) (hi : i < s.width) (hj : j < s.height) :
      v.byteAt (u.dstBase + (j * s.width + i)) = s.src (j * s.stride + i) :=
    (hcomposite i j hi hj).trans
      (s.analysis_firstOccurrence.compositePixel_eq hs.tiles_le hustore humtx (hs.cols_mul.symm ▸ hi) (hs.rows_mul.symm ▸ hj))
  obtain ⟨hsame, hx⟩ := hs.of_same_pixels (x := x) (fun i j hi hj => by rw [State.src, hxsrc, hxmem, hvpixels i j hi hj])
    (hxsrcLen.trans hv0) hxwidth hxheight hxstride hxbw hxbh (ht1 ▸ hxdst) (ht2 ▸ hxaux)
  have hxcols : x.tileCols = s.tileCols := by rw [State.tileCols, hxwidth, hxbw]
  have hxrows : x.tileRows = s.tileRows := by rw [State.tileRows, hxheight, hxbh]
  obtain ⟨y', hy', ⟨-, hyd, ⟨hy0, hy1, hy2, hy3⟩, -⟩, -, hystore, hymtx, -⟩ := exec_tileDedup_done hxr hx
  rw [hy] at hy'
  cases hy'
  rw [hsame] at hy0
  rw [hsame, hxbw, hxbh] at hy1 hystore
  rw [hxcols, hxrows] at hy2 hy3
  rw [hsame, hxcols, hxrows] at hymtx
  refine ⟨hvd, hvpixels, hyd, BitVec.eq_of_toNat_eq (hy0.trans ht0.symm), BitVec.eq_of_toNat_eq (hy1.trans ht1.symm),
    BitVec.eq_of_toNat_eq (hy2.trans ht2.symm), BitVec.eq_of_toNat_eq (hy3.trans ht3.symm), fun j hj => ?_, fun j hj => ?_⟩
  · rw [ht1] at hj
    exact (hystore j hj).trans (hstore j hj).symm
  · rw [ht2] at hj
    exact (hymtx j hj).trans (hmtx j hj).symm

end Sys2Proof.Machine

end

/-! ## Acceptance, the system commands and the end of `BUSY` (45_system.md)

What the engine's turn, the `ACK` and `NOP` do is said once each; the statements about a step follow by the event that the agenda gives.
`BUSY` ends because a step that does not end it takes an event off the agenda. -/

section

namespace Sys2Proof.Machine

/-! ### The engine's turn, by who gives it (R233, log 5) -/

/-- An engine event is taken off the agenda before the engine's step. -/
theorem step_engineEvent {s : State} (hp : s.phase = .busy) (h : s.agenda.head? = some .engine) : step s = engineStep s.popped := by
  rw [step_head h]
  exact if_pos (show s.popped.phase = .busy from hp)

/-- A `WAIT` while `BUSY` is the engine's step, with the wait still to come. -/
theorem step_wait {s : State} (hp : s.phase = .busy) (h : s.agenda.head? = some .wait) : step s = engineStep s := by
  rw [step_head h]
  refine (if_pos (show s.popped.phase = .busy from hp)).trans ?_
  rw [wait_stays h]

/-- The engine's step ends `BUSY`. -/
theorem engineStep_not_busy {s t : State} (h : engineStep s = .next t) : t.phase ≠ .busy := by
  rcases engineStep_phase h with hd | hf
  · simp [hd]
  · simp [hf]

/-! ### `ACK` and `NOP` (R231, R232) -/

theorem exec_ack_accepted {s : State} (hp : s.phase ≠ .busy) : exec .ack s = .next (acknowledge s) :=
  congrArg Host.Outcome.next (if_neg hp)

theorem exec_ack_discarded {s : State} (hp : s.phase = .busy) : exec .ack s = .next s.overrun :=
  congrArg Host.Outcome.next (if_pos hp)

/-- The write of the `ACK` word is `exec` of `ACK`, in every `STATE` (log 9). -/
theorem writeCmd_ackWord (s : State) : writeCmd ackWord s = exec .ack s := if_pos rfl

theorem exec_nop (s : State) : exec .nop s = .next { s with res := #v[0, 0, 0, 0], phase := .done } := rfl

/-- Settles O6: the four ways in which a command comes to run. -/
theorem stepRunsDecodedCommand : Obligations.StepRunsDecodedCommand := by
  refine ⟨fun s i hp hd hi => ⟨fun ha => ?_, fun ha => ?_, fun ha => ?_⟩, fun s hn => ?_⟩
  · rw [step_engine hp ha, engineStep_of_decode hd hi]
  · rw [step_engineEvent hp ha]
    exact engineStep_of_decode (s := s.popped) hd hi
  · rw [step_wait hp ha, engineStep_of_decode hd hi]
  · rw [step_writeReg hn, writeReg_cmd]
    exact writeCmd_ackWord s.popped

/-- Settles O7: the branches of R230 in order, each with the step that it is. -/
theorem cmdWriteHandling : Obligations.CmdWriteHandling := by
  intro s w hn
  split_ifs with hbusy hack hfault
  · exact step_cmd_busy hn hbusy
  · subst hack
    exact step_ack hn hbusy
  · exact step_cmd_fault hn hack hfault
  · have hp : s.phase = .idle ∨ s.phase = .done := by
      cases h : s.phase with
      | idle => exact Or.inl rfl
      | busy => exact absurd h hbusy
      | done => exact Or.inr rfl
      | fault => exact absurd h hfault
    exact step_accept hn hack hp

/-- Settles O8. -/
theorem ackReturnsToIdle : Obligations.AckReturnsToIdle := fun _ => ⟨exec_ack_accepted, exec_ack_discarded⟩

/-- Settles O9: the write of the word 0 is its acceptance, which empties the agenda, so that the engine's step comes next and
decodes `NOP`. -/
theorem nopRuns : Obligations.NopRuns := by
  refine ⟨exec_nop, fun s hp ha => ?_, fun s hp hn => step_cmd_fault hn (by decide) hp⟩
  have hn : NextCmd s 0x00000000 := by simp [NextCmd, ha]
  have hempty : (accept 0x00000000 s.popped).agenda = [] := by simp [ha]
  have hdecode : decode (accept 0x00000000 s.popped).cmd = .ok .nop := decode_encode (i := .nop) rfl
  have hpopped : s.popped = { s with agenda := [] } := by simp [State.popped, ha]
  refine ⟨_, step_accept hn (by decide) hp, rfl, ?_⟩
  rw [step_engine (accept_phase ..) hempty, engineStep_of_decode (i := .nop) hdecode (by simp), exec_nop, hpopped]
  rfl

/-! ### The end of `BUSY` (R233, R290) -/

/-- The host's register accesses, waits, engine turns and resets: the events that the model gives a meaning while `BUSY` (log 7). -/
def NoMemAccess (l : List Event) : Prop :=
  ∀ e ∈ l, (∀ a bs, e ≠ .poke a bs) ∧ (∀ a n, e ≠ .peek a n)

theorem NoMemAccess.tail {e : Event} {l : List Event} (h : NoMemAccess (e :: l)) : NoMemAccess l :=
  fun f hf => h f (List.mem_cons_of_mem e hf)

/-- A register write while `BUSY` sets `OVR` or does nothing at all (R23, R31, R36). -/
theorem writeReg_busy (off : Nat) (v : Word) {s : State} (hp : s.phase = .busy) :
    writeReg off v s = .next s.overrun ∨ writeReg off v s = .next s := by
  rcases writeReg_cases off v s with ⟨-, h⟩ | ⟨k, -, h⟩ | ⟨-, -, h⟩
  · rcases writeCmd_cases v s with ⟨-, hw⟩ | ⟨hn, -⟩ | ⟨hf, -⟩ | ⟨hid, -⟩
    · exact Or.inl (h.trans hw)
    · exact absurd hp hn
    · simp [hp] at hf
    · simp [hp] at hid
  · exact Or.inl (by rw [h, writeOperand, if_pos hp])
  · exact Or.inr h

/-- What a step from `BUSY` achieves: it ends `BUSY`, or it takes an event off the agenda. -/
def Progress (s t : State) : Prop :=
  t.phase ≠ .busy ∨ (t.phase = .busy ∧ t.agenda = s.agenda.tail ∧ s.agenda ≠ [])

theorem progress_of_engineMoves {s : State} (hp : s.phase = .busy) (hm : EngineMoves s) : ∃ t, step s = .next t ∧ Progress s t := by
  obtain ⟨u, -, hu⟩ := step_of_engineMoves hp hm
  obtain ⟨t, ht⟩ := engineStep_next u
  exact ⟨t, hu.trans ht, Or.inl (engineStep_not_busy ht)⟩

/-- Every event but an access to `MEM` makes progress: the engine's moves and a reset end `BUSY`, a register access is used up. -/
theorem step_progress {s : State} (hp : s.phase = .busy) (hm : NoMemAccess s.agenda) : ∃ t, step s = .next t ∧ Progress s t := by
  cases hag : s.agenda with
  | nil => exact progress_of_engineMoves hp (Or.inl hag)
  | cons e rest =>
    have hhead : s.agenda.head? = some e := by rw [hag]; rfl
    have hne : s.agenda ≠ [] := by simp [hag]
    obtain ⟨hpoke, hpeek⟩ := hm e (by simp [hag])
    cases e with
    | engine => exact progress_of_engineMoves hp (Or.inr (Or.inl hhead))
    | wait => exact progress_of_engineMoves hp (Or.inr (Or.inr hhead))
    | reset => exact ⟨_, step_reset hhead, Or.inl (by simp)⟩
    | readReg off => exact ⟨_, step_head hhead, Or.inr ⟨hp, rfl, hne⟩⟩
    | writeReg off v =>
      rcases writeReg_busy off v (s := s.popped) hp with h | h
      · exact ⟨_, (step_writeReg hhead).trans h, Or.inr ⟨hp, rfl, hne⟩⟩
      · exact ⟨_, (step_writeReg hhead).trans h, Or.inr ⟨hp, rfl, hne⟩⟩
    | poke a bs => exact absurd rfl (hpoke a bs)
    | peek a n => exact absurd rfl (hpeek a n)

/-- A run is its first step and the run from there. -/
theorem run_succ {M : Host.Core} {s t : M.State} (h : M.step s = .next t) (k : Nat) : M.run (k + 1) s = M.run k t := by
  simp only [Host.Core.run, h]

/-- A machine that has left `BUSY` after one step has left it within any bound of at least one step. -/
theorem left_busy_at_once {s t : State} (h : step s = .next t) (hp : t.phase ≠ .busy) (n : Nat) :
    ∃ k u, k ≤ n + 1 ∧ Host.Core.run Sys2Proof.core k s = .next u ∧ u.phase ≠ .busy :=
  ⟨1, t, by omega, run_succ (M := Sys2Proof.core) h 0, hp⟩

/-- `BUSY` ends, by induction on the agenda: while it lasts, each step uses an event up. -/
theorem leaves_busy_of_noMemAccess (l : List Event) (s : State) (hag : s.agenda = l) (hp : s.phase = .busy) (hm : NoMemAccess l) :
    ∃ k t, k ≤ l.length + 1 ∧ Host.Core.run Sys2Proof.core k s = .next t ∧ t.phase ≠ .busy := by
  induction l generalizing s with
  | nil =>
    obtain ⟨t, ht, hleft | ⟨-, -, hne⟩⟩ := step_progress hp (hag ▸ hm)
    · exact left_busy_at_once ht hleft _
    · exact absurd hag hne
  | cons e rest ih =>
    obtain ⟨t, ht, hleft | ⟨hbusy, htail, -⟩⟩ := step_progress hp (hag ▸ hm)
    · exact left_busy_at_once ht hleft _
    · obtain ⟨k, u, hk, hrun, hu⟩ := ih t (by rw [htail, hag]; rfl) hbusy hm.tail
      exact ⟨k + 1, u, Nat.succ_le_succ hk, (run_succ (M := Sys2Proof.core) ht k).trans hrun, hu⟩

/-- Settles O24. -/
theorem busyEnds : Obligations.BusyEnds := fun s hp hm => leaves_busy_of_noMemAccess s.agenda s rfl hp hm

end Sys2Proof.Machine

end

/-! ## Faults: what is latched, what is left in `MEM`, and how long it is held (60_exceptions.md)

A command that ends in `FAULT` took a pre-check fault, which leaves `MEM`, or its rule answered a mid-stream fault (`exec_fault`). Only
the engine's step enters `FAULT`, and in `FAULT` only `ACK` and reset touch the record. -/

section

namespace Sys2Proof.Machine

/-! ### How a command comes to end in `FAULT` (R262, R263) -/

/-- A mid-stream fault was taken: the rule of the command answered it, with the output length that R263 names. -/
structure MidStream (i : Instr) (s t : State) (e : ErrCode) (i0 i1 i2 : Int) : Prop where
  rule : ruleOf i s = .midFault e i0 i1 i2 (midLength i s)
  code : e ∈ midCodes
  next : t = takeFault e i0 i1 i2 (scrambleDst (midLength i s) s)

theorem MidStream.midFaulted {i : Instr} {s t : State} {e : ErrCode} {i0 i1 i2 : Int} (h : MidStream i s t e i0 i1 i2) :
    MidFaulted s t e i0 i1 i2 (midLength i s) :=
  h.next ▸ midFault_midFaulted ..

/-- A verdict that keeps to R263 and leaves the machine in `FAULT` is a fault, before any write or mid-stream. -/
theorem conclude_fault {i : Instr} {s : State} (hf : (conclude (ruleOf i s) s).phase = .fault) :
    ∃ e ∈ raisedCodes, ∃ i0 i1 i2,
      PreFaulted s (conclude (ruleOf i s) s) e i0 i1 i2 ∨ MidStream i s (conclude (ruleOf i s) s) e i0 i1 i2 := by
  have hk := ruleOf_keeps i s
  cases hv : ruleOf i s with
  | done r0 r1 r2 r3 short out outAux => rw [hv] at hf; cases hf
  | preFault e i0 i1 i2 =>
    rw [hv] at hk
    exact ⟨e, hk, i0, i1, i2, .inl (takeFault_preFaulted ..)⟩
  | midFault e i0 i1 i2 n =>
    rw [hv] at hk
    obtain ⟨he, -, rfl, -⟩ := hk
    exact ⟨e, raisedCodes_of_midCodes he, i0, i1, i2, .inr ⟨hv, he, rfl⟩⟩

/-- Everything a command that ends in `FAULT` can have done. -/
theorem exec_fault {i : Instr} {s t : State} (ha : i ≠ .ack) (h : exec i s = .next t) (hf : t.phase = .fault) :
    ∃ e ∈ raisedCodes, ∃ i0 i1 i2, PreFaulted s t e i0 i1 i2 ∨ MidStream i s t e i0 i1 i2 := by
  rcases exec_cases i s ha with ⟨-, h'⟩ | ⟨i0, i1, i2, -, -, h'⟩ | ⟨-, -, h'⟩ <;> rw [h'] at h <;> cases h
  · exact ⟨.badCmd, by decide, _, _, _, .inl (badCommand_preFaulted ..)⟩
  · exact ⟨.region, by decide, _, _, _, .inl (takeFault_preFaulted ..)⟩
  · exact conclude_fault hf

/-- `ACK` never ends in `FAULT` (R232). -/
theorem ne_ack_of_fault {i : Instr} {s t : State} (h : exec i s = .next t) (hf : t.phase = .fault) : i ≠ .ack := by
  rintro rfl
  by_cases hp : s.phase = .busy
  · rw [exec_ack_discarded hp] at h
    cases h
    simp [hp] at hf
  · rw [exec_ack_accepted hp] at h
    cases h
    cases hf

/-! ### What a faulting command leaves in `MEM` (R263) -/

theorem PreFaulted.byteAt_eq {s t : State} {e : ErrCode} {i0 i1 i2 : Int} (h : PreFaulted s t e i0 i1 i2) (a : Nat) :
    t.byteAt a = s.byteAt a := by
  obtain ⟨⟨⟨-, -, -, -, hepoch, -⟩, -⟩, hmem, -⟩ := h
  exact byteAt_congr hmem hepoch a

/-- The three codes that R263 excepts are the mid-stream ones. -/
theorem word_mem_of_midCodes {e : ErrCode} (h : e ∈ midCodes) :
    e.word ∈ [ErrCode.lenMismatch.word, ErrCode.lzwCode.word, ErrCode.scnStream.word] :=
  List.mem_map_of_mem (f := ErrCode.word) h

/-- A mid-stream fault with no output to produce writes nothing. -/
theorem MidStream.mem_of_no_output {i : Instr} {s t : State} {e : ErrCode} {i0 i1 i2 : Int} (h : MidStream i s t e i0 i1 i2)
    (hn : midLength i s = 0) : t.mem = s.mem := by
  rw [h.next, hn]
  rfl

/-- A raw block is checked as a whole before a byte of it is copied (R150, R151). -/
theorem cblkDecRule_raw_ne_midFault {s : State} (ht : s.src 0 = 0) (e : ErrCode) (i0 i1 i2 : Int) (n : Nat) :
    cblkDecRule s ≠ .midFault e i0 i1 i2 n := by
  rcases Nat.lt_or_ge s.srcLen 5 with h | h
  · simp [cblkDecRule_of_no_header h]
  rcases Nat.lt_or_ge s.dstLen (le32At s.src 1) with hl | hl
  · simp [cblkDecRule_of_supported h (show (s.src 0).toNat < 3 by rw [ht]; decide), hl]
  rw [cblkDecRule_raw h hl ht]
  rcases Nat.lt_or_ge (s.srcLen - 5) (le32At s.src 1) with hp | hp
  · simp [cblkRaw_of_short hp]
  · simp [cblkRaw_of_fits hp]

/-- Settles O21: a pre-check fault leaves `MEM`; a mid-stream fault has one of the three codes, is of no `PIX.MERGE` and of no raw
block, and stays inside the bytes it was producing. -/
theorem faultPrecision : Obligations.FaultPrecision := by
  intro i s t h hf
  obtain ⟨e, -, i0, i1, i2, hpre | hmid⟩ := exec_fault (ne_ack_of_fault h hf) h hf
  · have hbytes := hpre.byteAt_eq
    obtain ⟨-, hmem, -⟩ := hpre
    exact ⟨fun _ => hmem, fun _ => hmem, fun _ _ => hmem, fun a _ => hbytes a⟩
  · obtain ⟨⟨-, -, hcode, -⟩, houtside⟩ := hmid.midFaulted
    refine ⟨fun hc => ?_, ?_, ?_, houtside⟩
    · rw [hcode] at hc
      exact absurd (word_mem_of_midCodes hmid.code) hc
    · rintro rfl
      exact hmid.mem_of_no_output rfl
    · rintro rfl ht
      exact absurd hmid.rule (cblkDecRule_raw_ne_midFault ht e i0 i1 i2 _)

/-! ### Entering `FAULT` (R262) -/

/-- An engine's step that ends in `FAULT` took a fault that some command raises. -/
theorem engineStep_fault {s t : State} (h : engineStep s = .next t) (hf : t.phase = .fault) :
    ∃ e ∈ raisedCodes, ∃ i0 i1 i2, Faulted s t e i0 i1 i2 := by
  rcases engineStep_cases s with h' | ⟨i, -, ha, h'⟩ <;> rw [h'] at h
  · cases h
    exact ⟨.badCmd, by decide, _, _, _, (badCommand_preFaulted ..).1⟩
  · obtain ⟨e, he, i0, i1, i2, hpre | hmid⟩ := exec_fault ha h hf
    · exact ⟨e, he, i0, i1, i2, hpre.1⟩
    · exact ⟨e, he, i0, i1, i2, hmid.midFaulted.1⟩

/-- Only the engine's step of a `BUSY` machine enters `FAULT` (R29), whatever is then left on the agenda. -/
theorem step_enters_fault {s t : State} (h : step s = .next t) (hs : s.phase ≠ .fault) (hf : t.phase = .fault) :
    s.phase = .busy ∧ ∃ agenda, engineStep { s with agenda := agenda } = .next t := by
  cases step_kind h with
  | engine u hu _ hp hrun =>
    rcases hu with rfl | rfl <;> exact ⟨hp, _, hrun⟩
  | cmdBusy w _ _ h => subst h; exact absurd hf hs
  | ack _ _ h => subst h; cases hf
  | cmdFault w _ _ hp _ => exact absurd hp hs
  | accept w _ _ _ h => subst h; cases hf
  | oprBusy k v _ _ h => subst h; exact absurd hf hs
  | opr k v _ _ h => subst h; exact absurd hf hs
  | reset _ h => subst h; cases hf
  | poke a bs _ _ _ h => subst h; exact absurd hf hs
  | quiet _ _ _ _ hq => obtain ⟨agenda, seen, rfl⟩ := hq; exact absurd hf hs

/-- Settles O22: the step is the engine's, and what it latches is what taking a fault latches. -/
theorem faultEntry : Obligations.FaultEntry := by
  intro s t h hs hf
  obtain ⟨hp, agenda, hrun⟩ := step_enters_fault h hs hf
  obtain ⟨e, he, i0, i1, i2, hframe, -, hcode, -, -, -, hres, hsticky, hshort⟩ := engineStep_fault hrun hf
  obtain ⟨hcfg, hopr, hcmd, hovr, -⟩ := hframe
  exact ⟨hp, hcode ▸ List.mem_map_of_mem he, hres, hsticky, hopr, hcmd, hshort, hovr, hcfg⟩

/-! ### Holding the record (R266) -/

/-- `STATE`, the fault record, `CMD` and the results are as they were. -/
def RecordHeld (s t : State) : Prop :=
  t.phase = s.phase ∧ t.fcode = s.fcode ∧ t.finfo0 = s.finfo0 ∧ t.finfo1 = s.finfo1 ∧ t.finfo2 = s.finfo2 ∧ t.cmd = s.cmd ∧
    t.res = s.res

theorem step_fault_held {s t : State} (hp : s.phase = .fault) (h : step s = .next t) (hack : ¬ NextCmd s ackWord)
    (hreset : ¬ NextReset s) : RecordHeld s t := by
  have hbusy : s.phase ≠ .busy := by simp [hp]
  cases step_kind h with
  | engine _ _ _ hb _ => exact absurd hb hbusy
  | cmdBusy _ _ hb _ => exact absurd hb hbusy
  | ack hn _ _ => exact absurd hn hack
  | cmdFault w _ _ _ h => subst h; simp [RecordHeld]
  | accept _ _ _ hi _ => simp [hp] at hi
  | oprBusy _ _ _ hb _ => exact absurd hb hbusy
  | opr k v _ _ h => subst h; simp [RecordHeld]
  | reset hn _ => exact absurd hn hreset
  | poke a bs _ _ _ h => subst h; simp [RecordHeld]
  | quiet _ _ _ _ hq => obtain ⟨agenda, seen, rfl⟩ := hq; simp [RecordHeld]

/-- Settles O23: the record is held by every kind of step but `ACK` and reset, a discarded write is an overrun, and `ACK` acknowledges. -/
theorem faultHeldUntilAck : Obligations.FaultHeldUntilAck := by
  refine ⟨fun s t hp h hack hreset => ?_, fun s w hp hn hw => step_cmd_fault hn hw hp, fun s hp hn => ?_⟩
  · obtain ⟨hphase, hrecord⟩ := step_fault_held hp h hack hreset
    exact ⟨hphase.trans hp, hrecord⟩
  · exact ⟨_, step_ack hn (by simp [hp]), acknowledge_phase _⟩

end Sys2Proof.Machine

end
